-- ==== Sys2Proof/Word.lean ====
section
/-! DEFINITION. The two word types of the core: bytes of the source and the sink, and the 32-bit
registers and CRC registers (00_scope R11, 10_state R22). -/

namespace Sys2Proof

/-- A byte, `u8` (00_scope R13). -/
abbrev Byte := BitVec 8

/-- A 32-bit register value, `u32` (00_scope R11). -/
abbrev Word := BitVec 32

end Sys2Proof
end

