-- ==== Sys2Proof/Machine/Crc.lean ====
section
/-! DEFINITION. CRC arithmetic (41_crc R140..R147). -/

namespace Sys2Proof.Machine

/-- The register seed, and the final XOR (41_crc R140, R144). -/
def crcSeed : Word := 0xFFFFFFFF

/-- `step(c)` (41_crc R141): one shift of the register. -/
def crcStep (c : Word) : Word :=
  if c.getLsbD 31 then (c <<< 1) ^^^ 0x04C11DB7 else c <<< 1

/-- `T[i] = step^8(i << 24)` (41_crc R141). -/
def crcTable (i : Word) : Word := crcStep^[8] (i <<< 24)

/-- `CrcUpdate(c, b)` (41_crc R142). -/
def crcUpdate (c : Word) (b : Byte) : Word :=
  (c <<< 8) ^^^ crcTable (((c >>> 24) ^^^ b.setWidth 32) &&& 0xFF)

/-- `CrcUpdate` of `n` copies of one byte (44_stream_encoder R253). -/
def crcRepeat (n : Nat) (b : Byte) (c : Word) : Word := (fun c => crcUpdate c b)^[n] c

/-- `CrcValue(c)` (41_crc R143). -/
def crcValue (c : Word) : Word := c ^^^ 0xFFFFFFFF

/-- `rotl1_32` (00_scope R11). -/
def rotl1 (x : Word) : Word := (x <<< 1) ||| (x >>> 31)

/-- The fold of a block CRC into a combined CRC (41_crc R145). -/
def crcCombine (comb crc : Word) : Word := rotl1 comb ^^^ crc

end Sys2Proof.Machine
end

