-- ==== Sys2Proof/Syntax.lean ====
section
/-! DEFINITION. The instructions: the 15 command words of 30_encoding R101 and the 18 wire elements of
30_encoding R80..R89, one constructor per row of spec/opcode_table.json; the cause codes' names
(60_exceptions R341); the places of a block section where the decoder can stand. -/

namespace Sys2Proof

/-- One instruction. Operand fields have the width the opcode table gives them; a value the spec calls
illegal (30_encoding R92, R102) can be written down and raises its cause when it is run. -/
inductive Instr where
  -- command words (30_encoding R101)
  | nop
  | reset
  | bwWriteBits (n : BitVec 8)
  | bwFinish
  | brReadBits (n : BitVec 8)
  | crcReset
  | crcUpdate (b : Byte)
  | crcValue
  | crcCombReset
  | crcCombine
  | encInit (k : BitVec 8)
  | encWrite (b : Byte)
  | encClose
  | decInit
  | decRead
  -- wire elements (30_encoding R81..R89)
  | streamHeader (k : BitVec 4)
  | blockMagic
  | blockCrc (c : Word)
  | rand (r : Bool)
  | origPtr (p : BitVec 24)
  | inUse16 (g : BitVec 16)
  | inUseWord (u : BitVec 16)
  | nGroups (n : BitVec 3)
  | nSelectors (n : BitVec 15)
  | selectorMtf (j : Nat)
  | lenStart (l : BitVec 5)
  | lenInc
  | lenDec
  | lenStop
  | huffSymbol (v : Nat)
  | eosMagic
  | combinedCrc (c : Word)
  | pad (z : Nat)
  deriving DecidableEq, Repr

/-- The causes of 60_exceptions R341, in the order of its table. The absence of a cause (code 0x00) is
`none` of `Option Cause`. -/
inductive Cause where
  | illegalCommand
  | commandStateError
  | badOperand
  | badStreamMagic
  | badBlockSizeDigit
  | badBlockMagic
  | noSymbolsInUse
  | badGroupCount
  | badSelectorCount
  | badSelector
  | badCodeLength
  | selectorsExhausted
  | codeTooLong
  | symbolOutOfRange
  | blockOverflow
  | badOrigPtr
  | blockCrcMismatch
  | streamCrcMismatch
  | unexpectedEndOfInput
  | badBlockSize
  | sortStackOverflow
  deriving DecidableEq, Repr

/-- The error classes of 60_exceptions R340. -/
inductive CauseClass where
  | formatError
  | integrityError
  | alphabetRangeError
  | unexpectedEndOfInput
  | configurationError
  | internalError
  | command
  deriving DecidableEq, Repr

/-- Which wire element comes next inside a block, after BLOCK_MAGIC and before the block's last symbol
(30_encoding R80, R82..R87, in wire order). -/
inductive BlockPos where
  | blockCrc
  | rand
  | origPtr
  | inUse16
  | inUseWord
  | nGroups
  | nSelectors
  | selector
  | lenStart
  | lenAdjust
  | symbol
  deriving DecidableEq, Repr

end Sys2Proof
end

