-- ==== Sys2Proof/Machine/State.lean ====
section
/-! DEFINITION. The state of the core (10_state R20..R41), as plain data; its reset (70_reset R370..R372);
the machine's own faults and refusals; the result of a procedure inside one command. -/

namespace Sys2Proof.Machine

/-- The BitWriter and the sink it pushes to (10_state R32, 20_memory R62). -/
structure Writer where
  /-- `bw.acc`: bits written but not yet a full byte, oldest first. `bw.nbits` is its length. -/
  acc : List Bool
  /-- `SINK`: every byte pushed, in order. -/
  sink : List Byte
  /-- `SINK_COUNT`: bytes pushed since reset. -/
  count : Nat
  deriving DecidableEq, Repr

/-- The BitReader and the source it pulls from (10_state R33, 20_memory R61). -/
structure Reader where
  /-- `br.acc`: bits pulled but not yet consumed, oldest first. `br.nbits` is its length. -/
  acc : List Bool
  /-- `SRC`: the whole source, fixed for the run. -/
  src : List Byte
  /-- `src.pos`: index of the next source byte to pull. -/
  pos : Nat
  /-- `SRC_COUNT`: bytes pulled since reset. -/
  count : Nat
  deriving DecidableEq, Repr

/-- The standalone Crc32Accumulator `crcx` (10_state R32). -/
structure CrcUnit where
  reg : Word
  comb : Word
  deriving DecidableEq, Repr

/-- `enc.state` (44_stream_encoder R250). `opened` is the spec's Open. -/
inductive EncState where
  | idle
  | opened
  | closed
  | faulted
  deriving DecidableEq, Repr

/-- The encoder's per-block scratch (10_state R36). -/
structure EncScratch where
  /-- The randomised bit of the block (42 R166). -/
  rand : Bool
  /-- `B'`: the block the BWT transforms (42 R169). -/
  masked : List Byte
  /-- The in-use byte values, ascending (42 R165). -/
  inUse : List Byte
  zptr : List Nat
  /-- `L`: the BWT output (42 R172). -/
  last : List Byte
  origPtr : Nat
  /-- The MTF list after the last byte (42 R175, R176). -/
  mtfList : List Byte
  mtfv : List Nat
  mtfFreq : List Nat
  /-- Code lengths `len[t][s]` (43 R209). -/
  lens : List (List Nat)
  /-- Codes `code[t][s]` (43 R211). -/
  codes : List (List Nat)
  selector : List Nat
  selMtf : List Nat
  deriving DecidableEq, Repr

/-- The encoder `enc` (10_state R35, R36). -/
structure Encoder where
  state : EncState
  k : Nat
  cur : Option Byte
  run : Nat
  /-- `enc.B`: the current block after the run-length pre-pass. -/
  block : List Byte
  crc : Word
  comb : Word
  blocks : Nat
  rand : Bool
  cause : Option Cause
  /-- `none` between commands (10_state R36). -/
  scratch : Option EncScratch
  deriving DecidableEq, Repr

/-- `dec.state` (45_stream_decoder R280). -/
inductive DecState where
  | idle
  | expectStreamHeader
  | expectBlockHeader
  | decodingBlock
  | expectStreamTrailer
  | done
  | faulted
  deriving DecidableEq, Repr

/-- The decode tables of one Huffman table (43_huffman R226). -/
structure DecTable where
  minLen : Nat
  maxLen : Nat
  /-- `limit[0..21]`. -/
  limit : List Int
  /-- `base[0..21]`. -/
  base : List Int
  perm : List Nat
  deriving DecidableEq, Repr

/-- The decoder's per-block tables and parse position (10_state R38): alive from BLOCK_MAGIC to the block's
last symbol. -/
structure DecScratch where
  /-- The element that comes next. -/
  pos : BlockPos
  /-- `dec.origPtr` as read from the header (45 R284). -/
  origPtr : Nat
  /-- The mapping groups whose word is still to come, ascending (43 R220). -/
  mapLeft : List Nat
  seqToUnseq : List Byte
  nGroups : Nat
  nSelectors : Nat
  /-- `pos` of 43 R224: the selector MTF list. -/
  selList : List Nat
  selector : List Nat
  /-- The completed tables' code lengths (43 R225). -/
  lens : List (List Nat)
  /-- The code lengths of the table being read. -/
  row : List Nat
  curr : Nat
  tables : List DecTable
  /-- `g + 1` of 43 R228: how many groups have been started. -/
  groupsUsed : Nat
  /-- `left` of 43 R228: symbols left in the current group. -/
  left : Nat
  /-- `list` of 45 R287: the MTF list. -/
  mtfList : List Byte
  /-- `dec.L` in the making (45 R287). -/
  out : List Byte
  /-- `run` of 45 R287: the pending zero run. -/
  run : Option Nat
  /-- `w` of 45 R287: the weight of the next run digit. -/
  weight : Nat
  /-- `cftab[0..256]` of 45 R291: empty until the block's last symbol, when BuildChain fills and uses it. -/
  cftab : List Nat
  deriving DecidableEq, Repr

/-- The decoder's state of the block being delivered (10_state R37). -/
structure DecBlock where
  origPtr : Nat
  /-- `dec.L`. -/
  last : List Byte
  tt : List Nat
  p : Nat
  /-- `dec.i`: chain steps taken. -/
  i : Nat
  rNToGo : Nat
  rTPos : Nat
  prev : Option Byte
  cnt : Nat
  rep : Nat
  deriving DecidableEq, Repr

/-- The decoder `dec` (10_state R37, R38). -/
structure Decoder where
  state : DecState
  k : Nat
  comb : Word
  blocks : Nat
  cause : Option Cause
  stored : Word
  crc : Word
  rand : Bool
  /-- The block being delivered; the spec's `none` outside DecodingBlock (70 R372). -/
  blk : Option DecBlock
  /-- The per-block tables; the spec's `none` except while a block section is parsed (10_state R38). -/
  scratch : Option DecScratch
  deriving DecidableEq, Repr

/-- What a register access does. -/
inductive HostOp where
  | read
  | write (v : Word)
  deriving DecidableEq, Repr

/-- One access of the host to the register window (10_state R22, R30): a byte offset, a width in bytes, and
what is done. -/
structure HostAccess where
  offset : Nat
  bytes : Nat
  op : HostOp
  deriving DecidableEq, Repr

/-- The whole machine. -/
structure State where
  /-- ARG0 (10_state R25). -/
  arg0 : Word
  /-- RESULT (10_state R26). -/
  result : Word
  /-- STATUS.LAST_CAUSE, `none` for 0x00 (10_state R24). -/
  lastCause : Option Cause
  bw : Writer
  br : Reader
  crcx : CrcUnit
  enc : Encoder
  dec : Decoder
  /-- The model's own: a DEC_READ is in progress (log 2). False between commands. -/
  reading : Bool
  /-- The model's own: the host accesses still to come, oldest first (20_memory R72, log 3). -/
  host : List HostAccess
  /-- The model's own: the values the host has read, oldest first (30_encoding R104, log 3). -/
  observed : List Word
  /-- The parameter SORT_FAULT (00_scope R5): the blocks for which it is true (log 5). -/
  sortFaults : List (List Byte)
  deriving DecidableEq, Repr

/-- Why the machine stops. None of these is an outcome the spec gives the hardware: each is a stop of the
model where the spec says nothing can happen, and none is reached from a state that meets `State.Inv`. -/
inductive Fault where
  /-- A value the spec says is `none` was needed: block state outside DecodingBlock, scratch between commands
  (93 Part 1 row 9, treatment `fault`). Raised by the delivery of a block byte, by the opening of a block for delivery
  and by the emission of an encoder block. Safe: the spec says no rule reads it. -/
  | readOfNone
  /-- A wire element was executed where the decoder does not stand at that element. Raised by the wire elements'
  meanings and by the micro-step of DEC_READ in a state that reads nothing. Safe: an element exists only where
  the decoder parses it (log 1). -/
  | elementOutOfPlace
  /-- The bound on DEC_READ's loop ran out. Raised by DEC_READ. Safe: 45 R282 says the loop ends (log 14). -/
  | loopBound
  deriving DecidableEq, Repr

/-- Why the model gives no meaning. -/
inductive Refusal where
  /-- An instruction with no meaning yet, by its mnemonic: raised by no arm of `exec`. Safe. -/
  | notModelled (mnemonic : String)
  /-- A register access that is not an aligned 32-bit access (10_state R30, 93 Part 1 row 8, treatment
  `refuse`). Raised by the host port. Safe: the spec says the model refuses it. -/
  | accessWidth
  deriving DecidableEq, Repr

/-- What a procedure inside one command gives: it is done, or it raised a cause and left the state as it was
at the failing step (60_exceptions R343), or the model stops. -/
inductive Run (α : Type) where
  | done (a : α) (s : State)
  | raised (c : Cause) (s : State)
  | broke (f : Fault)
  deriving Repr

/-- Writer after power-on (70 R371, R372). -/
def Writer.reset : Writer := { acc := [], sink := [], count := 0 }

/-- Reader after power-on, with the empty source (70 R371, R372; log 7). -/
def Reader.reset : Reader := { acc := [], src := [], pos := 0, count := 0 }

/-- `crcx` after reset (70 R372). -/
def CrcUnit.reset : CrcUnit := { reg := 0xFFFFFFFF, comb := 0 }

/-- `enc` after reset (70 R372). -/
def Encoder.reset : Encoder :=
  { state := .idle, k := 0, cur := none, run := 0, block := [], crc := 0xFFFFFFFF, comb := 0,
    blocks := 0, rand := false, cause := none, scratch := none }

/-- `dec` after reset (70 R372). -/
def Decoder.reset : Decoder :=
  { state := .idle, k := 0, comb := 0, blocks := 0, cause := none, stored := 0, crc := 0xFFFFFFFF,
    rand := false, blk := none, scratch := none }

/-- The machine right after power-on reset (70 R371, R372): every register 0, both units Idle, the sink
empty, no host access pending. -/
def State.reset : State :=
  { arg0 := 0, result := 0, lastCause := none, bw := Writer.reset, br := Reader.reset,
    crcx := CrcUnit.reset, enc := Encoder.reset, dec := Decoder.reset, reading := false, host := [],
    observed := [], sortFaults := [] }

end Sys2Proof.Machine
end

