-- ==== Sys2Proof/Machine/Flags.lean ====
section
/-! DEFINITION. The cause codes, and the STATUS and INFO words (10_state R24, R29, R39; 60_exceptions
R340, R341). -/

namespace Sys2Proof.Machine

/-- The 8-bit code of a cause (60_exceptions R341). -/
def causeCode : Cause → BitVec 8
  | .illegalCommand => 0x01
  | .commandStateError => 0x02
  | .badOperand => 0x03
  | .badStreamMagic => 0x10
  | .badBlockSizeDigit => 0x11
  | .badBlockMagic => 0x12
  | .noSymbolsInUse => 0x13
  | .badGroupCount => 0x14
  | .badSelectorCount => 0x15
  | .badSelector => 0x16
  | .badCodeLength => 0x17
  | .selectorsExhausted => 0x18
  | .codeTooLong => 0x20
  | .symbolOutOfRange => 0x21
  | .blockOverflow => 0x22
  | .badOrigPtr => 0x23
  | .blockCrcMismatch => 0x30
  | .streamCrcMismatch => 0x31
  | .unexpectedEndOfInput => 0x40
  | .badBlockSize => 0x50
  | .sortStackOverflow => 0x51

/-- The class of a cause (60_exceptions R341). -/
def causeClass : Cause → CauseClass
  | .illegalCommand => .command
  | .commandStateError => .command
  | .badOperand => .command
  | .badStreamMagic => .formatError
  | .badBlockSizeDigit => .formatError
  | .badBlockMagic => .formatError
  | .noSymbolsInUse => .formatError
  | .badGroupCount => .formatError
  | .badSelectorCount => .formatError
  | .badSelector => .alphabetRangeError
  | .badCodeLength => .formatError
  | .selectorsExhausted => .formatError
  | .codeTooLong => .alphabetRangeError
  | .symbolOutOfRange => .alphabetRangeError
  | .blockOverflow => .alphabetRangeError
  | .badOrigPtr => .formatError
  | .blockCrcMismatch => .integrityError
  | .streamCrcMismatch => .integrityError
  | .unexpectedEndOfInput => .unexpectedEndOfInput
  | .badBlockSize => .configurationError
  | .sortStackOverflow => .internalError

/-- The code of a cause field: 0x00 where there is none (60_exceptions R341). -/
def causeField : Option Cause → BitVec 8
  | none => 0x00
  | some c => causeCode c

/-- STATUS.DEC_STATE (10_state R24). -/
def decStateCode : DecState → BitVec 3
  | .idle => 0
  | .expectStreamHeader => 1
  | .expectBlockHeader => 2
  | .decodingBlock => 3
  | .expectStreamTrailer => 4
  | .done => 5
  | .faulted => 6

/-- STATUS.ENC_STATE (10_state R24). -/
def encStateCode : EncState → BitVec 2
  | .idle => 0
  | .opened => 1
  | .closed => 2
  | .faulted => 3

/-- STATUS.ERR: 1 iff LAST_CAUSE is not 0 (10_state R24). -/
def errBit (s : State) : Bool := causeField s.lastCause ≠ 0

/-- STATUS, from ERR in bit 31 down to LAST_CAUSE in bits 7:0 (10_state R24). -/
def statusWord (s : State) : Word :=
  BitVec.ofBool (errBit s) ++ BitVec.ofBool s.dec.rand ++ BitVec.ofBool s.enc.rand
    ++ encStateCode s.enc.state ++ decStateCode s.dec.state ++ causeField s.dec.cause
    ++ causeField s.enc.cause ++ causeField s.lastCause

/-- INFO: `br.nbits` in bits 20:16, `bw.nbits` in bits 10:8, `dec.k` in bits 7:4, `enc.k` in bits 3:0, every
other bit 0 (10_state R29). -/
def infoWord (s : State) : Word :=
  (0 : BitVec 11) ++ BitVec.ofNat 5 s.br.acc.length ++ (0 : BitVec 5)
    ++ BitVec.ofNat 3 s.bw.acc.length ++ BitVec.ofNat 4 s.dec.k ++ BitVec.ofNat 4 s.enc.k

end Sys2Proof.Machine
end

