-- ==== Sys2Proof/Machine/Operands.lean ====
section
/-! DEFINITION. The register window as the host reads it (10_state R22..R30). -/

namespace Sys2Proof.Machine

/-- The host-visible registers (10_state R22). -/
inductive HostReg where
  | cmd
  | status
  | arg0
  | result
  | encCrc
  | encComb
  | decCrc
  | decComb
  | decStored
  | crcx
  | crcxComb
  | encBlocks
  | decBlocks
  | sinkCount
  | srcCount
  | info
  deriving DecidableEq, Repr

/-- The register at a byte offset of the window; `none` for an unmapped offset (10_state R22). -/
def regAt (offset : Nat) : Option HostReg :=
  if offset = 0x00 then some .cmd
  else if offset = 0x04 then some .status
  else if offset = 0x08 then some .arg0
  else if offset = 0x0C then some .result
  else if offset = 0x10 then some .encCrc
  else if offset = 0x14 then some .encComb
  else if offset = 0x18 then some .decCrc
  else if offset = 0x1C then some .decComb
  else if offset = 0x20 then some .decStored
  else if offset = 0x24 then some .crcx
  else if offset = 0x28 then some .crcxComb
  else if offset = 0x2C then some .encBlocks
  else if offset = 0x30 then some .decBlocks
  else if offset = 0x34 then some .sinkCount
  else if offset = 0x38 then some .srcCount
  else if offset = 0x3C then some .info
  else none

/-- The value a register reads as (10_state R22..R29). CMD reads 0 (R23). -/
def readReg (s : State) : HostReg → Word
  | .cmd => 0
  | .status => statusWord s
  | .arg0 => s.arg0
  | .result => s.result
  | .encCrc => crcValue s.enc.crc
  | .encComb => s.enc.comb
  | .decCrc => crcValue s.dec.crc
  | .decComb => s.dec.comb
  | .decStored => s.dec.stored
  | .crcx => crcValue s.crcx.reg
  | .crcxComb => s.crcx.comb
  | .encBlocks => BitVec.ofNat 32 s.enc.blocks
  | .decBlocks => BitVec.ofNat 32 s.dec.blocks
  | .sinkCount => BitVec.ofNat 32 s.bw.count
  | .srcCount => BitVec.ofNat 32 s.br.count
  | .info => infoWord s

/-- The value a read of an aligned offset returns: 0 where nothing is mapped (10_state R30). -/
def readOffset (s : State) (offset : Nat) : Word :=
  match regAt offset with
  | some r => readReg s r
  | none => 0

/-- The operand `x[ARG0]` of BW_WRITEBITS and CRC_COMBINE (30_encoding R101). -/
def argOperand (s : State) : Word := s.arg0

/-- `x[RESULT] <- v`. -/
def setResult (v : Word) (s : State) : State := { s with result := v }

end Sys2Proof.Machine
end

