-- ==== Sys2Proof/WellFormed.lean ====
section
/-! DEFINITION. Which instructions have operands the spec calls legal: the operand ranges of
30_encoding R101 for commands, and of R81..R89 and R92 for wire elements. An instruction that is not
well-formed still runs: it raises the cause R92 or R102 names. -/

namespace Sys2Proof

/-- The operand ranges, constructor by constructor. -/
def Instr.wellFormed : Instr → Bool
  | .nop => true
  | .reset => true
  | .bwWriteBits n => decide (n.toNat ≤ 32)
  | .bwFinish => true
  | .brReadBits n => decide (n.toNat ≤ 32)
  | .crcReset => true
  | .crcUpdate _ => true
  | .crcValue => true
  | .crcCombReset => true
  | .crcCombine => true
  | .encInit k => decide (1 ≤ k.toNat) && decide (k.toNat ≤ 9)
  | .encWrite _ => true
  | .encClose => true
  | .decInit => true
  | .decRead => true
  | .streamHeader k => decide (1 ≤ k.toNat) && decide (k.toNat ≤ 9)
  | .blockMagic => true
  | .blockCrc _ => true
  | .rand _ => true
  | .origPtr p => decide (p.toNat < 900000)
  | .inUse16 g => decide (g ≠ 0)
  | .inUseWord _ => true
  | .nGroups n => decide (2 ≤ n.toNat) && decide (n.toNat ≤ 6)
  | .nSelectors n => decide (1 ≤ n.toNat) && decide (n.toNat ≤ 18002)
  | .selectorMtf j => decide (j < 6)
  | .lenStart l => decide (1 ≤ l.toNat) && decide (l.toNat ≤ 20)
  | .lenInc => true
  | .lenDec => true
  | .lenStop => true
  | .huffSymbol v => decide (v < 258)
  | .eosMagic => true
  | .combinedCrc _ => true
  | .pad z => decide (z < 8)

/-- Whether the instruction is a command word the host writes to CMD (30_encoding Part B), not a wire
element (Part A). -/
def Instr.isCommand : Instr → Bool
  | .nop => true
  | .reset => true
  | .bwWriteBits _ => true
  | .bwFinish => true
  | .brReadBits _ => true
  | .crcReset => true
  | .crcUpdate _ => true
  | .crcValue => true
  | .crcCombReset => true
  | .crcCombine => true
  | .encInit _ => true
  | .encWrite _ => true
  | .encClose => true
  | .decInit => true
  | .decRead => true
  | .streamHeader _ => false
  | .blockMagic => false
  | .blockCrc _ => false
  | .rand _ => false
  | .origPtr _ => false
  | .inUse16 _ => false
  | .inUseWord _ => false
  | .nGroups _ => false
  | .nSelectors _ => false
  | .selectorMtf _ => false
  | .lenStart _ => false
  | .lenInc => false
  | .lenDec => false
  | .lenStop => false
  | .huffSymbol _ => false
  | .eosMagic => false
  | .combinedCrc _ => false
  | .pad _ => false

end Sys2Proof
end

