-- ==== Sys2Proof/Decode.lean ====
section
/-! DEFINITION. Decoding and encoding. A command word is decoded from its 32 bits (30_encoding R100..R103).
A wire element has no opcode: which element it is follows from where the decoder stands in the stream
(30_encoding R80), so this file only turns the value of a field of known place into its element; the reads are
in Machine/Fetch.lean. The encoder gives the
bits of every instruction, first bit on the wire first (20_memory R63). -/

namespace Sys2Proof

/-! ## Bits and values -/

/-- The low `n` bits of `v`, most significant first: the field's bits in wire order (20_memory R63). -/
def bitsOf : Nat → Nat → List Bool
  | 0, _ => []
  | n + 1, v => v.testBit n :: bitsOf n v

/-- The value of a bit string read most significant bit first (20_memory R64). -/
def valueOf (bs : List Bool) : Nat :=
  bs.foldl (fun acc b => 2 * acc + b.toNat) 0

/-! ## Command words -/

/-- The opcode field `OP` (30_encoding R100). -/
def opField (w : Word) : BitVec 8 := w.extractLsb' 24 8

/-- The operand field `F` (30_encoding R100). -/
def fField (w : Word) : BitVec 8 := w.extractLsb' 16 8

/-- The reserved field `Z`, which must be 0 (30_encoding R100). -/
def zField (w : Word) : BitVec 16 := w.extractLsb' 0 16

/-- Checks 2 and 3 of 30_encoding R102 for an opcode that takes no operand. -/
def plainCommand (i : Instr) (w : Word) : Except Cause Instr :=
  if zField w = 0 then if fField w = 0 then .ok i else .error .illegalCommand else .error .illegalCommand

/-- Check 2 of 30_encoding R102 for an opcode whose `F` is an operand. -/
def operandCommand (i : BitVec 8 → Instr) (w : Word) : Except Cause Instr :=
  if zField w = 0 then .ok (i (fField w)) else .error .illegalCommand

/-- The command a word stands for, or the cause of the decode checks 1 to 3 (30_encoding R101, R102).
Checks 4 and 5 concern an operand's range and belong to the commands (40_bitio R125, R127, 44 R251). -/
def decodeCmd (w : Word) : Except Cause Instr :=
  match (opField w).toNat with
  | 0x00 => plainCommand .nop w
  | 0x01 => plainCommand .reset w
  | 0x10 => operandCommand .bwWriteBits w
  | 0x11 => plainCommand .bwFinish w
  | 0x18 => operandCommand .brReadBits w
  | 0x20 => plainCommand .crcReset w
  | 0x21 => operandCommand .crcUpdate w
  | 0x22 => plainCommand .crcValue w
  | 0x23 => plainCommand .crcCombReset w
  | 0x24 => plainCommand .crcCombine w
  | 0x30 => operandCommand .encInit w
  | 0x31 => operandCommand .encWrite w
  | 0x32 => plainCommand .encClose w
  | 0x38 => plainCommand .decInit w
  | 0x39 => plainCommand .decRead w
  | _ => .error .illegalCommand

/-! ## Wire elements of fixed width -/

/-- BLOCK_CRC of a 32-bit field value (30_encoding R82). -/
def blockCrcField (v : Nat) : Instr := .blockCrc (BitVec.ofNat 32 v)

/-- RAND of a 1-bit field value (30_encoding R82). -/
def randField (v : Nat) : Instr := .rand (v.testBit 0)

/-- ORIGPTR of a 24-bit field value (30_encoding R82). -/
def origPtrField (v : Nat) : Instr := .origPtr (BitVec.ofNat 24 v)

/-- INUSE16 of a 16-bit field value (30_encoding R83). -/
def inUse16Field (v : Nat) : Instr := .inUse16 (BitVec.ofNat 16 v)

/-- INUSE_WORD of a 16-bit field value (30_encoding R83). -/
def inUseWordField (v : Nat) : Instr := .inUseWord (BitVec.ofNat 16 v)

/-- NGROUPS of a 3-bit field value (30_encoding R84). -/
def nGroupsField (v : Nat) : Instr := .nGroups (BitVec.ofNat 3 v)

/-- NSELECTORS of a 15-bit field value (30_encoding R84). -/
def nSelectorsField (v : Nat) : Instr := .nSelectors (BitVec.ofNat 15 v)

/-- LEN_START of a 5-bit field value (30_encoding R86). -/
def lenStartField (v : Nat) : Instr := .lenStart (BitVec.ofNat 5 v)

/-- COMBINED_CRC of a 32-bit field value (30_encoding R88). -/
def combinedCrcField (v : Nat) : Instr := .combinedCrc (BitVec.ofNat 32 v)

/-- STREAM_HEADER of its digit byte, less the digit's fixed upper half (30_encoding R81). -/
def streamHeaderField (v : Nat) : Instr := .streamHeader (BitVec.ofNat 4 v)

/-! ## The encoder -/

/-- The opcode of a command (30_encoding R101); `none` for a wire element. -/
def opcodeOf : Instr → Option (BitVec 8)
  | .nop => some 0x00
  | .reset => some 0x01
  | .bwWriteBits _ => some 0x10
  | .bwFinish => some 0x11
  | .brReadBits _ => some 0x18
  | .crcReset => some 0x20
  | .crcUpdate _ => some 0x21
  | .crcValue => some 0x22
  | .crcCombReset => some 0x23
  | .crcCombine => some 0x24
  | .encInit _ => some 0x30
  | .encWrite _ => some 0x31
  | .encClose => some 0x32
  | .decInit => some 0x38
  | .decRead => some 0x39
  | .streamHeader _ | .blockMagic | .blockCrc _ | .rand _ | .origPtr _ | .inUse16 _ | .inUseWord _
  | .nGroups _ | .nSelectors _ | .selectorMtf _ | .lenStart _ | .lenInc | .lenDec | .lenStop
  | .huffSymbol _ | .eosMagic | .combinedCrc _ | .pad _ => none

/-- The `F` operand of a command, 0 where it takes none (30_encoding R101). -/
def operandOf : Instr → BitVec 8
  | .bwWriteBits n | .brReadBits n => n
  | .crcUpdate b | .encWrite b => b
  | .encInit k => k
  | .nop | .reset | .bwFinish | .crcReset | .crcValue | .crcCombReset | .crcCombine | .encClose
  | .decInit | .decRead | .streamHeader _ | .blockMagic | .blockCrc _ | .rand _ | .origPtr _
  | .inUse16 _ | .inUseWord _ | .nGroups _ | .nSelectors _ | .selectorMtf _ | .lenStart _ | .lenInc
  | .lenDec | .lenStop | .huffSymbol _ | .eosMagic | .combinedCrc _ | .pad _ => 0

/-- The command word `(OP << 24) | (F << 16)` (30_encoding R100, R104). -/
def encodeCmd (i : Instr) : Option Word :=
  (opcodeOf i).map fun op => op ++ operandOf i ++ (0 : BitVec 16)

/-- A code book: the code bits of each symbol under one Huffman table (30_encoding R87). -/
abbrev CodeBook := Nat → List Bool

/-- The bits of an instruction, first on the wire first. A command is one 32-bit write to CMD; a wire element
has the bits of 30_encoding R81..R89. `book` gives the code of a symbol and is read for HUFF_SYMBOL only. -/
def encode (book : CodeBook) : Instr → List Bool
  | .nop => bitsOf 32 0x00000000
  | .reset => bitsOf 32 0x01000000
  | .bwWriteBits n => bitsOf 32 (0x10000000 + n.toNat * 0x10000)
  | .bwFinish => bitsOf 32 0x11000000
  | .brReadBits n => bitsOf 32 (0x18000000 + n.toNat * 0x10000)
  | .crcReset => bitsOf 32 0x20000000
  | .crcUpdate b => bitsOf 32 (0x21000000 + b.toNat * 0x10000)
  | .crcValue => bitsOf 32 0x22000000
  | .crcCombReset => bitsOf 32 0x23000000
  | .crcCombine => bitsOf 32 0x24000000
  | .encInit k => bitsOf 32 (0x30000000 + k.toNat * 0x10000)
  | .encWrite b => bitsOf 32 (0x31000000 + b.toNat * 0x10000)
  | .encClose => bitsOf 32 0x32000000
  | .decInit => bitsOf 32 0x38000000
  | .decRead => bitsOf 32 0x39000000
  | .streamHeader k => bitsOf 8 0x42 ++ bitsOf 8 0x5A ++ bitsOf 8 0x68 ++ bitsOf 8 (0x30 + k.toNat)
  | .blockMagic => bitsOf 24 0x314159 ++ bitsOf 24 0x265359
  | .blockCrc c => bitsOf 32 c.toNat
  | .rand r => [r]
  | .origPtr p => bitsOf 24 p.toNat
  | .inUse16 g => bitsOf 16 g.toNat
  | .inUseWord u => bitsOf 16 u.toNat
  | .nGroups n => bitsOf 3 n.toNat
  | .nSelectors n => bitsOf 15 n.toNat
  | .selectorMtf j => List.replicate j true ++ [false]
  | .lenStart l => bitsOf 5 l.toNat
  | .lenInc => [true, false]
  | .lenDec => [true, true]
  | .lenStop => [false]
  | .huffSymbol v => book v
  | .eosMagic => bitsOf 24 0x177245 ++ bitsOf 24 0x385090
  | .combinedCrc c => bitsOf 32 c.toNat
  | .pad z => List.replicate z false

/-- The code book of a place where no symbol stands. -/
def noCodes : CodeBook := fun _ => []

/-! ## Words as the opcode table numbers them -/

/-- A wire row of at most 8 bits. The table's short rows overlap (a 0 may be LEN_STOP, RAND, NGROUPS, …)
and only the decoder's place tells them apart. DESIGN CHOICE, safe (log 11): a value is read as the first of
LEN_STOP, RAND, LEN_INC, LEN_DEC, NGROUPS, LEN_START it can be. -/
def decodeTableByte (w : Nat) : Option Instr :=
  if w = 0 then some .lenStop
  else if w = 1 then some (randField w)
  else if w = 2 then some .lenInc
  else if w = 3 then some .lenDec
  else if w < 8 then some (nGroupsField w)
  else if w < 32 then some (lenStartField w)
  else none

/-- The instruction a row's word stands for (log 11). A 32-bit word is a command word; a word of STREAM_HEADER's
pattern is no command word (its OP is 0x42) and is read as that row. BLOCK_CRC and COMBINED_CRC take every
32-bit value and INUSE_WORD and NSELECTORS share INUSE16's length, so no word alone tells them apart. -/
def decodeTableWord (nbits w : Nat) : Option Instr :=
  if nbits = 32 then
    if w / 16 = 0x425A683 then some (streamHeaderField (w % 16))
    else if w < 2 ^ 32 then
      match decodeCmd (BitVec.ofNat 32 w) with
      | .ok i => some i
      | .error _ => none
    else none
  else if nbits = 48 then
    if w = 0x314159265359 then some .blockMagic
    else if w = 0x177245385090 then some .eosMagic
    else none
  else if nbits = 24 then if w < 2 ^ 24 then some (origPtrField w) else none
  else if nbits = 16 then if w < 2 ^ 16 then some (inUse16Field w) else none
  else if nbits = 8 then decodeTableByte w
  else none

end Sys2Proof
end

