-- ==== Sys2Proof/Machine/Ops.lean ====
section
/-! DEFINITION. The named operations over the two bit streams (40_bitio R120..R124) and the one operation
that records a cause (60_exceptions R343), which is all that taking an exception is on this hardware
(R346: nothing is saved, no mode changes, control goes nowhere; R347: there is no return). -/

namespace Sys2Proof.Machine

/-! ## Procedures inside a command -/

/-- Go on after a procedure that is done; a cause or a fault ends the command's pseudocode. -/
def Run.andThen {α β : Type} (x : Run α) (f : α → State → Run β) : Run β :=
  match x with
  | .done a s => f a s
  | .raised c s => .raised c s
  | .broke e => .broke e

/-! ## Recording (60_exceptions R343) -/

/-- RESULT after a command that raises a cause (10_state R26). -/
def causeResult : Word := 0xFFFFFFFE

/-- RESULT of DEC_READ at end of stream (10_state R26). -/
def endResult : Word := 0xFFFFFFFF

/-- A command succeeded: LAST_CAUSE and ERR are cleared, RESULT is left to the command. -/
def succeed (s : State) : State := { s with lastCause := none }

/-- A command ended with cause `c`: LAST_CAUSE is `c`, ERR follows, RESULT is 0xFFFFFFFE. `none` stands for a
sticky cause that is not there, which no run reaches (log 20). -/
def recordCause (c : Option Cause) (s : State) : State := { s with lastCause := c, result := causeResult }

/-- A cause of the decode or state checks: it is recorded and nothing else happens. -/
def reject (c : Cause) (s : State) : Host.Outcome State Fault Refusal := .next (recordCause (some c) s)

/-- A fault inside ENC_WRITE or ENC_CLOSE (44_stream_encoder R258). The scratch dies with the command. -/
def encFault (c : Cause) (s : State) : State :=
  recordCause (some c)
    { s with enc := { s.enc with state := .faulted, cause := some c, scratch := none } }

/-- A fault inside DEC_READ (45_stream_decoder R299). Block state and scratch are `none` outside a block. -/
def decFault (c : Cause) (s : State) : State :=
  recordCause (some c)
    { s with
      dec := { s.dec with state := .faulted, cause := some c, blk := none, scratch := none }
      reading := false }

/-- The end of ENC_WRITE or ENC_CLOSE. -/
def finishEnc (x : Run Unit) : Host.Outcome State Fault Refusal :=
  match x with
  | .done _ s => .next (succeed s)
  | .raised c s => .next (encFault c s)
  | .broke f => .fault f

/-! ## The bit writer -/

/-- Append one bit; the eighth completes a byte, which is pushed at once (40_bitio R120, R121, 20_memory
R62, R74). -/
def writeBit (w : Writer) (b : Bool) : Writer :=
  if w.acc.length = 7 then
    { acc := [], sink := w.sink ++ [BitVec.ofNat 8 (valueOf (w.acc ++ [b]))], count := w.count + 1 }
  else { w with acc := w.acc ++ [b] }

/-- Append a bit string. -/
def writeBitList (bs : List Bool) (w : Writer) : Writer := bs.foldl writeBit w

/-- `WriteBits(n, v)` (40_bitio R120). -/
def writeBits (n v : Nat) (w : Writer) : Writer := writeBitList (bitsOf n v) w

/-- Append the bits of a wire element that needs no code book. -/
def writeElement (i : Instr) (w : Writer) : Writer := writeBitList (encode noCodes i) w

/-- `Finish()` (40_bitio R122): the pad bits to the next byte boundary, none if there is no partial byte. -/
def writeFinish (w : Writer) : Writer :=
  if w.acc.length = 0 then w else writeElement (.pad (8 - w.acc.length)) w

/-- Every bit written, oldest first: the sink's bytes, then the accumulator (20_memory R63). -/
def Writer.bits (w : Writer) : List Bool := (w.sink.flatMap fun b => bitsOf 8 b.toNat) ++ w.acc

/-! ## The bit reader -/

/-- The answer of something that reads the source: a value or a cause, and the reader after it. -/
abbrev Fetched (α : Type) := Except Cause α × Reader

/-- Go on after a successful read. -/
def Fetched.andThen {α β : Type} (x : Fetched α) (f : α → Reader → Fetched β) : Fetched β :=
  match x with
  | (.ok a, r) => f a r
  | (.error c, r) => (.error c, r)

/-- `SrcRead()` (20_memory R61): the next byte, or `none` for EOF. -/
def srcRead (r : Reader) : Option Byte × Reader :=
  match r.src[r.pos]? with
  | some b => (some b, { r with pos := r.pos + 1, count := r.count + 1 })
  | none => (none, r)

/-- The loop of `ReadBits` (40_bitio R123): pull bytes until `n` bits are there. False when the source ends
first. Every pull adds 8 bits, so `n` pulls are enough. -/
def fillBits : Nat → Nat → Reader → Bool × Reader
  | 0, n, r => (decide (n ≤ r.acc.length), r)
  | fuel + 1, n, r =>
    if n ≤ r.acc.length then (true, r)
    else
      match srcRead r with
      | (none, r) => (false, r)
      | (some b, r) => fillBits fuel n { r with acc := r.acc ++ bitsOf 8 b.toNat }

/-- `ReadBits(n)` (40_bitio R123, R124). On EOF the pulled bytes stay in the accumulator and no bit is
consumed. -/
def readBits (n : Nat) (r : Reader) : Fetched Nat :=
  match fillBits n n r with
  | (true, r) => (.ok (valueOf (r.acc.take n)), { r with acc := r.acc.drop n })
  | (false, r) => (.error .unexpectedEndOfInput, r)

/-- The bits the reader still has before it, consumed first (10_state R33): what is in the accumulator, then
the source from `src.pos`. -/
def Reader.bits (r : Reader) : List Bool :=
  r.acc ++ (r.src.drop r.pos).flatMap fun b => bitsOf 8 b.toNat

end Sys2Proof.Machine
end

