-- ==== Sys2Proof/Machine/BitIo.lean ====
section
/-! DEFINITION. BW_WRITEBITS, BW_FINISH and BR_READBITS (40_bitio R125..R127). -/

namespace Sys2Proof.Machine

/-- The decoder owns the reader while a stream is in progress (40_bitio R127). -/
def decoderOwnsReader (d : DecState) : Bool :=
  match d with
  | .expectStreamHeader => true
  | .expectBlockHeader => true
  | .decodingBlock => true
  | .expectStreamTrailer => true
  | .idle => false
  | .done => false
  | .faulted => false

/-- BW_WRITEBITS n (40_bitio R125): `n` bits of ARG0 go to the sink's bit stream. -/
def execBwWriteBits (n : BitVec 8) (s : State) : Host.Outcome State Fault Refusal :=
  if 32 < n.toNat then reject .badOperand s
  else if s.enc.state = .opened then reject .commandStateError s
  else .next (succeed { s with bw := writeBits n.toNat (argOperand s).toNat s.bw })

/-- BW_FINISH (40_bitio R126): flush the partial byte. -/
def execBwFinish (s : State) : Host.Outcome State Fault Refusal :=
  if s.enc.state = .opened then reject .commandStateError s
  else .next (succeed { s with bw := writeFinish s.bw })

/-- BR_READBITS n (40_bitio R127): `n` bits of the source into RESULT. On EOF the pulled bytes stay in the
accumulator and the decoder's state is unchanged. -/
def execBrReadBits (n : BitVec 8) (s : State) : Host.Outcome State Fault Refusal :=
  if 32 < n.toNat then reject .badOperand s
  else if decoderOwnsReader s.dec.state then reject .commandStateError s
  else
    match readBits n.toNat s.br with
    | (.ok v, r) => .next (succeed (setResult (BitVec.ofNat 32 v) { s with br := r }))
    | (.error c, r) => .next (recordCause (some c) { s with br := r })

end Sys2Proof.Machine
end

