-- ==== Sys2Proof/Machine/CrcCommands.lean ====
section
/-! DEFINITION. The commands on the standalone CRC unit (41_crc R148..R152). -/

namespace Sys2Proof.Machine

/-- CRC_RESET (41_crc R148). -/
def execCrcReset (s : State) : Host.Outcome State Fault Refusal :=
  .next (succeed { s with crcx := { s.crcx with reg := crcSeed } })

/-- CRC_UPDATE b (41_crc R149). -/
def execCrcUpdate (b : Byte) (s : State) : Host.Outcome State Fault Refusal :=
  .next (succeed { s with crcx := { s.crcx with reg := crcUpdate s.crcx.reg b } })

/-- CRC_VALUE (41_crc R150). -/
def execCrcValue (s : State) : Host.Outcome State Fault Refusal :=
  .next (succeed (setResult (crcValue s.crcx.reg) s))

/-- CRC_COMB_RESET (41_crc R151). -/
def execCrcCombReset (s : State) : Host.Outcome State Fault Refusal :=
  .next (succeed { s with crcx := { s.crcx with comb := 0 } })

/-- CRC_COMBINE (41_crc R152): ARG0 is folded into the combined register, which RESULT then shows. -/
def execCrcCombine (s : State) : Host.Outcome State Fault Refusal :=
  .next (succeed (setResult (crcCombine s.crcx.comb (argOperand s))
    { s with crcx := { s.crcx with comb := crcCombine s.crcx.comb (argOperand s) } }))

end Sys2Proof.Machine
end

