-- ==== Sys2Proof/Config.lean ====
section
/-! DEFINITION. The parameters of 00_scope R5 that the spec leaves OPEN and gives no default: constants
with no body, so that no proof can lean on a value. (The block size is an operand of ENC_INIT; the source
and the SORT_FAULT parameter are plain data in State.) -/

namespace Sys2Proof.Config

/-- `RANDOMISE(B)` of 00_scope R5 and 42_block_encoder R166 for blocks longer than 4000 bytes: whether the
sort's work limit was exceeded. OPEN. DESIGN CHOICE, safe (log 4): a free value of the block. -/
opaque randomiseLong : List Byte → Bool

/-- `WORK_FACTOR` of 00_scope R5 (92 D43): "informative only"; no rule reads it (log 6). -/
opaque workFactor : Nat

/-- `CORE_BASE` of 20_memory R68 (92 D42): the platform's base address of the register window; every rule
speaks of offsets within the window, so nothing in the machine reads it (log 6). -/
opaque coreBase : Nat

end Sys2Proof.Config
end

