-- ==== Sys2Proof/Machine/Fetch.lean ====
section
/-! DEFINITION. Fetching the next wire element: the reads and format checks of the decoder's parse rules
(43_huffman R220..R228, 45_stream_decoder R282..R285, R297), each field checked as soon as it is read
(60_exceptions R344). What an element then does is in Wire.lean. -/

namespace Sys2Proof.Machine

/-- A read that must give one value, else a cause (45 R283: each header byte is checked as it is read). -/
def expectByte (want : Nat) (c : Cause) (r : Reader) : Fetched Unit :=
  (readBits 8 r).andThen fun v r => if v = want then (.ok (), r) else (.error c, r)

/-- STREAM_HEADER (45 R283). A digit byte outside 0x30..0x3F is no STREAM_HEADER pattern; digits 0x30 and
0x3A..0x3F are refused when the element is run, with the same cause. -/
def fetchHeader (r : Reader) : Fetched Instr :=
  (expectByte 0x42 .badStreamMagic r).andThen fun _ r =>
    (expectByte 0x5A .badStreamMagic r).andThen fun _ r =>
      (expectByte 0x68 .badStreamMagic r).andThen fun _ r =>
        (readBits 8 r).andThen fun d r =>
          if 0x30 ≤ d ∧ d ≤ 0x3F then (.ok (streamHeaderField (d - 0x30)), r)
          else (.error .badBlockSizeDigit, r)

/-- BLOCK_MAGIC or EOS_MAGIC: all 48 bits, as two 24-bit reads (45 R282, R285). -/
def fetchMagic (r : Reader) : Fetched Instr :=
  (readBits 24 r).andThen fun hi r =>
    (readBits 24 r).andThen fun lo r =>
      if hi * 2 ^ 24 + lo = 0x314159265359 then (.ok .blockMagic, r)
      else if hi * 2 ^ 24 + lo = 0x177245385090 then (.ok .eosMagic, r)
      else (.error .badBlockMagic, r)

/-- COMBINED_CRC (45 R297). -/
def fetchTrailer (r : Reader) : Fetched Instr :=
  (readBits 32 r).andThen fun v r => (.ok (combinedCrcField v), r)

/-- SELECTOR_MTF (43 R223): one-bits up to a zero. `fuel` is how many more one-bits are legal; the one that makes
the value reach `nGroups` fails at once. -/
def fetchUnary : Nat → Nat → Reader → Fetched Instr
  | 0, _, r => (.error .badSelector, r)
  | fuel + 1, j, r =>
    (readBits 1 r).andThen fun b r => if b = 0 then (.ok (.selectorMtf j), r) else fetchUnary fuel (j + 1) r

/-- LEN_INC, LEN_DEC or LEN_STOP (43 R225, 30_encoding R86). -/
def fetchAdjust (r : Reader) : Fetched Instr :=
  (readBits 1 r).andThen fun b r =>
    if b = 0 then (.ok .lenStop, r)
    else (readBits 1 r).andThen fun b r => if b = 0 then (.ok .lenInc, r) else (.ok .lenDec, r)

/-- The last lines of `DecodeSymbol` (43 R227): the symbol of an index. `perm` has one entry for every symbol, so
an index with no entry is one outside the alphabet. -/
def symbolAt (t : DecTable) (zn zvec : Nat) (r : Reader) : Fetched Instr :=
  let idx : Int := zvec - t.base.getD zn 0
  if idx < 0 then (.error .symbolOutOfRange, r)
  else
    match t.perm[idx.toNat]? with
    | some v => (.ok (.huffSymbol v), r)
    | none => (.error .symbolOutOfRange, r)

/-- The loop of `DecodeSymbol` (43 R227). A code is at most 20 bits long, so 21 turns are enough. -/
def extendCode (t : DecTable) : Nat → Nat → Nat → Reader → Fetched Instr
  | 0, _, _, r => (.error .codeTooLong, r)
  | fuel + 1, zn, zvec, r =>
    if t.limit.getD zn 0 < zvec then
      if maxCodeLen < zn + 1 then (.error .codeTooLong, r)
      else (readBits 1 r).andThen fun b r => extendCode t fuel (zn + 1) (2 * zvec + b) r
    else symbolAt t zn zvec r

/-- `DecodeSymbol(t)` (43 R227): HUFF_SYMBOL under one table. -/
def decodeSymbol (t : DecTable) (r : Reader) : Fetched Instr :=
  (readBits t.minLen r).andThen fun zvec r => extendCode t (maxCodeLen + 1) t.minLen zvec r

/-- Group advance (43 R228): the group the next symbol is in, and how many symbols of it are left before. -/
def nextGroup (sc : DecScratch) : Nat × Nat :=
  if sc.left = 0 then (sc.groupsUsed + 1, groupSize) else (sc.groupsUsed, sc.left)

/-- `NextSymbol()` (43 R228): the cause comes before any bit of the symbol is read. A selector names one of the
tables read before it (log 19). -/
def fetchSymbol (sc : DecScratch) (r : Reader) : Fetched Instr :=
  if sc.nSelectors < (nextGroup sc).1 then (.error .selectorsExhausted, r)
  else
    match sc.tables[sc.selector.getD ((nextGroup sc).1 - 1) 0]? with
    | some t => decodeSymbol t r
    | none => (.error .symbolOutOfRange, r)

/-- A field of fixed width `n`. -/
def fetchField (n : Nat) (f : Nat → Instr) (r : Reader) : Fetched Instr :=
  (readBits n r).andThen fun v r => (.ok (f v), r)

/-- The next element inside a block, with the field widths of 30_encoding R82..R86. -/
def fetchBlock (sc : DecScratch) (r : Reader) : Fetched Instr :=
  match sc.pos with
  | .blockCrc => fetchField 32 blockCrcField r
  | .rand => fetchField 1 randField r
  | .origPtr => fetchField 24 origPtrField r
  | .inUse16 => fetchField 16 inUse16Field r
  | .inUseWord => fetchField 16 inUseWordField r
  | .nGroups => fetchField 3 nGroupsField r
  | .nSelectors => fetchField 15 nSelectorsField r
  | .selector => fetchUnary sc.nGroups 0 r
  | .lenStart => fetchField 5 lenStartField r
  | .lenAdjust => fetchAdjust r
  | .symbol => fetchSymbol sc r

/-- The next wire element where the decoder stands (45 R282). A decoder that reads nothing stands at none. -/
def fetchElement (d : Decoder) (r : Reader) : Option (Fetched Instr) :=
  match d.state with
  | .expectStreamHeader => some (fetchHeader r)
  | .expectBlockHeader =>
    match d.scratch with
    | none => some (fetchMagic r)
    | some sc => some (fetchBlock sc r)
  | .expectStreamTrailer => some (fetchTrailer r)
  | .idle => none
  | .decodingBlock => none
  | .done => none
  | .faulted => none

end Sys2Proof.Machine
end

