-- ==== Sys2Proof/Machine/Block.lean ====
section
/-! DEFINITION. The block encoder's pure functions: run-length pre-pass, randomisation, Burrows-Wheeler
Transform, move-to-front with zero-run coding (42_block_encoder). -/

namespace Sys2Proof.Machine

/-! ## Run-length pre-pass -/

/-- `RunBytes(c, r)` (42 R162). -/
def runBytes (c : Byte) (r : Nat) : List Byte :=
  if r ≤ 3 then List.replicate r c else List.replicate 4 c ++ [BitVec.ofNat 8 (r - 4)]

/-! ## In-use set and randomisation -/

/-- The in-use byte values of a block, ascending (42 R165). -/
def inUseSet (block : List Byte) : List Byte :=
  ((List.range 256).map (BitVec.ofNat 8)).filter fun c => block.contains c

/-- One step of the randomiser's countdown (42 R168): the counters `rNToGo` and `rTPos` before the step give
the mask bit of the position and the counters after it. -/
def randStep (toGo tPos : Nat) : Bool × Nat × Nat :=
  let reload := toGo = 0
  let toGo := (if reload then rnums.getD tPos 0 else toGo) - 1
  let tPos := if reload then (tPos + 1) % 512 else tPos
  (decide (toGo = 1), toGo, tPos)

/-- A byte under a mask bit: only bit 0 is ever flipped (42 R169). -/
def maskByte (m : Bool) (b : Byte) : Byte := if m then b ^^^ 1 else b

/-- The bytes of a block under the masks that follow from the counters (42 R168, R169). -/
def maskFrom : Nat → Nat → List Byte → List Byte
  | _, _, [] => []
  | toGo, tPos, b :: bs =>
    let r := randStep toGo tPos
    maskByte r.1 b :: maskFrom r.2.1 r.2.2 bs

/-- `B'` (42 R169): the counters start at 0 for every block. -/
def maskBlock (rand : Bool) (block : List Byte) : List Byte :=
  if rand then maskFrom 0 0 block else block

/-! ## Burrows-Wheeler Transform -/

/-- The first `n` bytes of two sequences compared as unsigned values (42 R170, 00_scope R13). -/
def compareBytes : Nat → List Byte → List Byte → Ordering
  | n + 1, a :: as, b :: bs =>
    if a.toNat < b.toNat then .lt else if b.toNat < a.toNat then .gt else compareBytes n as bs
  | _, _, _ => .eq

/-- Rotation order with its tie rule: equal rotations are ordered by ascending offset (42 R170, R171). A
rotation is an offset with a sequence whose first `n` bytes are the rotation's. -/
def rotationLe (n : Nat) (x y : Nat × List Byte) : Bool :=
  match compareBytes n x.2 y.2 with
  | .lt => true
  | .gt => false
  | .eq => decide (x.1 ≤ y.1)

/-- Merge two ascending lists; on a tie the left one first. -/
def mergeFuel {α : Type} (le : α → α → Bool) : Nat → List α → List α → List α
  | 0, xs, ys => xs ++ ys
  | _ + 1, [], ys => ys
  | _ + 1, xs, [] => xs
  | fuel + 1, x :: xs, y :: ys =>
    if le x y then x :: mergeFuel le fuel xs (y :: ys) else y :: mergeFuel le fuel (x :: xs) ys

/-- Merge neighbouring lists. -/
def mergePairs {α : Type} (le : α → α → Bool) : List (List α) → List (List α)
  | a :: b :: rest => mergeFuel le (a.length + b.length) a b :: mergePairs le rest
  | rest => rest

/-- Merge neighbours until one list is left; every round at least halves how many there are. -/
def mergeAll {α : Type} (le : α → α → Bool) : Nat → List (List α) → List α
  | 0, ls => ls.flatten
  | _ + 1, [] => []
  | _ + 1, [l] => l
  | fuel + 1, ls => mergeAll le fuel (mergePairs le ls)

/-- A merge sort. Any algorithm that yields the order of 42 R171 will do (42 R173, 93 row 5; log 16). -/
def sortBy {α : Type} (le : α → α → Bool) (l : List α) : List α :=
  mergeAll le l.length (l.map fun x => [x])

/-- The rotations at offsets `z, z+1, …`, each as a suffix of the doubled block. -/
def rotationsFrom : Nat → Nat → List Byte → List (Nat × List Byte)
  | 0, _, _ => []
  | k + 1, z, bs => (z, bs) :: rotationsFrom k (z + 1) bs.tail

/-- `zptr` (42 R171): the rotation offsets in ascending order of their rotations. -/
def sortRotations (block : List Byte) : List Nat :=
  (sortBy (rotationLe block.length) (rotationsFrom block.length 0 (block ++ block))).map Prod.fst

/-- `L[i] = B'[(zptr[i] - 1) mod n]` (42 R172). -/
def lastColumn (block : List Byte) (zptr : List Nat) : List Byte :=
  zptr.map fun z => block.getD ((z + block.length - 1) % block.length) 0

/-- `origPtr`: the index of offset 0 in `zptr` (42 R172). -/
def findOrigPtr (zptr : List Nat) : Nat := zptr.idxOf 0

/-! ## Move-to-front and zero-run coding -/

/-- Move the element at a rank to the front (42 R176). -/
def moveToFront {α : Type} [Inhabited α] (l : List α) (j : Nat) : List α := l.getD j default :: l.eraseIdx j

/-- The loop of `EmitRun` (42 R178) on `z - 1`. Each turn leaves a smaller number, so `z` turns are enough. -/
def runDigits : Nat → Nat → List Nat
  | 0, _ => []
  | fuel + 1, z =>
    (if z % 2 = 1 then runB else runA) :: (if z < 2 then [] else runDigits fuel ((z - 2) / 2))

/-- `EmitRun(z)` (42 R178); a run of 0 emits nothing (42 R177). -/
def emitRun (z : Nat) : List Nat := if z = 0 then [] else runDigits z (z - 1)

/-- MTF and RLE2 of the bytes left, with the MTF list and the pending zero run: the symbols before EOB, and
the list at the end (42 R175..R180). -/
def mtfSymbols : List Byte → List Byte → Nat → List Nat × List Byte
  | [], list, zrun => (emitRun zrun, list)
  | c :: cs, list, zrun =>
    let j := list.idxOf c
    if j = 0 then mtfSymbols cs list (zrun + 1)
    else
      let r := mtfSymbols cs (moveToFront list j) 0
      (emitRun zrun ++ (j + 1) :: r.1, r.2)

/-- `EOB = nInUse + 1` (00_scope R8). -/
def eobOf (nInUse : Nat) : Nat := nInUse + 1

/-- `alphaSize = nInUse + 2` (00_scope R8). -/
def alphaSizeOf (nInUse : Nat) : Nat := nInUse + 2

/-- How often each symbol of the alphabet occurs (42 R181, 43 R205). -/
def symbolCounts (alphaSize : Nat) (syms : List Nat) : List Nat :=
  (List.range alphaSize).map fun v => syms.count v

end Sys2Proof.Machine
end

