-- ==== Sys2Proof/Machine/Huffman.lean ====
section
/-! DEFINITION. The encode side of the HuffmanTableBuilder (43_huffman R200..R211), and the canonical code that
encoder and decoder share (R211, R226). -/

namespace Sys2Proof.Machine

/-! ## Table count, groups, costs -/

/-- `nGroups` from `nMTF` (43 R201, 00_scope R9). -/
def tableCount (nMtf : Nat) : Nat :=
  if nMtf < 200 then 2 else if nMtf < 600 then 3 else if nMtf < 1200 then 4
  else if nMtf < 2400 then 5 else 6

/-- Cut a list into groups of `size`, the last possibly shorter; the list's length is fuel enough. -/
def chunksFuel {α : Type} (size : Nat) : Nat → List α → List (List α)
  | 0, _ => []
  | _ + 1, [] => []
  | fuel + 1, l => l.take size :: chunksFuel size fuel (l.drop size)

/-- The groups of the symbol stream (43 R204). -/
def groupsOf (syms : List Nat) : List (List Nat) := chunksFuel groupSize syms.length syms

/-! ## The initial partition (43 R202) -/

/-- The inner loop: grow the band while its frequency is short of `tFreq`. `next` is the pseudocode's `ge + 1`,
so that nothing is negative. The frequencies still ahead are given; their number is the loop's bound. -/
def growBand (tFreq : Nat) : List Nat → Nat → Nat → Nat × Nat
  | [], next, aFreq => (next, aFreq)
  | f :: fs, next, aFreq =>
    if aFreq < tFreq then growBand tFreq fs (next + 1) (aFreq + f) else (next, aFreq)

/-- The outer loop, from `nPart` down to 1: the tables in order, table 0 first. -/
def seedTables (freq : List Nat) (nGroups : Nat) : Nat → Nat → Nat → List (List Nat)
  | 0, _, _ => []
  | nPart + 1, gs, remF =>
    let grown := growBand (remF / (nPart + 1)) (freq.drop gs) gs 0
    let trim := grown.1 > gs + 1 ∧ nPart + 1 ≠ nGroups ∧ nPart + 1 ≠ 1 ∧ (nGroups - (nPart + 1)) % 2 = 1
    let next := if trim then grown.1 - 1 else grown.1
    let aFreq := if trim then grown.2 - freq.getD (grown.1 - 1) 0 else grown.2
    let table := (List.range freq.length).map fun v => if gs ≤ v ∧ v < next then 0 else 15
    seedTables freq nGroups nPart next (remF - aFreq) ++ [table]

/-! ## Code lengths (43 R207, R208) -/

/-- `UpHeap(z)` with `tmp` the node that rises. Every turn halves `z`. -/
def upHeap (weight : List Nat) (tmp : Nat) : Nat → Nat → List Nat → List Nat
  | 0, z, heap => heap.set z tmp
  | fuel + 1, z, heap =>
    let above := heap.getD (z / 2) 0
    if weight.getD tmp 0 < weight.getD above 0 then upHeap weight tmp fuel (z / 2) (heap.set z above)
    else heap.set z tmp

/-- `DownHeap(z)` with `tmp` the node that sinks. Every turn at least doubles `z`. -/
def downHeap (weight : List Nat) (nHeap tmp : Nat) : Nat → Nat → List Nat → List Nat
  | 0, z, heap => heap.set z tmp
  | fuel + 1, z, heap =>
    let y := 2 * z
    if nHeap < y then heap.set z tmp
    else
      let y :=
        if y < nHeap ∧ weight.getD (heap.getD (y + 1) 0) 0 < weight.getD (heap.getD y 0) 0 then y + 1
        else y
      if weight.getD tmp 0 < weight.getD (heap.getD y 0) 0 then heap.set z tmp
      else downHeap weight nHeap tmp fuel y (heap.set z (heap.getD y 0))

/-- The working arrays of one build (43 R207). `parent` is `none` where the pseudocode has a negative number. -/
structure HeapBuild where
  heap : List Nat
  nHeap : Nat
  weight : List Nat
  parent : List (Option Nat)
  nNodes : Nat
  deriving DecidableEq, Repr

/-- Put a node at the end of the heap and let it rise. -/
def pushNode (h : HeapBuild) (node : Nat) : HeapBuild :=
  let n := h.nHeap + 1
  { h with nHeap := n, heap := upHeap h.weight node n n (h.heap.set n node) }

/-- Take the lightest node off the heap. -/
def popNode (h : HeapBuild) : Nat × HeapBuild :=
  let top := h.heap.getD 1 0
  let moved := h.heap.getD h.nHeap 0
  let n := h.nHeap - 1
  (top, { h with nHeap := n, heap := downHeap h.weight n moved n 1 (h.heap.set 1 moved) })

/-- The weight of a node over two: frequencies add in the upper bits, the depth is in the low 8. -/
def joinWeight (w1 w2 : Nat) : Nat :=
  ((w1 &&& 0xFFFFFF00) + (w2 &&& 0xFFFFFF00)) ||| (1 + max (w1 &&& 0xFF) (w2 &&& 0xFF))

/-- One turn of the merge loop. -/
def joinTwo (h : HeapBuild) : HeapBuild :=
  let a := popNode h
  let b := popNode a.2
  let h := b.2
  let node := h.nNodes + 1
  pushNode
    { h with
      nNodes := node
      parent := (h.parent.set a.1 (some node)).set b.1 (some node)
      weight := h.weight.set node (joinWeight (h.weight.getD a.1 0) (h.weight.getD b.1 0)) }
    node

/-- Depth of a node: how many parents it has above it. -/
def nodeDepth (parent : List (Option Nat)) : Nat → Nat → Nat
  | 0, _ => 0
  | fuel + 1, k =>
    match parent.getD k none with
    | some p => nodeDepth parent fuel p + 1
    | none => 0

/-- One build of the tree over the symbol weights `ws`: the depth of every symbol. Node 0 is the sentinel of
weight 0. -/
def treeLengths (ws : List Nat) : List Nat :=
  let a := ws.length
  let start : HeapBuild :=
    { heap := List.replicate (a + 2) 0
      nHeap := 0
      weight := 0 :: ws ++ List.replicate a 0
      parent := List.replicate (2 * a + 1) none
      nNodes := a }
  let filled := (List.range a).foldl (fun h i => pushNode h (i + 1)) start
  let built := joinTwo^[a - 1] filled
  (List.range a).map fun i => nodeDepth built.parent (2 * a) (i + 1)

/-- The retry loop (43 R208): while a length exceeds `maxLen`, every symbol weight `w` becomes `1 + w // 2`. -/
def limitLengths (maxLen : Nat) : Nat → List Nat → List Nat
  | 0, ws => treeLengths ws
  | fuel + 1, ws =>
    let lens := treeLengths ws
    if lens.any fun l => decide (maxLen < l) then
      limitLengths maxLen fuel (ws.map fun w => (1 + (w >>> 8) / 2) <<< 8)
    else lens

/-- `MakeCodeLengths(freq, A, maxLen)` (43 R207, R208); `A` is the list's length. Halving makes every weight 1
or 2 in fewer rounds than the largest frequency (log 14). -/
def makeCodeLengths (freq : List Nat) (maxLen : Nat) : List Nat :=
  limitLengths maxLen (freq.foldl max 0) (freq.map fun f => (if f = 0 then 1 else f) <<< 8)

/-! ## Refinement (43 R203..R206, R209) -/

/-- The cost of a group under one table (43 R204). -/
def groupCost (lens : List Nat) (group : List Nat) : Nat :=
  (group.map fun v => lens.getD v 0).sum

/-- The cheapest table, the lowest index on a tie (43 R204): `bt` is the best so far, with its cost, and the
costs of tables `t, t+1, …` are ahead. -/
def cheapest : Nat → Nat → Nat → List Nat → Nat
  | bt, _, _, [] => bt
  | bt, best, t, c :: cs => if c < best then cheapest t c (t + 1) cs else cheapest bt best (t + 1) cs

/-- The table a group goes to. -/
def bestTable (tables : List (List Nat)) (group : List Nat) : Nat :=
  match tables.map fun lens => groupCost lens group with
  | [] => 0
  | c :: cs => cheapest 0 c 1 cs

/-- The selectors of every group under the current tables (43 R204). -/
def assignGroups (tables groups : List (List Nat)) : List Nat := groups.map (bestTable tables)

/-- `rfreq[t]` (43 R205): the symbols of the groups that chose table `t`. -/
def tableFreq (alphaSize : Nat) (groups : List (List Nat)) (selector : List Nat) (t : Nat) : List Nat :=
  symbolCounts alphaSize (((groups.zip selector).filter fun g => g.2 = t).flatMap Prod.fst)

/-- One round (43 R203..R206): assign, count, rebuild every table. -/
def refineOnce (alphaSize nGroups : Nat) (groups tables : List (List Nat)) : List (List Nat) × List Nat :=
  let selector := assignGroups tables groups
  ((List.range nGroups).map fun t => makeCodeLengths (tableFreq alphaSize groups selector t) maxCodeLen,
    selector)

/-- The rounds; the answer is the last round's tables and selectors (43 R209). -/
def refine (alphaSize nGroups : Nat) (groups : List (List Nat)) :
    Nat → List (List Nat) × List Nat → List (List Nat) × List Nat
  | 0, r => r
  | n + 1, r => refine alphaSize nGroups groups n (refineOnce alphaSize nGroups groups r.1)

/-- `SelectTables` (43 R201..R209): code lengths of each table, and the selectors. -/
def selectTables (mtfv mtfFreq : List Nat) (alphaSize : Nat) : List (List Nat) × List Nat :=
  let nGroups := tableCount mtfv.length
  refine alphaSize nGroups (groupsOf mtfv) refineRounds (seedTables mtfFreq nGroups nGroups 0 mtfv.length, [])

/-- Selector MTF encoding (43 R210), from the list `pos`. -/
def selectorMtfFrom : List Nat → List Nat → List Nat
  | _, [] => []
  | pos, s :: ss => pos.idxOf s :: selectorMtfFrom (moveToFront pos (pos.idxOf s)) ss

/-- Selector MTF values (43 R210). -/
def selectorMtfValues (nGroups : Nat) (selector : List Nat) : List Nat :=
  selectorMtfFrom (List.range nGroups) selector

/-! ## Canonical codes (43 R211) -/

/-- `vec` of 43 R211 and R226 as it enters length `l`: the first code of that length. Below the shortest
length no symbol counts, so starting at length 0 is starting at `minLen` (log 15). -/
def firstCode (lens : List Nat) : Nat → Nat
  | 0 => 0
  | l + 1 => 2 * (firstCode lens l + lens.count l)

/-- The code of symbol `v` (43 R211): the first code of its length, plus how many lower symbols have that
length. -/
def codeOf (lens : List Nat) (v : Nat) : Nat :=
  firstCode lens (lens.getD v 0) + (lens.take v).count (lens.getD v 0)

/-- The codes of one table (43 R211). -/
def canonicalCodes (lens : List Nat) : List Nat := (List.range lens.length).map (codeOf lens)

/-- The code book of a table: each symbol's code, MSB first, in its length (43 R214). -/
def bookOf (lens codes : List Nat) : CodeBook := fun v => bitsOf (lens.getD v 0) (codes.getD v 0)

/-! ## Decode tables (43 R226) -/

/-- `min_s len[s]`. -/
def minLength (lens : List Nat) : Nat := lens.foldl min (lens.headD 0)

/-- `max_s len[s]`. -/
def maxLength (lens : List Nat) : Nat := lens.foldl max 0

/-- How many symbols have a length below `l`: `base[l]` after the second loop of 43 R226. -/
def shorterCount (lens : List Nat) (l : Nat) : Nat := lens.countP fun x => decide (x < l)

/-- `perm`: the symbols by length, ascending symbol within a length. -/
def permOf (lens : List Nat) (minLen maxLen : Nat) : List Nat :=
  ((List.range (maxLen + 1)).drop minLen).flatMap fun l =>
    (List.range lens.length).filter fun v => lens.getD v 0 = l

/-- `limit[l]`: the largest `l`-bit code, 0 outside `minLen..maxLen`. -/
def limitOf (lens : List Nat) (minLen maxLen l : Nat) : Int :=
  if minLen ≤ l ∧ l ≤ maxLen then (firstCode lens l : Int) + lens.count l - 1 else 0

/-- `base[l]` after the last loop of 43 R226. -/
def baseOf (lens : List Nat) (minLen maxLen l : Nat) : Int :=
  if minLen + 1 ≤ l ∧ l ≤ maxLen then 2 * (limitOf lens minLen maxLen (l - 1) + 1) - shorterCount lens l
  else shorterCount lens l

/-- The decode tables of a table's code lengths (43 R226). -/
def buildDecTable (lens : List Nat) : DecTable :=
  let lo := minLength lens
  let hi := maxLength lens
  { minLen := lo
    maxLen := hi
    limit := (List.range 22).map (limitOf lens lo hi)
    base := (List.range 22).map (baseOf lens lo hi)
    perm := permOf lens lo hi }

end Sys2Proof.Machine
end

