-- ==== Sys2Proof/Machine/Wire.lean ====
section
/-! DEFINITION. What each wire element does to the decoder that parses it (43_huffman R220..R226,
45_stream_decoder R282..R292, R297). An element exists only where the decoder stands at it, so each meaning
first asks that (log 1). An element with an illegal value raises its cause (30_encoding R92). -/

namespace Sys2Proof.Machine

/-! ## Shared operations -/

/-- The tables and position at the start of a block, right after BLOCK_MAGIC (45 R284). -/
def DecScratch.start : DecScratch :=
  { pos := .blockCrc, origPtr := 0, mapLeft := [], seqToUnseq := [], nGroups := 0, nSelectors := 0,
    selList := [], selector := [], lens := [], row := [], curr := 0, tables := [], groupsUsed := 0,
    left := 0, mtfList := [], out := [], run := none, weight := 1, cftab := [] }

/-- The decoder with new block tables. -/
def setScratch (sc : DecScratch) (s : State) : State :=
  { s with dec := { s.dec with scratch := some sc } }

/-- A fault of the element (45 R299). -/
def wireFault (c : Cause) (s : State) : Host.Outcome State Fault Refusal := .next (decFault c s)

/-- Run `k` if a DEC_READ is in progress and the decoder is in control state `d`, between blocks. -/
def atStream (d : DecState) (s : State) (k : Host.Outcome State Fault Refusal) :
    Host.Outcome State Fault Refusal :=
  if s.reading = true ∧ s.dec.state = d ∧ s.dec.scratch = none then k else .fault .elementOutOfPlace

/-- Run `k` on the block tables if a DEC_READ is in progress and the decoder stands at place `p` of a block. -/
def atBlock (p : BlockPos) (s : State) (k : DecScratch → Host.Outcome State Fault Refusal) :
    Host.Outcome State Fault Refusal :=
  match s.dec.scratch with
  | some sc =>
    if s.reading = true ∧ s.dec.state = .expectBlockHeader ∧ sc.pos = p then k sc
    else .fault .elementOutOfPlace
  | none => .fault .elementOutOfPlace

/-- The indices of the set bits of a 16-bit mapping word, in wire order: index `i` is bit `15-i`
(30_encoding R83). -/
def setBits (w : BitVec 16) : List Nat := (List.range 16).filter fun i => w.getLsbD (15 - i)

/-- The end of the mapping (43 R220). -/
def endMapping (sc : DecScratch) (s : State) : Host.Outcome State Fault Refusal :=
  if sc.seqToUnseq = [] then wireFault .noSymbolsInUse s
  else .next (setScratch { sc with pos := .nGroups } s)

/-- Whether a code length is in 1..20 (43 R225). -/
def legalLength (l : Nat) : Bool := decide (1 ≤ l) && decide (l ≤ maxCodeLen)

/-- Take on a new value of `curr`. The check of 43 R225 comes before the next bit is read, and nothing is read in
between, so it is made here (log 12). -/
def setLength (curr : Nat) (sc : DecScratch) (s : State) : Host.Outcome State Fault Refusal :=
  if legalLength curr then .next (setScratch { sc with curr := curr, pos := .lenAdjust } s)
  else wireFault .badCodeLength s

/-- The place after a table's last length: the next table, or the symbols (43 R225, R226). -/
def endTable (sc : DecScratch) : DecScratch :=
  let tables := sc.tables ++ [buildDecTable sc.row]
  { sc with
    lens := sc.lens ++ [sc.row]
    tables := tables
    row := []
    mtfList := sc.seqToUnseq
    pos := if tables.length < sc.nGroups then .lenStart else .symbol }

/-- A symbol's length is `curr` (43 R225). -/
def endLength (sc : DecScratch) : DecScratch :=
  let sc := { sc with row := sc.row ++ [sc.curr] }
  if sc.row.length < alphaSizeOf sc.seqToUnseq.length then sc else endTable sc

/-- One turn of the first loop of R291: count the byte in the entry above its value. -/
def tally (counts : List Nat) (c : Byte) : List Nat :=
  counts.set (c.toNat + 1) (counts.getD (c.toNat + 1) 0 + 1)

/-- The second loop of R291: every entry takes the sum of those before it. -/
def runningSums : Nat → List Nat → List Nat
  | _, [] => []
  | acc, x :: xs => (acc + x) :: runningSums (acc + x) xs

/-- `cftab[0..256]` (45 R291): entry `c` is how many bytes of the block are below `c`. -/
def countBytes (last : List Byte) : List Nat := runningSums 0 (last.foldl tally (List.replicate 257 0))

/-- The loop of R292 from position `i` on: `tt[cftab[L[i]]] <- i`, and the entry of `cftab` moves on by one. -/
def fillChain : List Byte → Nat → List Nat → Array Nat → Array Nat × List Nat
  | [], _, cftab, tt => (tt, cftab)
  | c :: cs, i, cftab, tt =>
    let slot := cftab.getD c.toNat 0
    fillChain cs (i + 1) (cftab.set c.toNat (slot + 1)) (tt.setIfInBounds slot i)

/-- `dec.tt` (45 R292) of a block whose frequencies `cftab` holds. -/
def buildChain (last : List Byte) (cftab : List Nat) : List Nat :=
  (fillChain last 0 cftab (Array.replicate last.length 0)).1.toList

/-- The block ready for delivery (45 R284, R292). -/
def startBlock (origPtr : Nat) (last : List Byte) (cftab : List Nat) : DecBlock :=
  let tt := buildChain last cftab
  { origPtr := origPtr, last := last, tt := tt, p := tt.getD origPtr 0, i := 0, rNToGo := 0, rTPos := 0,
    prev := none, cnt := 0, rep := 0 }

/-- The first part of `BuildChain()` (45 R291): the block's tables take its byte frequencies. -/
def countBlock (sc : DecScratch) (s : State) : State := setScratch { sc with cftab := countBytes sc.out } s

/-- The rest of `ParseBlock()` (45 R284, R292, R293): the chain from the tables' `cftab`, the counters, the CRC. The
per-block tables are dead then (10_state R38). -/
def openBlock (s : State) : Host.Outcome State Fault Refusal :=
  match s.dec.scratch with
  | none => .fault .readOfNone
  | some sc =>
    .next
      { s with
        dec :=
          { s.dec with
            state := .decodingBlock
            crc := crcSeed
            blk := some (startBlock sc.origPtr sc.out sc.cftab)
            scratch := none } }

/-- The end of `ParseBlock()` at the block's EOB: `CheckOrigPtr` (45 R290), then `BuildChain`. -/
def endSymbols (sc : DecScratch) (s : State) : Host.Outcome State Fault Refusal :=
  if sc.origPtr < sc.out.length then openBlock (countBlock sc s) else wireFault .badOrigPtr s

/-- A run symbol adds its digit to the pending run (45 R287, R288). -/
def addRunDigit (v : Nat) (sc : DecScratch) : DecScratch :=
  let run := sc.run.getD 0
  let w := if sc.run = none then 1 else sc.weight
  { sc with run := some (run + w * (if v = runA then 1 else 2)), weight := 2 * w }

/-- The pending run becomes copies of the MTF front (45 R287). -/
def flushZeroRun (sc : DecScratch) : DecScratch :=
  { sc with out := sc.out ++ List.replicate (sc.run.getD 0) (sc.mtfList.headD 0), run := none }

/-- An MTF symbol appends the byte at its rank and moves it to the front (45 R287). -/
def takeRank (v : Nat) (sc : DecScratch) : DecScratch :=
  { sc with
    out := sc.out ++ [sc.mtfList.getD (v - 1) 0]
    mtfList := moveToFront sc.mtfList (v - 1) }

/-- The body of the loop of `DecodeSymbols` for one symbol (45 R287, R289). -/
def takeSymbol (v : Nat) (sc : DecScratch) (s : State) : Host.Outcome State Fault Refusal :=
  if v = runA ∨ v = runB then
    if capDec s.dec.k < (addRunDigit v sc).run.getD 0 then wireFault .blockOverflow s
    else .next (setScratch (addRunDigit v sc) s)
  else if capDec s.dec.k < sc.out.length + sc.run.getD 0 then wireFault .blockOverflow s
  else if v = eobOf sc.seqToUnseq.length then endSymbols (flushZeroRun sc) s
  else if capDec s.dec.k < (flushZeroRun sc).out.length + 1 then wireFault .blockOverflow s
  else .next (setScratch (takeRank v (flushZeroRun sc)) s)

/-! ## The elements -/

/-- STREAM_HEADER (45 R283). -/
def execStreamHeader (k : BitVec 4) (s : State) : Host.Outcome State Fault Refusal :=
  atStream .expectStreamHeader s
    (if 1 ≤ k.toNat ∧ k.toNat ≤ 9 then
      .next { s with dec := { s.dec with k := k.toNat, state := .expectBlockHeader } }
    else wireFault .badBlockSizeDigit s)

/-- BLOCK_MAGIC (45 R282, R284): a block section begins. -/
def execBlockMagic (s : State) : Host.Outcome State Fault Refusal :=
  atStream .expectBlockHeader s (.next (setScratch DecScratch.start s))

/-- BLOCK_CRC (45 R284). -/
def execBlockCrc (c : Word) (s : State) : Host.Outcome State Fault Refusal :=
  atBlock .blockCrc s fun sc =>
    .next { s with dec := { s.dec with stored := c, scratch := some { sc with pos := .rand } } }

/-- RAND (45 R284). -/
def execRand (r : Bool) (s : State) : Host.Outcome State Fault Refusal :=
  atBlock .rand s fun sc =>
    .next { s with dec := { s.dec with rand := r, scratch := some { sc with pos := .origPtr } } }

/-- ORIGPTR (45 R284); it is checked after the symbol section (45 R290). -/
def execOrigPtr (p : BitVec 24) (s : State) : Host.Outcome State Fault Refusal :=
  atBlock .origPtr s fun sc => .next (setScratch { sc with origPtr := p.toNat, pos := .inUse16 } s)

/-- INUSE16 (43 R220). -/
def execInUse16 (g : BitVec 16) (s : State) : Host.Outcome State Fault Refusal :=
  atBlock .inUse16 s fun sc =>
    if setBits g = [] then endMapping { sc with mapLeft := [], seqToUnseq := [] } s
    else .next (setScratch { sc with mapLeft := setBits g, seqToUnseq := [], pos := .inUseWord } s)

/-- INUSE_WORD (43 R220): the word of the lowest group still to come. -/
def execInUseWord (u : BitVec 16) (s : State) : Host.Outcome State Fault Refusal :=
  atBlock .inUseWord s fun sc =>
    let seq := sc.seqToUnseq ++ (setBits u).map fun j => BitVec.ofNat 8 (16 * sc.mapLeft.headD 0 + j)
    if sc.mapLeft.tail = [] then endMapping { sc with mapLeft := [], seqToUnseq := seq } s
    else .next (setScratch { sc with mapLeft := sc.mapLeft.tail, seqToUnseq := seq } s)

/-- NGROUPS (43 R221). -/
def execNGroups (n : BitVec 3) (s : State) : Host.Outcome State Fault Refusal :=
  atBlock .nGroups s fun sc =>
    if 2 ≤ n.toNat ∧ n.toNat ≤ 6 then
      .next (setScratch { sc with nGroups := n.toNat, pos := .nSelectors } s)
    else wireFault .badGroupCount s

/-- NSELECTORS (43 R222). -/
def execNSelectors (n : BitVec 15) (s : State) : Host.Outcome State Fault Refusal :=
  atBlock .nSelectors s fun sc =>
    if 1 ≤ n.toNat ∧ n.toNat ≤ maxSelectors then
      .next (setScratch
        { sc with
          nSelectors := n.toNat, selList := List.range sc.nGroups, selector := [], pos := .selector } s)
    else wireFault .badSelectorCount s

/-- SELECTOR_MTF (43 R223, R224). The inverse needs no later selector, so it is taken element by element. -/
def execSelectorMtf (j : Nat) (s : State) : Host.Outcome State Fault Refusal :=
  atBlock .selector s fun sc =>
    if j < sc.nGroups then
      .next (setScratch
        { sc with
          selector := sc.selector ++ [sc.selList.getD j 0]
          selList := moveToFront sc.selList j
          pos := if sc.selector.length + 1 < sc.nSelectors then .selector else .lenStart } s)
    else wireFault .badSelector s

/-- LEN_START (43 R225). -/
def execLenStart (l : BitVec 5) (s : State) : Host.Outcome State Fault Refusal :=
  atBlock .lenStart s fun sc => setLength l.toNat { sc with row := [] } s

/-- LEN_INC (43 R225). -/
def execLenInc (s : State) : Host.Outcome State Fault Refusal :=
  atBlock .lenAdjust s fun sc => setLength (sc.curr + 1) sc s

/-- LEN_DEC (43 R225). -/
def execLenDec (s : State) : Host.Outcome State Fault Refusal :=
  atBlock .lenAdjust s fun sc => setLength (sc.curr - 1) sc s

/-- LEN_STOP (43 R225): the symbol's length is `curr`. -/
def execLenStop (s : State) : Host.Outcome State Fault Refusal :=
  atBlock .lenAdjust s fun sc => .next (setScratch (endLength sc) s)

/-- HUFF_SYMBOL (43 R228, 45 R287; a symbol outside the alphabet: 30_encoding R91). -/
def execHuffSymbol (v : Nat) (s : State) : Host.Outcome State Fault Refusal :=
  atBlock .symbol s fun sc =>
    if sc.nSelectors < (nextGroup sc).1 then wireFault .selectorsExhausted s
    else if alphaSizeOf sc.seqToUnseq.length ≤ v then wireFault .symbolOutOfRange s
    else takeSymbol v { sc with groupsUsed := (nextGroup sc).1, left := (nextGroup sc).2 - 1 } s

/-- EOS_MAGIC (45 R282): the trailer comes next. -/
def execEosMagic (s : State) : Host.Outcome State Fault Refusal :=
  atStream .expectBlockHeader s (.next { s with dec := { s.dec with state := .expectStreamTrailer } })

/-- COMBINED_CRC (45 R282, R297): the stream ends, and with it the DEC_READ. -/
def execCombinedCrc (c : Word) (s : State) : Host.Outcome State Fault Refusal :=
  atStream .expectStreamTrailer s
    (if c = s.dec.comb then
      .next (succeed
        { s with result := endResult, reading := false, dec := { s.dec with state := .done } })
    else wireFault .streamCrcMismatch s)

/-- PAD (30_encoding R89): "neither read nor checked" (45 R297), so it does nothing to the decoder (log 13). -/
def execPad (_z : Nat) (s : State) : Host.Outcome State Fault Refusal := .next s

end Sys2Proof.Machine
end

