-- ==== Sys2Proof/Machine/Decoder.lean ====
section
/-! DEFINITION. The stream decoder: delivery of a block's bytes, the micro-step and the loop of DEC_READ, and
DEC_INIT, DEC_READ (45_stream_decoder R280..R300). -/

namespace Sys2Proof.Machine

/-! ## Delivery of a block -/

/-- What a pull from the block gives: a byte, or the end of the block, each with the block state after it. -/
structure Pull where
  byte : Option Byte
  blk : DecBlock
  deriving DecidableEq, Repr

/-- `NextBlockByte()` (45 R292). `none` is a read the spec gives no value, an index outside `dec.L` or
`dec.tt`, which no block built by `startBlock` makes. -/
def nextBlockByte (b : DecBlock) : Option Pull :=
  if b.i = b.last.length then some { byte := none, blk := b }
  else
    match b.last[b.p]?, b.tt[b.p]? with
    | some c, some q => some { byte := some c, blk := { b with p := q, i := b.i + 1 } }
    | _, _ => none

/-- `NextRaw()` (45 R293): un-randomised, with the encoder's own countdown (42 R168). -/
def nextRaw (rand : Bool) (b : DecBlock) : Option Pull :=
  match nextBlockByte b with
  | some { byte := some c, blk := b } =>
    if rand then
      let r := randStep b.rNToGo b.rTPos
      some { byte := some (maskByte r.1 c), blk := { b with rNToGo := r.2.1, rTPos := r.2.2 } }
    else some { byte := some c, blk := b }
  | x => x

/-- A repeat is due: one more copy of `dec.prev` (45 R294). -/
def takeRepeat (b : DecBlock) : Option Pull :=
  match b.prev with
  | some c =>
    some
      { byte := some c
        blk := { b with rep := b.rep - 1, prev := if b.rep - 1 = 0 then none else some c } }
  | none => none

/-- A block byte that is no count is delivered (45 R294). -/
def takeLiteral (c : Byte) (b : DecBlock) : Pull :=
  { byte := some c
    blk := if b.prev = some c then { b with cnt := b.cnt + 1 } else { b with prev := some c, cnt := 1 } }

/-- A block byte after four equal bytes is a count (45 R294). -/
def takeCount (c : Byte) (b : DecBlock) : DecBlock :=
  if c = 0 then { b with cnt := 0, prev := none } else { b with cnt := 0, rep := c.toNat }

/-- `NextByte()` (45 R294), its loop bounded by `fuel`. -/
def nextByteLoop (rand : Bool) : Nat → DecBlock → Option Pull
  | 0, _ => none
  | fuel + 1, b =>
    if 0 < b.rep then takeRepeat b
    else
      match nextRaw rand b with
      | some { byte := some c, blk := b } =>
        if b.cnt = 4 then nextByteLoop rand fuel (takeCount c b) else some (takeLiteral c b)
      | x => x

/-- `NextByte()` (45 R294). A count sets `dec.cnt` to 0, so the loop turns at most twice. -/
def nextByte (rand : Bool) (b : DecBlock) : Option Pull := nextByteLoop rand 2 b

/-- `EndBlock()` (45 R295, R296), and the step to the next header (45 R282). -/
def endBlock (s : State) : State :=
  if crcValue s.dec.crc = s.dec.stored then
    { s with
      dec :=
        { s.dec with
          state := .expectBlockHeader
          comb := crcCombine s.dec.comb s.dec.stored
          blocks := s.dec.blocks + 1
          crc := crcSeed
          blk := none } }
  else decFault .blockCrcMismatch s

/-- A byte is delivered and DEC_READ ends (45 R282). -/
def deliver (c : Byte) (b : DecBlock) (s : State) : State :=
  succeed
    { s with
      result := c.setWidth 32
      reading := false
      dec := { s.dec with blk := some b, crc := crcUpdate s.dec.crc c } }

/-- DecodingBlock's turn of the loop of DEC_READ (45 R282). -/
def blockStep (s : State) : Host.Outcome State Fault Refusal :=
  match s.dec.blk with
  | none => .fault .readOfNone
  | some b =>
    match nextByte s.dec.rand b with
    | some { byte := some c, blk := b } => .next (deliver c b s)
    | some { byte := none, blk := _ } => .next (endBlock s)
    | none => .fault .readOfNone

/-! ## The loop of DEC_READ -/

/-- The meaning of a wire element. A command is no wire element. -/
def execElement (i : Instr) (s : State) : Host.Outcome State Fault Refusal :=
  match i with
  | .streamHeader k => execStreamHeader k s
  | .blockMagic => execBlockMagic s
  | .blockCrc c => execBlockCrc c s
  | .rand r => execRand r s
  | .origPtr p => execOrigPtr p s
  | .inUse16 g => execInUse16 g s
  | .inUseWord u => execInUseWord u s
  | .nGroups n => execNGroups n s
  | .nSelectors n => execNSelectors n s
  | .selectorMtf j => execSelectorMtf j s
  | .lenStart l => execLenStart l s
  | .lenInc => execLenInc s
  | .lenDec => execLenDec s
  | .lenStop => execLenStop s
  | .huffSymbol v => execHuffSymbol v s
  | .eosMagic => execEosMagic s
  | .combinedCrc c => execCombinedCrc c s
  | .pad z => execPad z s
  | .nop | .reset | .bwWriteBits _ | .bwFinish | .brReadBits _ | .crcReset | .crcUpdate _ | .crcValue
  | .crcCombReset | .crcCombine | .encInit _ | .encWrite _ | .encClose | .decInit | .decRead =>
    .fault .elementOutOfPlace

/-- One turn of the loop of DEC_READ (45 R282): fetch the next wire element and run it, or serve the block
being delivered. -/
def readStep (s : State) : Host.Outcome State Fault Refusal :=
  if s.dec.state = .decodingBlock then blockStep s
  else
    match fetchElement s.dec s.br with
    | some (.ok i, r) => execElement i { s with br := r }
    | some (.error c, r) => .next (decFault c { s with br := r })
    | none => .fault .elementOutOfPlace

/-- The loop of DEC_READ, until the command ends. -/
def readLoop : Nat → State → Host.Outcome State Fault Refusal
  | 0, _ => .fault .loopBound
  | fuel + 1, s =>
    match readStep s with
    | .next s => if s.reading then readLoop fuel s else .next s
    | .fault f => .fault f
    | .refused r => .refused r

/-- A bound on the loop's turns: every turn but an `EndBlock` consumes a bit or ends the command (log 14). -/
def readBound (r : Reader) : Nat := 2 * (r.acc.length + 8 * (r.src.length - r.pos)) + 4

/-! ## Commands -/

/-- DEC_INIT (45 R281): unconsumed reader bits are dropped, the source position is kept. -/
def execDecInit (s : State) : Host.Outcome State Fault Refusal :=
  .next (succeed
    { s with
      br := { s.br with acc := [] }
      dec := { Decoder.reset with state := .expectStreamHeader } })

/-- DEC_READ (45 R282): the next decompressed byte, or end of stream. -/
def execDecRead (s : State) : Host.Outcome State Fault Refusal :=
  match s.dec.state with
  | .idle => reject .commandStateError s
  | .faulted => .next (recordCause s.dec.cause s)
  | .done => .next (succeed (setResult endResult s))
  | .expectStreamHeader => readLoop (readBound s.br) { s with reading := true }
  | .expectBlockHeader => readLoop (readBound s.br) { s with reading := true }
  | .decodingBlock => readLoop (readBound s.br) { s with reading := true }
  | .expectStreamTrailer => readLoop (readBound s.br) { s with reading := true }

end Sys2Proof.Machine
end

