-- ==== Sys2Proof/Machine/Encoder.lean ====
section
/-! DEFINITION. The stream encoder: the block transform, block emission, and ENC_INIT, ENC_WRITE, ENC_CLOSE
(42_block_encoder R182, 43_huffman R212..R214, 44_stream_encoder R250..R259). -/

namespace Sys2Proof.Machine

/-! ## One block -/

/-- The randomised bit, `B'`, in-use set, BWT, MTF and RLE2, tables, codes and selectors of a block: all of
`BlockTransform` (42 R182) and of the table builder (44 R254), given the randomised bit. -/
def buildScratch (rand : Bool) (block : List Byte) : EncScratch :=
  let masked := maskBlock rand block
  let inUse := inUseSet masked
  let zptr := sortRotations masked
  let last := lastColumn masked zptr
  let mtf := mtfSymbols last inUse 0
  let mtfv := mtf.1 ++ [eobOf inUse.length]
  let alphaSize := alphaSizeOf inUse.length
  let mtfFreq := symbolCounts alphaSize mtfv
  let tables := selectTables mtfv mtfFreq alphaSize
  { rand := rand
    masked := masked
    inUse := inUse
    zptr := zptr
    last := last
    origPtr := findOrigPtr zptr
    mtfList := mtf.2
    mtfv := mtfv
    mtfFreq := mtfFreq
    lens := tables.1
    codes := tables.1.map canonicalCodes
    selector := tables.2
    selMtf := selectorMtfValues tables.1.length tables.2 }

/-- The in-use bits of mapping group `i`, first on the wire first (30_encoding R83). -/
def groupBits (inUse : List Byte) (i : Nat) : List Bool :=
  (List.range 16).map fun j => inUse.contains (BitVec.ofNat 8 (16 * i + j))

/-- `inUse16`, first bit on the wire first: which groups have a byte in use (30_encoding R83). -/
def usedGroups (inUse : List Byte) : List Bool :=
  (List.range 16).map fun i => (groupBits inUse i).any id

/-- The mapping table (30_encoding R83, 43 R212): INUSE16, then one word for each group in use, ascending. -/
def mappingElements (inUse : List Byte) : List Instr :=
  .inUse16 (BitVec.ofNat 16 (valueOf (usedGroups inUse))) ::
    (((List.range 16).filter fun i => (groupBits inUse i).any id).map fun i =>
      .inUseWord (BitVec.ofNat 16 (valueOf (groupBits inUse i))))

/-- The adjustments from `curr` to `len`: increments come before decrements, and only one kind occurs
(43 R213). -/
def adjustElements (curr len : Nat) : List Instr :=
  List.replicate (len - curr) .lenInc ++ List.replicate (curr - len) .lenDec ++ [.lenStop]

/-- The symbols' lengths from `curr` on. -/
def lengthElementsFrom : Nat → List Nat → List Instr
  | _, [] => []
  | curr, l :: ls => adjustElements curr l ++ lengthElementsFrom l ls

/-- `EmitLengths(t)` (43 R213): the start value is the first symbol's length. -/
def lengthElements (lens : List Nat) : List Instr :=
  .lenStart (BitVec.ofNat 5 (lens.headD 0)) :: lengthElementsFrom (lens.headD 0) lens

/-- A block's elements before its symbols, in wire order (30_encoding R80, R82; 43 R212; 44 R254). -/
def blockElements (crc : Word) (sc : EncScratch) : List Instr :=
  [.blockMagic, .blockCrc crc, .rand sc.rand, .origPtr (BitVec.ofNat 24 sc.origPtr)]
    ++ mappingElements sc.inUse
    ++ [.nGroups (BitVec.ofNat 3 sc.lens.length), .nSelectors (BitVec.ofNat 15 sc.selector.length)]
    ++ sc.selMtf.map .selectorMtf
    ++ sc.lens.flatMap lengthElements

/-- The symbol section: each group's symbols under the code of the group's table (43 R214). -/
def symbolBits (sc : EncScratch) : List Bool :=
  ((groupsOf sc.mtfv).zip sc.selector).flatMap fun g =>
    g.1.flatMap fun v => encode (bookOf (sc.lens.getD g.2 []) (sc.codes.getD g.2 [])) (.huffSymbol v)

/-- A block's bits (44 R254). -/
def blockBits (crc : Word) (sc : EncScratch) : List Bool :=
  (blockElements crc sc).flatMap (encode noCodes) ++ symbolBits sc

/-! ## Procedures of the encoder -/

/-- The first part of `CloseBlock` (44 R254): the sort-stack check comes before anything of the block is
done (42 R174, R182), then the scratch is filled. -/
def transformBlock (s : State) : Run Unit :=
  if s.sortFaults.contains s.enc.block then .raised .sortStackOverflow s
  else
    .done ()
      { s with enc := { s.enc with scratch := some (buildScratch (randomise s.enc.block) s.enc.block) } }

/-- The second part of `CloseBlock` (44 R254): the block is emitted, its CRC is folded, and the next block
starts empty. -/
def emitBlock (s : State) : Run Unit :=
  match s.enc.scratch with
  | none => .broke .readOfNone
  | some sc =>
    .done ()
      { s with
        bw := writeBitList (blockBits (crcValue s.enc.crc) sc) s.bw
        enc :=
          { s.enc with
            comb := crcCombine s.enc.comb (crcValue s.enc.crc)
            blocks := s.enc.blocks + 1
            rand := sc.rand
            block := []
            crc := crcSeed
            scratch := none } }

/-- `CloseBlock()` (44 R254). -/
def closeBlock (s : State) : Run Unit := (transformBlock s).andThen fun _ s => emitBlock s

/-- The last lines of `FlushRun()` (44 R253): the run moves into the block and its raw bytes into the CRC. -/
def appendRun (c : Byte) (s : State) : State :=
  { s with
    enc :=
      { s.enc with
        block := s.enc.block ++ runBytes c s.enc.run
        crc := crcRepeat s.enc.run c s.enc.crc
        cur := none
        run := 0 } }

/-- `FlushRun()` (44 R253), where the pending run is of byte `c`: a run that does not fit closes the block
first (42 R164). -/
def flushRun (c : Byte) (s : State) : Run Unit :=
  if capEnc s.enc.k < s.enc.block.length + (runBytes c s.enc.run).length then
    (closeBlock s).andThen fun _ s => .done () (appendRun c s)
  else .done () (appendRun c s)

/-- Flush the pending run, if there is one. -/
def flushPending (s : State) : Run Unit :=
  match s.enc.cur with
  | some c => flushRun c s
  | none => .done () s

/-- Take in one raw byte, before the length check of ENC_WRITE (44 R252). -/
def takeByte (b : Byte) (s : State) : Run Unit :=
  if s.enc.cur = some b then .done () { s with enc := { s.enc with run := s.enc.run + 1 } }
  else
    (flushPending s).andThen fun _ s => .done () { s with enc := { s.enc with cur := some b, run := 1 } }

/-- The body of ENC_WRITE (44 R252): a run that reaches 255 is flushed at once (42 R161). -/
def writeRaw (b : Byte) (s : State) : Run Unit :=
  (takeByte b s).andThen fun _ s => if s.enc.run = 255 then flushRun b s else .done () s

/-- Close the current block unless it is empty (44 R256). -/
def closeNonEmpty (s : State) : Run Unit := if s.enc.block = [] then .done () s else closeBlock s

/-- The trailer and the padding (44 R256, 30_encoding R88, R89). -/
def writeTrailer (comb : Word) (w : Writer) : Writer :=
  writeFinish (writeElement (.combinedCrc comb) (writeElement .eosMagic w))

/-- The body of ENC_CLOSE (44 R256). -/
def closeStream (s : State) : Run Unit :=
  (flushPending s).andThen fun _ s =>
    (closeNonEmpty s).andThen fun _ s =>
      .done () { s with bw := writeTrailer s.enc.comb s.bw, enc := { s.enc with state := .closed } }

/-! ## Commands -/

/-- The encoder right after ENC_INIT (44 R251). -/
def Encoder.fresh (k : Nat) : Encoder := { Encoder.reset with state := .opened, k := k }

/-- ENC_INIT k (44 R251): any stream in progress is abandoned, with up to 7 bits in the writer. -/
def execEncInit (k : BitVec 8) (s : State) : Host.Outcome State Fault Refusal :=
  if k.toNat < 1 ∨ 9 < k.toNat then reject .badBlockSize s
  else
    .next (succeed
      { s with
        bw := writeElement (.streamHeader (k.setWidth 4)) { s.bw with acc := [] }
        enc := Encoder.fresh k.toNat })

/-- ENC_WRITE b (44 R252). -/
def execEncWrite (b : Byte) (s : State) : Host.Outcome State Fault Refusal :=
  match s.enc.state with
  | .faulted => .next (recordCause s.enc.cause s)
  | .opened => finishEnc (writeRaw b s)
  | .idle => reject .commandStateError s
  | .closed => reject .commandStateError s

/-- ENC_CLOSE (44 R256). In Closed it is a no-op that succeeds. -/
def execEncClose (s : State) : Host.Outcome State Fault Refusal :=
  match s.enc.state with
  | .faulted => .next (recordCause s.enc.cause s)
  | .idle => reject .commandStateError s
  | .closed => .next (succeed s)
  | .opened => finishEnc (closeStream s)

end Sys2Proof.Machine
end

