-- ==== Sys2Proof/Machine/System.lean ====
section
/-! DEFINITION. NOP and RESET (70_reset_and_hazards R370, R379). -/

namespace Sys2Proof.Machine

/-- The reset state of the whole core, with what is outside the core kept: the sink's bytes, the source and
its position, the host's accesses and observations, the SORT_FAULT parameter (70 R370). -/
def resetCore (s : State) : State :=
  { State.reset with
    bw := { Writer.reset with sink := s.bw.sink }
    br := { Reader.reset with src := s.br.src, pos := s.br.pos }
    host := s.host
    observed := s.observed
    sortFaults := s.sortFaults }

/-- NOP (70 R379): LAST_CAUSE and ERR are cleared, nothing else changes. -/
def execNop (s : State) : Host.Outcome State Fault Refusal := .next (succeed s)

/-- RESET (70 R370). -/
def execReset (s : State) : Host.Outcome State Fault Refusal := .next (resetCore s)

end Sys2Proof.Machine
end

