-- ==== Sys2Proof/Machine/Dispatch.lean ====
section
/-! DEFINITION. The one dispatch from an instruction to its meaning. -/

namespace Sys2Proof.Machine

def exec (i : Instr) (s : State) : Host.Outcome State Fault Refusal :=
  match i with
  | .nop => Sys2Proof.Machine.execNop s
  | .reset => Sys2Proof.Machine.execReset s
  | .bwWriteBits n => Sys2Proof.Machine.execBwWriteBits n s
  | .bwFinish => Sys2Proof.Machine.execBwFinish s
  | .brReadBits n => Sys2Proof.Machine.execBrReadBits n s
  | .crcReset => Sys2Proof.Machine.execCrcReset s
  | .crcUpdate b => Sys2Proof.Machine.execCrcUpdate b s
  | .crcValue => Sys2Proof.Machine.execCrcValue s
  | .crcCombReset => Sys2Proof.Machine.execCrcCombReset s
  | .crcCombine => Sys2Proof.Machine.execCrcCombine s
  | .encInit k => Sys2Proof.Machine.execEncInit k s
  | .encWrite b => Sys2Proof.Machine.execEncWrite b s
  | .encClose => Sys2Proof.Machine.execEncClose s
  | .decInit => Sys2Proof.Machine.execDecInit s
  | .decRead => Sys2Proof.Machine.execDecRead s
  | .streamHeader k => Sys2Proof.Machine.execStreamHeader k s
  | .blockMagic => Sys2Proof.Machine.execBlockMagic s
  | .blockCrc c => Sys2Proof.Machine.execBlockCrc c s
  | .rand r => Sys2Proof.Machine.execRand r s
  | .origPtr p => Sys2Proof.Machine.execOrigPtr p s
  | .inUse16 g => Sys2Proof.Machine.execInUse16 g s
  | .inUseWord u => Sys2Proof.Machine.execInUseWord u s
  | .nGroups n => Sys2Proof.Machine.execNGroups n s
  | .nSelectors n => Sys2Proof.Machine.execNSelectors n s
  | .selectorMtf j => Sys2Proof.Machine.execSelectorMtf j s
  | .lenStart l => Sys2Proof.Machine.execLenStart l s
  | .lenInc => Sys2Proof.Machine.execLenInc s
  | .lenDec => Sys2Proof.Machine.execLenDec s
  | .lenStop => Sys2Proof.Machine.execLenStop s
  | .huffSymbol v => Sys2Proof.Machine.execHuffSymbol v s
  | .eosMagic => Sys2Proof.Machine.execEosMagic s
  | .combinedCrc c => Sys2Proof.Machine.execCombinedCrc c s
  | .pad z => Sys2Proof.Machine.execPad z s

end Sys2Proof.Machine
end

