-- ==== Sys2Proof/Machine/HostPort.lean ====
section
/-! DEFINITION. The host port: one register access (10_state R22, R23, R30; 20_memory R67, R69), and how a
word is put where the next step fetches it. -/

namespace Sys2Proof.Machine

/-- A write of `w` to CMD (10_state R23): the command runs, or the decode check's cause is recorded. -/
def runCommand (w : Word) (s : State) : Host.Outcome State Fault Refusal :=
  match decodeCmd w with
  | .ok i => exec i s
  | .error c => reject c s

/-- A register write: CMD runs a command, ARG0 stores, every other offset ignores it (10_state R22, R30). -/
def writeOffset (offset : Nat) (v : Word) (s : State) : Host.Outcome State Fault Refusal :=
  match regAt offset with
  | some .cmd => runCommand v s
  | some .arg0 => .next { s with arg0 := v }
  | _ => .next s

/-- One access. Anything but an aligned 32-bit access is refused (10_state R30, 93 row 8). A read has no side
effect (20_memory R67); its value is what the host observes. -/
def hostAccess (a : HostAccess) (s : State) : Host.Outcome State Fault Refusal :=
  if a.bytes = 4 ∧ a.offset % 4 = 0 then
    match a.op with
    | .read => .next { s with observed := s.observed ++ [readOffset s a.offset] }
    | .write v => writeOffset a.offset v s
  else .refused .accessWidth

/-- The next access in the host's order (20_memory R69, R72). With none pending the core does nothing. -/
def hostStep (s : State) : Host.Outcome State Fault Refusal :=
  match s.host with
  | [] => .next s
  | a :: rest => hostAccess a { s with host := rest }

/-! ## Placing an instruction where the next step fetches it -/

/-- The write of a command word to CMD. -/
def cmdWrite (w : Word) : HostAccess := { offset := 0x00, bytes := 4, op := .write w }

/-- Bits as bytes, zero-padded at the end. -/
def packBytes : Nat → List Bool → List Byte
  | 0, _ => []
  | n + 1, bs => BitVec.ofNat 8 (valueOf ((bs ++ List.replicate 8 false).take 8)) :: packBytes n (bs.drop 8)

/-- The bits of a wire element, then 48 zero bits, as the next bytes of the source. -/
def placeBits (bs : List Bool) (s : State) : State :=
  { s with
    br :=
      { s.br with
        acc := []
        src := s.br.src.take s.br.pos ++ packBytes 12 bs ++ s.br.src.drop s.br.pos } }

/-- Block tables in which every place of a block can stand: two symbols' worth of alphabet, two tables. -/
def placedScratch (p : BlockPos) : DecScratch :=
  { DecScratch.start with
    pos := p, mapLeft := [0], seqToUnseq := [0], nGroups := 2, nSelectors := 1, selList := [0, 1],
    selector := [0], curr := 10 }

/-- The machine inside a DEC_READ, with the decoder standing in state `d`. -/
def standAt (d : DecState) (sc : Option DecScratch) (s : State) : State :=
  { s with reading := true, dec := { s.dec with state := d, scratch := sc, blk := none } }

/-- The state whose next step fetches and runs a wire element (log 11). -/
def placeElement (i : Instr) (s : State) : State :=
  let s := placeBits (encode noCodes i) s
  match i with
  | .streamHeader _ => standAt .expectStreamHeader none s
  | .blockMagic => standAt .expectBlockHeader none s
  | .eosMagic => standAt .expectBlockHeader none s
  | .combinedCrc _ => standAt .expectStreamTrailer none s
  | .blockCrc _ => standAt .expectBlockHeader (some (placedScratch .blockCrc)) s
  | .rand _ => standAt .expectBlockHeader (some (placedScratch .rand)) s
  | .origPtr _ => standAt .expectBlockHeader (some (placedScratch .origPtr)) s
  | .inUse16 _ => standAt .expectBlockHeader (some (placedScratch .inUse16)) s
  | .inUseWord _ => standAt .expectBlockHeader (some (placedScratch .inUseWord)) s
  | .nGroups _ => standAt .expectBlockHeader (some (placedScratch .nGroups)) s
  | .nSelectors _ => standAt .expectBlockHeader (some (placedScratch .nSelectors)) s
  | .selectorMtf _ => standAt .expectBlockHeader (some (placedScratch .selector)) s
  | .lenStart _ => standAt .expectBlockHeader (some (placedScratch .lenStart)) s
  | .lenInc | .lenDec | .lenStop => standAt .expectBlockHeader (some (placedScratch .lenAdjust)) s
  | .huffSymbol _ => standAt .expectBlockHeader (some (placedScratch .symbol)) s
  | .pad _ | .nop | .reset | .bwWriteBits _ | .bwFinish | .brReadBits _ | .crcReset | .crcUpdate _
  | .crcValue | .crcCombReset | .crcCombine | .encInit _ | .encWrite _ | .encClose | .decInit
  | .decRead => s

/-- A row's word where the next step fetches it: a command word as the host's next write to CMD, a wire
element as the source's next bits with the decoder standing at it. -/
def placeWord (nbits w : Nat) (s : State) : State :=
  match decodeTableWord nbits w with
  | some i =>
    if i.isCommand then
      { s with reading := false, host := cmdWrite (BitVec.ofNat 32 w) :: s.host }
    else placeElement i s
  | none => { s with reading := false, host := cmdWrite (BitVec.ofNat 32 w) :: s.host }

end Sys2Proof.Machine
end

