-- ==== Sys2Proof/Machine/Step.lean ====
section
/-! DEFINITION. One step. Between commands it serves the host's next register access, and a command runs to
completion in it (10_state R23, 20_memory R69). In a state inside a DEC_READ it goes on with that command by
one turn of its loop; no step from a state between commands leads to such a state (log 2). -/

namespace Sys2Proof.Machine

def step (s : State) : Host.Outcome State Fault Refusal :=
  if s.reading then readStep s else hostStep s

/-- `s` with the instruction of a row's word placed where `step` fetches its next instruction (log 11). -/
def State.withFetchWord (s : State) (nbits w : Nat) : State := placeWord nbits w s

end Sys2Proof.Machine
end

