-- ==== Sys2Proof/Safety.lean ====
section
/-! DEFINITION. The states a run can be in: the bounds and relations 10_state R32..R40 gives the fields, as
decidable propositions, and what a safe step is. -/

namespace Sys2Proof.Machine

/-- `bw.nbits ≤ 7` (10_state R32). -/
abbrev Writer.Ok (w : Writer) : Prop := w.acc.length ≤ 7

/-- `br.nbits ≤ 31` (10_state R33); the position is within the source (20_memory R61). -/
abbrev Reader.Ok (r : Reader) : Prop := r.acc.length ≤ 31 ∧ r.pos ≤ r.src.length

/-- Whether the encoder was ever opened since reset (44_stream_encoder R250). -/
def EncState.started : EncState → Bool
  | .idle => false
  | .opened => true
  | .closed => true
  | .faulted => true

/-- The encoder between commands (10_state R35, R36; 44 R250..R258). -/
abbrev Encoder.Ok (e : Encoder) : Prop :=
  e.k ≤ 9 ∧ (e.state.started = true → 1 ≤ e.k) ∧
  (e.run = 0 ↔ e.cur = none) ∧ e.run ≤ 255 ∧ (e.state = .opened → e.run ≤ 254) ∧
  e.block.length ≤ capEnc e.k ∧
  (e.state ≠ .opened ∧ e.state ≠ .faulted → e.cur = none ∧ e.block = []) ∧
  e.cause = (if e.state = .faulted then some .sortStackOverflow else none) ∧
  e.scratch = none

/-- The causes DEC_READ can fault with (60_exceptions R341). -/
def isDecodeFault : Cause → Bool
  | .illegalCommand => false
  | .commandStateError => false
  | .badOperand => false
  | .badStreamMagic => true
  | .badBlockSizeDigit => true
  | .badBlockMagic => true
  | .noSymbolsInUse => true
  | .badGroupCount => true
  | .badSelectorCount => true
  | .badSelector => true
  | .badCodeLength => true
  | .selectorsExhausted => true
  | .codeTooLong => true
  | .symbolOutOfRange => true
  | .blockOverflow => true
  | .badOrigPtr => true
  | .blockCrcMismatch => true
  | .streamCrcMismatch => true
  | .unexpectedEndOfInput => true
  | .badBlockSize => false
  | .sortStackOverflow => false

/-- The block being delivered (10_state R37): the chain stays inside the block, and there is a byte to repeat
whenever one is due. -/
abbrev DecBlock.Ok (k : Nat) (b : DecBlock) : Prop :=
  b.origPtr < b.last.length ∧ b.last.length ≤ capDec k ∧ b.tt.length = b.last.length ∧
  (∀ q ∈ b.tt, q < b.last.length) ∧ b.p < b.last.length ∧ b.i ≤ b.last.length ∧
  b.rTPos < 512 ∧ b.cnt ≤ 4 ∧ b.rep ≤ 255 ∧
  (0 < b.rep → b.cnt = 0) ∧ (0 < b.cnt ∨ 0 < b.rep → b.prev.isSome = true)

/-- The places of a block up to and including the mapping. -/
def beforeTables : BlockPos → Bool
  | .blockCrc => true
  | .rand => true
  | .origPtr => true
  | .inUse16 => true
  | .inUseWord => true
  | .nGroups => false
  | .nSelectors => false
  | .selector => false
  | .lenStart => false
  | .lenAdjust => false
  | .symbol => false

/-- The places of a block from the code lengths on. -/
def afterSelectors : BlockPos → Bool
  | .blockCrc => false
  | .rand => false
  | .origPtr => false
  | .inUse16 => false
  | .inUseWord => false
  | .nGroups => false
  | .nSelectors => false
  | .selector => false
  | .lenStart => true
  | .lenAdjust => true
  | .symbol => true

/-- A table of decode tables: one symbol of `perm` for each of the alphabet, every length in 1..20
(43_huffman R225, R226). -/
abbrev DecTable.Ok (alphaSize : Nat) (t : DecTable) : Prop :=
  1 ≤ t.minLen ∧ t.minLen ≤ t.maxLen ∧ t.maxLen ≤ maxCodeLen ∧ t.perm.length = alphaSize ∧
  ∀ v ∈ t.perm, v < alphaSize

/-- The mapping of a block section (43_huffman R220): room for 16 bytes in each word still to come, 256 in
all, and at least one byte once the mapping is read. -/
abbrev DecScratch.MappingOk (sc : DecScratch) : Prop :=
  sc.seqToUnseq.length + 16 * sc.mapLeft.length ≤ 256 ∧ (∀ g ∈ sc.mapLeft, g < 16) ∧
  (sc.pos = .inUseWord → sc.mapLeft ≠ []) ∧
  (beforeTables sc.pos = false → sc.seqToUnseq ≠ [])

/-- The counts and selectors of a block section (43_huffman R221..R224): every selector names a table. -/
abbrev DecScratch.SelectorsOk (sc : DecScratch) : Prop :=
  (sc.pos = .nSelectors ∨ sc.pos = .selector ∨ afterSelectors sc.pos = true →
    2 ≤ sc.nGroups ∧ sc.nGroups ≤ 6) ∧
  (sc.pos = .selector ∨ afterSelectors sc.pos = true →
    1 ≤ sc.nSelectors ∧ sc.nSelectors ≤ maxSelectors ∧ sc.selList.length = sc.nGroups) ∧
  (∀ t ∈ sc.selList, t < sc.nGroups) ∧ (∀ t ∈ sc.selector, t < sc.nGroups) ∧
  (sc.pos ≠ .selector ∧ afterSelectors sc.pos = false → sc.selList = [] ∧ sc.selector = []) ∧
  (sc.pos = .selector → sc.selector.length < sc.nSelectors) ∧
  (afterSelectors sc.pos = true → sc.selector.length = sc.nSelectors)

/-- The code lengths and tables of a block section (43_huffman R225, R226): every length is in 1..20. -/
abbrev DecScratch.LengthsOk (sc : DecScratch) : Prop :=
  (∀ l ∈ sc.row, 1 ≤ l ∧ l ≤ maxCodeLen) ∧
  (sc.pos = .lenAdjust →
    1 ≤ sc.curr ∧ sc.curr ≤ maxCodeLen ∧ sc.row.length < alphaSizeOf sc.seqToUnseq.length) ∧
  sc.lens.length = sc.tables.length ∧
  (∀ t ∈ sc.tables, t.Ok (alphaSizeOf sc.seqToUnseq.length)) ∧
  (afterSelectors sc.pos = false → sc.tables = []) ∧
  (sc.pos = .lenStart ∨ sc.pos = .lenAdjust → sc.tables.length < sc.nGroups)

/-- The symbol section (43_huffman R228, 45_stream_decoder R287..R289): the block in the making keeps to
CAP_DEC. -/
abbrev DecScratch.SymbolsOk (k : Nat) (sc : DecScratch) : Prop :=
  (sc.pos = .symbol →
    sc.tables.length = sc.nGroups ∧ sc.mtfList.length = sc.seqToUnseq.length ∧
    sc.left ≤ groupSize ∧ sc.groupsUsed ≤ sc.nSelectors) ∧
  (sc.pos ≠ .symbol → sc.out = [] ∧ sc.run = none ∧ sc.left = 0 ∧ sc.groupsUsed = 0) ∧
  sc.out.length ≤ capDec k ∧ sc.run.getD 0 ≤ capDec k

/-- The per-block tables while a block section is parsed (10_state R38, R40). -/
def DecScratch.ok (k : Nat) (sc : DecScratch) : Bool :=
  decide sc.MappingOk && decide sc.SelectorsOk && decide sc.LengthsOk && decide (sc.SymbolsOk k)

/-- The decoder states held between commands (45_stream_decoder R280). -/
def DecState.held : DecState → Bool
  | .idle => true
  | .expectStreamHeader => true
  | .expectBlockHeader => false
  | .decodingBlock => true
  | .expectStreamTrailer => false
  | .done => true
  | .faulted => true

/-- The decoder states in which a DEC_READ in progress has something to do (45 R282). -/
def DecState.busy : DecState → Bool
  | .idle => false
  | .expectStreamHeader => true
  | .expectBlockHeader => true
  | .decodingBlock => true
  | .expectStreamTrailer => true
  | .done => false
  | .faulted => false

/-- The decoder, between commands or, with `reading`, inside a DEC_READ (10_state R37, R38; 45 R280, R299). -/
abbrev Decoder.Ok (reading : Bool) (d : Decoder) : Prop :=
  ((reading = false → d.state.held = true) ∧ (reading = true → d.state.busy = true)) ∧
  (d.k ≤ 9 ∧
    (d.state = .decodingBlock ∨ d.state = .expectBlockHeader ∨ d.state = .expectStreamTrailer →
      1 ≤ d.k)) ∧
  ((d.state = .decodingBlock ↔ d.blk.isSome = true) ∧ (∀ b ∈ d.blk, b.Ok d.k)) ∧
  ((d.scratch.isSome = true → d.state = .expectBlockHeader) ∧ (∀ sc ∈ d.scratch, sc.ok d.k = true)) ∧
  ((d.state = .faulted ↔ d.cause.isSome = true) ∧ (∀ c ∈ d.cause, isDecodeFault c = true))

/-- The invariant of the whole machine. -/
abbrev State.Inv (s : State) : Prop :=
  s.bw.Ok ∧ s.br.Ok ∧ s.enc.Ok ∧ s.dec.Ok s.reading

/-- Whether an access is one the core serves (10_state R30). -/
abbrev HostAccess.Aligned (a : HostAccess) : Prop := a.bytes = 4 ∧ a.offset % 4 = 0

/-- A safe outcome: a next state, or the refusal of an access that is not an aligned word. -/
def SafeOutcome (s : State) (o : Host.Outcome State Fault Refusal) : Prop :=
  match o with
  | .next _ => True
  | .fault _ => False
  | .refused r => r = .accessWidth ∧ ∃ a rest, s.host = a :: rest ∧ ¬ a.Aligned

end Sys2Proof.Machine
end

