-- ==== Sys2Proof/Certificates/Slice0/Obligations.lean ====
section
/-! DEFINITION. The statements about the model, from the spec's numbered rules. -/

open Sys2Proof Sys2Proof.Machine

namespace Sys2Proof.Claims

/-- The state after a command that only records a cause (60_exceptions R343). -/
def recorded (c : Cause) (s : State) : State :=
  { s with lastCause := some c, result := 0xFFFFFFFE }

/-- The state after a fault inside ENC_WRITE or ENC_CLOSE (44_stream_encoder R258). -/
def encFaulted (c : Cause) (s : State) : State :=
  { s with
    lastCause := some c
    result := 0xFFFFFFFE
    enc := { s.enc with state := .faulted, cause := some c, scratch := none } }

/-- The state after a fault inside DEC_READ (45_stream_decoder R299); the block state is `none` outside a block. -/
def decFaulted (c : Cause) (s : State) : State :=
  { s with
    lastCause := some c
    result := 0xFFFFFFFE
    reading := false
    dec := { s.dec with state := .faulted, cause := some c, blk := none, scratch := none } }

/-- The opcodes of 30_encoding R101 whose `F` is an operand. -/
def operandOps : List Nat := [0x10, 0x18, 0x21, 0x30, 0x31]

/-- The opcodes of 30_encoding R101 whose `F` must be 0. -/
def plainOps : List Nat := [0x00, 0x01, 0x11, 0x20, 0x22, 0x23, 0x24, 0x32, 0x38, 0x39]

/-- Rotation `z` of a block (42_block_encoder R170). -/
def rotation (block : List Byte) (z : Nat) : List Byte := block.drop z ++ block.take z

/-- The bytes of `n` chain steps (45_stream_decoder R292). -/
def walk : Nat → DecBlock → List Byte
  | 0, _ => []
  | n + 1, b =>
    match nextBlockByte b with
    | some { byte := some c, blk := b } => c :: walk n b
    | _ => []

/-- The bytes of `n` un-randomised chain steps (45_stream_decoder R293). -/
def walkRaw (rand : Bool) : Nat → DecBlock → List Byte
  | 0, _ => []
  | n + 1, b =>
    match nextRaw rand b with
    | some { byte := some c, blk := b } => c :: walkRaw rand n b
    | _ => []

/-- The bytes `n` pulls deliver, up to the end of the block (45_stream_decoder R294). -/
def pulled (rand : Bool) : Nat → DecBlock → List Byte
  | 0, _ => []
  | n + 1, b =>
    match nextByte rand b with
    | some { byte := some c, blk := b } => c :: pulled rand n b
    | _ => []

/-- A segmentation into runs (42_block_encoder R161): every run is 1 to 255 long, and the next run is of another
byte unless this one is 255 long. -/
def segmented : List (Byte × Nat) → Prop
  | [] => True
  | [x] => 1 ≤ x.2 ∧ x.2 ≤ 255
  | x :: y :: rest => (1 ≤ x.2 ∧ x.2 ≤ 255) ∧ (x.1 ≠ y.1 ∨ x.2 = 255) ∧ segmented (y :: rest)

/-- The loop of `DecodeSymbols` on symbols that are not EOB, without its length checks (45_stream_decoder
R287). -/
def takeSymbols (syms : List Nat) (sc : DecScratch) : DecScratch :=
  syms.foldl (fun sc v => if v = 0 ∨ v = 1 then addRunDigit v sc else takeRank v (flushZeroRun sc)) sc

/-- The selector MTF inverse (43_huffman R224). -/
def selectorsOf : List Nat → List Nat → List Nat
  | _, [] => []
  | pos, j :: js => pos.getD j 0 :: selectorsOf (moveToFront pos j) js

/-- Where the decoder must stand for an element to be the next one, with the operand in its range where the
element's bits depend on it (30_encoding R80..R89). HUFF_SYMBOL has a statement of its own. -/
def standsFor (d : Decoder) (i : Instr) : Prop :=
  match i with
  | .streamHeader _ => d.state = .expectStreamHeader
  | .blockMagic => d.state = .expectBlockHeader ∧ d.scratch = none
  | .eosMagic => d.state = .expectBlockHeader ∧ d.scratch = none
  | .combinedCrc _ => d.state = .expectStreamTrailer
  | .blockCrc _ => d.state = .expectBlockHeader ∧ ∃ sc, d.scratch = some sc ∧ sc.pos = .blockCrc
  | .rand _ => d.state = .expectBlockHeader ∧ ∃ sc, d.scratch = some sc ∧ sc.pos = .rand
  | .origPtr _ => d.state = .expectBlockHeader ∧ ∃ sc, d.scratch = some sc ∧ sc.pos = .origPtr
  | .inUse16 _ => d.state = .expectBlockHeader ∧ ∃ sc, d.scratch = some sc ∧ sc.pos = .inUse16
  | .inUseWord _ => d.state = .expectBlockHeader ∧ ∃ sc, d.scratch = some sc ∧ sc.pos = .inUseWord
  | .nGroups _ => d.state = .expectBlockHeader ∧ ∃ sc, d.scratch = some sc ∧ sc.pos = .nGroups
  | .nSelectors _ => d.state = .expectBlockHeader ∧ ∃ sc, d.scratch = some sc ∧ sc.pos = .nSelectors
  | .selectorMtf j =>
    d.state = .expectBlockHeader ∧ ∃ sc, d.scratch = some sc ∧ sc.pos = .selector ∧ j < sc.nGroups
  | .lenStart _ => d.state = .expectBlockHeader ∧ ∃ sc, d.scratch = some sc ∧ sc.pos = .lenStart
  | .lenInc => d.state = .expectBlockHeader ∧ ∃ sc, d.scratch = some sc ∧ sc.pos = .lenAdjust
  | .lenDec => d.state = .expectBlockHeader ∧ ∃ sc, d.scratch = some sc ∧ sc.pos = .lenAdjust
  | .lenStop => d.state = .expectBlockHeader ∧ ∃ sc, d.scratch = some sc ∧ sc.pos = .lenAdjust
  | .huffSymbol _ => False
  | .pad _ => False
  | .nop | .reset | .bwWriteBits _ | .bwFinish | .brReadBits _ | .crcReset | .crcUpdate _ | .crcValue
  | .crcCombReset | .crcCombine | .encInit _ | .encWrite _ | .encClose | .decInit | .decRead => False

/-- A DEC_READ is in progress and the decoder stands at place `p` of a block, with tables `sc`. -/
def standsAt (p : BlockPos) (sc : DecScratch) (s : State) : Prop :=
  s.reading = true ∧ s.dec.state = .expectBlockHeader ∧ s.dec.scratch = some sc ∧ sc.pos = p

/-- The state with new block tables. -/
def withTables (sc : DecScratch) (s : State) : State :=
  { s with dec := { s.dec with scratch := some sc } }

/-- Everything but the decoder, the reader, RESULT, LAST_CAUSE and the progress of DEC_READ is the same. -/
def onlyDecoder (s t : State) : Prop :=
  t.arg0 = s.arg0 ∧ t.bw = s.bw ∧ t.crcx = s.crcx ∧ t.enc = s.enc ∧ t.host = s.host ∧
  t.observed = s.observed ∧ t.sortFaults = s.sortFaults

/-- Everything but the encoder, the writer, RESULT and LAST_CAUSE is the same. -/
def onlyEncoder (s t : State) : Prop :=
  t.arg0 = s.arg0 ∧ t.br = s.br ∧ t.crcx = s.crcx ∧ t.dec = s.dec ∧ t.reading = s.reading ∧
  t.host = s.host ∧ t.observed = s.observed ∧ t.sortFaults = s.sortFaults

/-- The causes a command can end with (60_exceptions R341). The decode check IllegalCommand is made before
there is a command. -/
def commandCauses : Instr → List Cause
  | .bwWriteBits _ => [.badOperand, .commandStateError]
  | .bwFinish => [.commandStateError]
  | .brReadBits _ => [.badOperand, .commandStateError, .unexpectedEndOfInput]
  | .encInit _ => [.badBlockSize]
  | .encWrite _ => [.commandStateError, .sortStackOverflow]
  | .encClose => [.commandStateError, .sortStackOverflow]
  | .decRead =>
    [.commandStateError, .badStreamMagic, .badBlockSizeDigit, .badBlockMagic, .noSymbolsInUse,
      .badGroupCount, .badSelectorCount, .badSelector, .badCodeLength, .selectorsExhausted,
      .codeTooLong, .symbolOutOfRange, .blockOverflow, .badOrigPtr, .blockCrcMismatch,
      .streamCrcMismatch, .unexpectedEndOfInput]
  | .nop | .reset | .crcReset | .crcUpdate _ | .crcValue | .crcCombReset | .crcCombine | .decInit => []
  | .streamHeader _ | .blockMagic | .blockCrc _ | .rand _ | .origPtr _ | .inUse16 _ | .inUseWord _
  | .nGroups _ | .nSelectors _ | .selectorMtf _ | .lenStart _ | .lenInc | .lenDec | .lenStop
  | .huffSymbol _ | .eosMagic | .combinedCrc _ | .pad _ => []

/-- The mapping of a set of byte values: INUSE16, then a word for each group with a byte in use, ascending
(30_encoding R83, 43_huffman R212). -/
def mappingBits (used : List Byte) : List Bool :=
  (List.range 16).map (fun i => used.any fun c => c.toNat / 16 = i) ++
    ((List.range 16).filter fun i => used.any fun c => c.toNat / 16 = i).flatMap fun i =>
      (List.range 16).map fun j => used.contains (BitVec.ofNat 8 (16 * i + j))

/-- The code lengths of a table from the running length `curr` on: increments, decrements, a stop
(43_huffman R213). -/
def lengthBits : Nat → List Nat → List Bool
  | _, [] => []
  | curr, l :: ls =>
    (List.replicate (l - curr) [true, false]).flatten ++ (List.replicate (curr - l) [true, true]).flatten ++ [false] ++
      lengthBits l ls

/-- The bits the encoder emits for a block with the CRC register of its raw bytes, field by field: BLOCK_MAGIC, the
block CRC, the randomised bit, `origPtr`, the mapping, `nGroups`, `nSelectors`, the selector MTF values in unary, each
table's lengths from its first symbol's, and each symbol under the canonical code of the table its group of 50 selects
(44_stream_encoder R254, 43_huffman R212..R214, 42_block_encoder R165..R181). -/
def emitted (crc : Word) (block : List Byte) : List Bool :=
  let masked := maskBlock (randomise block) block
  let used := ((List.range 256).map (BitVec.ofNat 8)).filter fun c => masked.contains c
  let zptr := sortRotations masked
  let syms := (mtfSymbols (lastColumn masked zptr) used 0).1 ++ [used.length + 1]
  let tables := selectTables syms ((List.range (used.length + 2)).map fun v => syms.count v) (used.length + 2)
  let row := fun i => tables.1.getD (tables.2.getD (i / 50) 0) []
  bitsOf 48 0x314159265359 ++ bitsOf 32 (crc ^^^ 0xFFFFFFFF).toNat ++ [randomise block] ++
    bitsOf 24 (zptr.idxOf 0) ++ mappingBits used ++ bitsOf 3 tables.1.length ++ bitsOf 15 tables.2.length ++
    (selectorMtfValues tables.1.length tables.2).flatMap (fun j => List.replicate j true ++ [false]) ++
    tables.1.flatMap (fun lens => bitsOf 5 (lens.headD 0) ++ lengthBits (lens.headD 0) lens) ++
    (List.range syms.length).flatMap fun i =>
      bitsOf ((row i).getD (syms.getD i 0) 0) ((canonicalCodes (row i)).getD (syms.getD i 0) 0)

/-- The cause codes of 60_exceptions R341. -/
def causeCodes : List (Cause × BitVec 8) :=
  [(.illegalCommand, 0x01), (.commandStateError, 0x02), (.badOperand, 0x03), (.badStreamMagic, 0x10),
    (.badBlockSizeDigit, 0x11), (.badBlockMagic, 0x12), (.noSymbolsInUse, 0x13), (.badGroupCount, 0x14),
    (.badSelectorCount, 0x15), (.badSelector, 0x16), (.badCodeLength, 0x17), (.selectorsExhausted, 0x18),
    (.codeTooLong, 0x20), (.symbolOutOfRange, 0x21), (.blockOverflow, 0x22), (.badOrigPtr, 0x23),
    (.blockCrcMismatch, 0x30), (.streamCrcMismatch, 0x31), (.unexpectedEndOfInput, 0x40), (.badBlockSize, 0x50),
    (.sortStackOverflow, 0x51)]

/-- A cause field shows a cause's code, and 0 where there is none (60_exceptions R341). -/
def showsCause (field : BitVec 8) (c : Option Cause) : Prop :=
  (c = none → field = 0x00) ∧ ∀ x ∈ causeCodes, c = some x.1 → field = x.2

/-- The DEC_STATE codes of 10_state R24. -/
def decStateCodes : List (DecState × BitVec 3) :=
  [(.idle, 0), (.expectStreamHeader, 1), (.expectBlockHeader, 2), (.decodingBlock, 3), (.expectStreamTrailer, 4),
    (.done, 5), (.faulted, 6)]

/-- The ENC_STATE codes of 10_state R24. -/
def encStateCodes : List (EncState × BitVec 2) := [(.idle, 0), (.opened, 1), (.closed, 2), (.faulted, 3)]

/-- The next symbol of a block is in group `g`, and a selector is left for it (43_huffman R228). -/
def inGroup (sc : DecScratch) (g : Nat) : Prop :=
  g < sc.nSelectors ∧ (sc.left = 0 ∧ g = sc.groupsUsed ∨ sc.left ≠ 0 ∧ sc.groupsUsed = g + 1)

/-- How many positions the first `k` entries of RNUMS take up, entry 511 followed by entry 0 (42_block_encoder
R168). -/
def countdown (k : Nat) : Nat := ((List.range k).map fun j => rnums.getD (j % 512) 0).sum

/-- The state after `n` turns of the loop of DEC_READ, each from a state inside it (45_stream_decoder R282). -/
def turns : Nat → State → Option State
  | 0, s => some s
  | n + 1, s =>
    if s.reading then
      match step s with
      | .next t => turns n t
      | _ => none
    else none

/-- The encoder with its pending run of `c` moved into the block and the CRC (44_stream_encoder R253). -/
def runMoved (c : Byte) (e : Encoder) : Encoder :=
  { e with
    block := e.block ++ runBytes c e.run
    crc := (List.replicate e.run c).foldl crcUpdate e.crc
    cur := none
    run := 0 }

/-- The blocks ENC_CLOSE emits, each with its CRC register: a pending run first moves into the block, or closes it
and starts another (44_stream_encoder R253, R256). -/
def closing (e : Encoder) : List (Word × List Byte) :=
  match e.cur with
  | none => if e.block = [] then [] else [(e.crc, e.block)]
  | some c =>
    if 100000 * e.k - 20 < e.block.length + (runBytes c e.run).length then
      [(e.crc, e.block), ((List.replicate e.run c).foldl crcUpdate 0xFFFFFFFF, runBytes c e.run)]
    else [((List.replicate e.run c).foldl crcUpdate e.crc, e.block ++ runBytes c e.run)]

/-- The combined CRC after the blocks `bs` (41_crc R145). -/
def combined (comb : Word) (bs : List (Word × List Byte)) : Word :=
  bs.foldl (fun m x => m.rotateLeft 1 ^^^ (x.1 ^^^ 0xFFFFFFFF)) comb

/-- The tables after one more symbol of the group, or the first of a new one (43_huffman R228). -/
def advanced (sc : DecScratch) : DecScratch :=
  { sc with
    groupsUsed := if sc.left = 0 then sc.groupsUsed + 1 else sc.groupsUsed
    left := (if sc.left = 0 then 50 else sc.left) - 1 }

/-- The bytes of a block with its pending zero run (45_stream_decoder R287). -/
def flushed (sc : DecScratch) : List Byte :=
  sc.out ++ List.replicate (sc.run.getD 0) (sc.mtfList.headD 0)

/-- The decoder after EndBlock's match (45_stream_decoder R296). -/
def closedBlock (d : Decoder) : Decoder :=
  { d with
    state := .expectBlockHeader
    comb := d.comb.rotateLeft 1 ^^^ d.stored
    blocks := d.blocks + 1
    crc := 0xFFFFFFFF
    blk := none }

end Sys2Proof.Claims

open Sys2Proof.Claims

/-! ## Steps and decoding -/

/-- 10_state R23, 30_encoding R102, 60_exceptions R343: a host write to CMD is one step, which runs the command the
word decodes to, or records the decode check's cause and does nothing else. -/
def Obligations.StepRunsTheCommandWritten : Prop :=
  ∀ (s : State) (w : Word) (rest : List HostAccess), s.reading = false →
    s.host = { offset := 0x00, bytes := 4, op := .write w } :: rest →
    (∀ i, decodeCmd w = .ok i → step s = exec i { s with host := rest }) ∧
    (∀ c, decodeCmd w = .error c → step s = .next (recorded c { s with host := rest }))

/-- 45_stream_decoder R282, R299: inside a DEC_READ, a step runs the wire element the decoder fetches, on the reader
after the fetch; where the fetch raises a cause, the decoder faults with it. That a step can be taken inside a
DEC_READ is the model's own (log 2). -/
def Obligations.StepRunsTheElementFetched : Prop :=
  ∀ (s : State), s.reading = true → s.dec.state ≠ .decodingBlock →
    (∀ i r, fetchElement s.dec s.br = some (.ok i, r) → step s = exec i { s with br := r }) ∧
    (∀ c r, fetchElement s.dec s.br = some (.error c, r) →
      step s = .next (decFaulted c { s with br := r }))

/-- 30_encoding R100, R101: words of the opcode map, written from the table, one for each command. -/
def Obligations.OpcodeMapWordsDecode : Prop :=
  decodeCmd 0x00000000 = .ok .nop ∧ decodeCmd 0x01000000 = .ok .reset ∧
  decodeCmd 0x10200000 = .ok (.bwWriteBits 32) ∧ decodeCmd 0x11000000 = .ok .bwFinish ∧
  decodeCmd 0x18210000 = .ok (.brReadBits 33) ∧ decodeCmd 0x20000000 = .ok .crcReset ∧
  decodeCmd 0x21FF0000 = .ok (.crcUpdate 0xFF) ∧ decodeCmd 0x22000000 = .ok .crcValue ∧
  decodeCmd 0x23000000 = .ok .crcCombReset ∧ decodeCmd 0x24000000 = .ok .crcCombine ∧
  decodeCmd 0x30090000 = .ok (.encInit 9) ∧ decodeCmd 0x31410000 = .ok (.encWrite 0x41) ∧
  decodeCmd 0x32000000 = .ok .encClose ∧ decodeCmd 0x38000000 = .ok .decInit ∧
  decodeCmd 0x39000000 = .ok .decRead

/-- 30_encoding R100..R103: for every command at every operand, its word decodes to it, and no other word
does. -/
def Obligations.CommandWordsDecodeAndEncodeAgree : Prop :=
  ∀ (i : Instr) (w : Word), encodeCmd i = some w ↔ decodeCmd w = .ok i

/-- 30_encoding R101, R102 checks 1 to 3: exactly the words with an opcode outside the map, a nonzero `Z`, or a
nonzero `F` where none is taken raise IllegalCommand, and no other decode cause exists. -/
def Obligations.IllegalWordsAreExactlyTheUndefined : Prop :=
  ∀ w : Word,
    ((∃ c, decodeCmd w = .error c) ↔
      (opField w).toNat ∉ operandOps ++ plainOps ∨ zField w ≠ 0 ∨
        ((opField w).toNat ∈ plainOps ∧ fField w ≠ 0)) ∧
    ∀ c, decodeCmd w = .error c → c = .illegalCommand

/-- 20_memory R63, R64: a field's value is the sum of its bits, the first bit the most significant, and writing a
value's low `n` bits and reading them back gives the value modulo `2^n`. -/
def Obligations.FieldsAreBigEndian : Prop :=
  (∀ bs : List Bool,
    valueOf bs = ((List.range bs.length).map fun i => (bs.getD i false).toNat * 2 ^ (bs.length - 1 - i)).sum) ∧
  (∀ n v i : Nat, i < n → (bitsOf n v)[i]? = some (v.testBit (n - 1 - i))) ∧
  (∀ n v : Nat, (bitsOf n v).length = n ∧ valueOf (bitsOf n v) = v % 2 ^ n)

/-- 30_encoding R80..R93, 43_huffman R220..R228, 45_stream_decoder R283, R285, R297: wherever the decoder stands,
an element that can stand there is fetched back from its encoded bits, at every operand, and exactly its bits
are consumed; a symbol's bits are its canonical code under the table its group's selector names. (PAD is never
fetched: R297.) -/
def Obligations.ElementsFetchBackFromTheirBits : Prop :=
  (∀ (d : Decoder) (r : Reader) (i : Instr) (rest : List Bool) (book : CodeBook), standsFor d i →
    r.bits = encode book i ++ rest →
    ∃ r', fetchElement d r = some (.ok i, r') ∧ r'.bits = rest ∧ r'.src = r.src) ∧
  ∀ (d : Decoder) (sc : DecScratch) (r : Reader) (rest : List Bool) (g t v : Nat) (lens : List Nat),
    d.state = .expectBlockHeader → d.scratch = some sc → sc.pos = .symbol → inGroup sc g →
    sc.selector[g]? = some t → sc.tables[t]? = some (buildDecTable lens) → (∀ l ∈ lens, 1 ≤ l ∧ l ≤ 20) →
    (lens.map fun l => 2 ^ (20 - l)).sum ≤ 2 ^ 20 → v < lens.length →
    r.bits = encode (bookOf lens (canonicalCodes lens)) (.huffSymbol v) ++ rest →
    ∃ r', fetchElement d r = some (.ok (.huffSymbol v), r') ∧ r'.bits = rest ∧ r'.src = r.src

/-- 43_huffman R208, R211, R226, R227, R229: under the decode tables of a set of code lengths in 1..20 that leaves
room for every code, the canonical code of a symbol is decoded to that symbol, and exactly its bits are consumed; and
the lengths the encoder builds for an alphabet are such a set. -/
def Obligations.CanonicalCodesDecodeBack : Prop :=
  (∀ (lens : List Nat) (v : Nat) (r : Reader) (rest : List Bool), (∀ l ∈ lens, 1 ≤ l ∧ l ≤ 20) →
    (lens.map fun l => 2 ^ (20 - l)).sum ≤ 2 ^ 20 → v < lens.length →
    r.bits = encode (bookOf lens (canonicalCodes lens)) (.huffSymbol v) ++ rest →
    ∃ r', decodeSymbol (buildDecTable lens) r = (.ok (.huffSymbol v), r') ∧ r'.bits = rest) ∧
  ∀ freq : List Nat, 2 ≤ freq.length → freq.length ≤ 258 →
    (makeCodeLengths freq 20).length = freq.length ∧ (∀ l ∈ makeCodeLengths freq 20, 1 ≤ l ∧ l ≤ 20) ∧
    ((makeCodeLengths freq 20).map fun l => 2 ^ (20 - l)).sum = 2 ^ 20

/-! ## The invariant and safety -/

/-- 70_reset R371, R372: the power-on state meets the invariant. -/
def Obligations.PowerOnMeetsTheInvariant : Prop := State.reset.Inv

/-- 10_state R32..R40, 44 R250..R258, 45 R280..R299: every step, of a command or inside a DEC_READ, keeps the bounds
and relations of the state. -/
def Obligations.EveryStepKeepsTheInvariant : Prop :=
  ∀ s t : State, s.Inv → step s = .next t → t.Inv

/-- 93 Part 1 rows 8 and 9: from a state that meets the invariant no step needs a value that is `none`, runs an
element out of place or exhausts a loop bound; it gives a next state, or refuses an access that is not an
aligned word. -/
def Obligations.NoStepFaults : Prop := ∀ s : State, s.Inv → SafeOutcome s (step s)

/-- 10_state R23, 20_memory R69, 45 R280: a step from between commands ends between commands: no command is left
half done, and the states "only inside DEC_READ" are not seen. -/
def Obligations.CommandsRunToCompletion : Prop :=
  ∀ s t : State, s.Inv → s.reading = false → step s = .next t →
    t.reading = false ∧ t.dec.state ≠ .expectBlockHeader ∧ t.dec.state ≠ .expectStreamTrailer ∧
    t.enc.scratch = none ∧ t.dec.scratch = none

/-- 20_memory R61, R62: the sink only grows at its end, the source is fixed, and its position never goes back; nothing,
not even RESET or DEC_INIT, changes that. -/
def Obligations.SinkOnlyGrowsAndSourceNeverRewinds : Prop :=
  ∀ s t : State, step s = .next t →
    s.bw.sink <+: t.bw.sink ∧ t.br.src = s.br.src ∧ s.br.pos ≤ t.br.pos

/-! ## Bit input and output -/

/-- 40_bitio R120, R121: WriteBits appends the low `n` bits of `v`, most significant first, pushes every byte that
completes and keeps the rest. -/
def Obligations.WriteBitsAppendsMsbFirst : Prop :=
  ∀ (n v : Nat) (w : Writer), w.acc.length ≤ 7 →
    (writeBits n v w).bits = w.bits ++ (List.range n).map (fun i => v.testBit (n - 1 - i)) ∧
    (writeBits n v w).acc.length = (w.acc.length + n) % 8 ∧
    (writeBits n v w).sink.length = w.sink.length + (w.acc.length + n) / 8 ∧
    (writeBits n v w).count = w.count + (w.acc.length + n) / 8

/-- 40_bitio R125: BW_WRITEBITS is the word `0x10nn0000`; it refuses `n > 32`, then an Open encoder; else it appends
`n` bits of ARG0 and changes nothing else but LAST_CAUSE. -/
def Obligations.BwWriteBitsFollowsItsRule : Prop :=
  ∀ (s : State) (n : BitVec 8), s.bw.acc.length ≤ 7 →
    decodeCmd (0x10#8 ++ n ++ 0#16) = .ok (.bwWriteBits n) ∧
    (32 < n.toNat → exec (.bwWriteBits n) s = .next (recorded .badOperand s)) ∧
    (n.toNat ≤ 32 → s.enc.state = .opened →
      exec (.bwWriteBits n) s = .next (recorded .commandStateError s)) ∧
    (n.toNat ≤ 32 → s.enc.state ≠ .opened →
      ∃ w, exec (.bwWriteBits n) s = .next { s with bw := w, lastCause := none } ∧
        w.bits = s.bw.bits ++ bitsOf n.toNat s.arg0.toNat ∧
        w.acc.length = (s.bw.acc.length + n.toNat) % 8 ∧
        w.count = s.bw.count + (s.bw.acc.length + n.toNat) / 8)

/-- 40_bitio R122, R126: BW_FINISH is the word `0x11000000`; it refuses an Open encoder; else it pushes the partial
byte, zero-padded in the low bits, and nothing if there is none. -/
def Obligations.BwFinishFollowsItsRule : Prop :=
  ∀ s : State, s.bw.acc.length ≤ 7 →
    decodeCmd 0x11000000 = .ok .bwFinish ∧
    (s.enc.state = .opened → exec .bwFinish s = .next (recorded .commandStateError s)) ∧
    (s.enc.state ≠ .opened →
      ∃ w, exec .bwFinish s = .next { s with bw := w, lastCause := none } ∧
        w.bits = s.bw.bits ++ List.replicate ((8 - s.bw.acc.length) % 8) false ∧ w.acc = [] ∧
        w.count = s.bw.count + (if s.bw.acc = [] then 0 else 1))

/-- 40_bitio R123, R124, R127: BR_READBITS is the word `0x18nn0000`; it refuses `n > 32`, then a decoder in progress; else it
returns the next `n` bits and pulls only the bytes it needs, or, where the source ends first, raises UnexpectedEndOfInput with every pulled bit
kept and none consumed, and leaves the decoder as it was. -/
def Obligations.BrReadBitsFollowsItsRule : Prop :=
  ∀ (s : State) (n : BitVec 8), s.br.pos ≤ s.br.src.length →
    decodeCmd (0x18#8 ++ n ++ 0#16) = .ok (.brReadBits n) ∧
    (32 < n.toNat → exec (.brReadBits n) s = .next (recorded .badOperand s)) ∧
    (n.toNat ≤ 32 → s.dec.state.busy = true →
      exec (.brReadBits n) s = .next (recorded .commandStateError s)) ∧
    (n.toNat ≤ 32 → s.dec.state.busy = false → n.toNat ≤ s.br.bits.length →
      ∃ r : Reader,
        exec (.brReadBits n) s =
          .next { s with
            br := r, lastCause := none, result := BitVec.ofNat 32 (valueOf (s.br.bits.take n.toNat)) } ∧
        r.bits = s.br.bits.drop n.toNat ∧ r.src = s.br.src ∧
        r.pos = s.br.pos + (n.toNat - s.br.acc.length + 7) / 8 ∧
        r.count = s.br.count + (n.toNat - s.br.acc.length + 7) / 8) ∧
    (n.toNat ≤ 32 → s.dec.state.busy = false → s.br.bits.length < n.toNat →
      exec (.brReadBits n) s =
        .next (recorded .unexpectedEndOfInput
          { s with
            br :=
              { acc := s.br.bits
                src := s.br.src
                pos := s.br.src.length
                count := s.br.count + (s.br.src.length - s.br.pos) } }))

/-! ## CRC -/

/-- 41_crc R142: the table update, and that it is the bit-serial one: XOR the byte into the top, then eight steps. -/
def Obligations.CrcUpdateIsBitSerial : Prop :=
  ∀ (c : Word) (b : Byte),
    crcUpdate c b = (c <<< 8) ^^^ crcTable (((c >>> 24) ^^^ b.setWidth 32) &&& 0xFF) ∧
    crcUpdate c b = crcStep^[8] (c ^^^ (b.setWidth 32 <<< 24))

/-- 41_crc R140, R141: the check value of the nine bytes "123456789", and the table's spot values. -/
def Obligations.CrcCheckValues : Prop :=
  crcValue ([0x31, 0x32, 0x33, 0x34, 0x35, 0x36, 0x37, 0x38, 0x39].foldl crcUpdate crcSeed) = 0xFC891918 ∧
  crcTable 0x00 = 0x00000000 ∧ crcTable 0x01 = 0x04C11DB7 ∧ crcTable 0x02 = 0x09823B6E ∧
  crcTable 0x80 = 0x690CE0EE ∧ crcTable 0xFF = 0xB1F740B4

/-- 41_crc R148..R152: each command on the standalone CRC unit has its word, and succeeds in every state with its register's
new value, RESULT where it returns one, and nothing else changed but LAST_CAUSE. -/
def Obligations.CrcCommandsFollowTheirRules : Prop :=
  decodeCmd 0x20000000 = .ok .crcReset ∧ (∀ b, decodeCmd (0x21#8 ++ b ++ 0#16) = .ok (.crcUpdate b)) ∧
  decodeCmd 0x22000000 = .ok .crcValue ∧ decodeCmd 0x23000000 = .ok .crcCombReset ∧
  decodeCmd 0x24000000 = .ok .crcCombine ∧
  ∀ s : State,
    exec .crcReset s = .next { s with lastCause := none, crcx := { reg := 0xFFFFFFFF, comb := s.crcx.comb } } ∧
    (∀ b, exec (.crcUpdate b) s =
      .next { s with lastCause := none, crcx := { reg := crcUpdate s.crcx.reg b, comb := s.crcx.comb } }) ∧
    exec .crcValue s = .next { s with lastCause := none, result := s.crcx.reg ^^^ 0xFFFFFFFF } ∧
    exec .crcCombReset s = .next { s with lastCause := none, crcx := { reg := s.crcx.reg, comb := 0 } } ∧
    exec .crcCombine s =
      .next { s with
        lastCause := none
        result := s.crcx.comb.rotateLeft 1 ^^^ s.arg0
        crcx := { reg := s.crcx.reg, comb := s.crcx.comb.rotateLeft 1 ^^^ s.arg0 } }

/-! ## Registers, NOP, RESET -/

/-- 10_state R24, 60_exceptions R341: the register at offset 0x04 shows the fields of STATUS, each with its codes. -/
def Obligations.StatusFieldsStandInTheirBits : Prop :=
  ∀ s : State,
    showsCause ((readOffset s 0x04).extractLsb' 0 8) s.lastCause ∧
    showsCause ((readOffset s 0x04).extractLsb' 8 8) s.enc.cause ∧
    showsCause ((readOffset s 0x04).extractLsb' 16 8) s.dec.cause ∧
    (∀ x ∈ decStateCodes, s.dec.state = x.1 → (readOffset s 0x04).extractLsb' 24 3 = x.2) ∧
    (∀ x ∈ encStateCodes, s.enc.state = x.1 → (readOffset s 0x04).extractLsb' 27 2 = x.2) ∧
    (readOffset s 0x04).getLsbD 29 = s.enc.rand ∧ (readOffset s 0x04).getLsbD 30 = s.dec.rand ∧
    ((readOffset s 0x04).getLsbD 31 = true ↔ s.lastCause ≠ none)

/-- 10_state R29: the register at offset 0x3C shows the fields of INFO. -/
def Obligations.InfoHoldsItsFields : Prop :=
  ∀ s : State, s.Inv →
    (readOffset s 0x3C).toNat =
      s.enc.k + 2 ^ 4 * s.dec.k + 2 ^ 8 * s.bw.acc.length + 2 ^ 16 * s.br.acc.length

/-- 10_state R22, R30, 20_memory R67: an aligned read returns the register's value and changes nothing; an aligned write
stores to ARG0, and is ignored by every offset but ARG0 and CMD; any other access is refused. Each offset of the window
shows its register: STATUS and INFO have statements of their own, the CRC registers show `CrcValue`, the counters
their low 32 bits, CMD reads 0. That offsets past the window are unmapped offsets, which read 0, is the model's own
(log 10). -/
def Obligations.RegisterWindowAccesses : Prop :=
  (∀ (s : State) (off bytes : Nat) (op : HostOp) (rest : List HostAccess), s.reading = false →
    s.host = { offset := off, bytes := bytes, op := op } :: rest →
    (bytes ≠ 4 ∨ off % 4 ≠ 0 → step s = .refused .accessWidth) ∧
    (bytes = 4 → off % 4 = 0 →
      (op = .read → step s = .next { s with host := rest, observed := s.observed ++ [readOffset s off] }) ∧
      (∀ v, op = .write v → off = 0x08 → step s = .next { s with host := rest, arg0 := v }) ∧
      (∀ v, op = .write v → off ≠ 0x08 → off ≠ 0x00 → step s = .next { s with host := rest }))) ∧
  (∀ s : State,
    readOffset s 0x00 = 0 ∧ readOffset s 0x04 = readReg s .status ∧ readOffset s 0x08 = s.arg0 ∧
    readOffset s 0x0C = s.result ∧ readOffset s 0x10 = s.enc.crc ^^^ 0xFFFFFFFF ∧ readOffset s 0x14 = s.enc.comb ∧
    readOffset s 0x18 = s.dec.crc ^^^ 0xFFFFFFFF ∧ readOffset s 0x1C = s.dec.comb ∧
    readOffset s 0x20 = s.dec.stored ∧ readOffset s 0x24 = s.crcx.reg ^^^ 0xFFFFFFFF ∧
    readOffset s 0x28 = s.crcx.comb ∧ (readOffset s 0x2C).toNat = s.enc.blocks % 2 ^ 32 ∧
    (readOffset s 0x30).toNat = s.dec.blocks % 2 ^ 32 ∧ (readOffset s 0x34).toNat = s.bw.count % 2 ^ 32 ∧
    (readOffset s 0x38).toNat = s.br.count % 2 ^ 32 ∧ readOffset s 0x3C = readReg s .info) ∧
  ∀ (s : State) (off : Nat), 0x40 ≤ off → readOffset s off = 0

/-- 70_reset R379: NOP is the word 0, and no other word of its opcode is legal; it clears LAST_CAUSE and ERR, which
are all it changes: every other STATUS bit, every other register, the sink and the sticky causes stay. -/
def Obligations.NopOnlyClearsLastCause : Prop :=
  decodeCmd 0x00000000 = .ok .nop ∧
  (∀ w : Word, opField w = 0x00 → fField w ≠ 0 ∨ zField w ≠ 0 → decodeCmd w = .error .illegalCommand) ∧
  ∀ s : State, ∃ t, exec .nop s = .next t ∧
    readReg t .status = readReg s .status &&& 0x7FFFFF00 ∧
    (∀ r, r ≠ .status → readReg t r = readReg s r) ∧ t = { s with lastCause := t.lastCause }

/-- 70_reset R370: RESET is the word `0x01000000`; after it every register reads 0, both units are Idle, both bit accumulators are empty and the CRC
registers hold their seed; the source position and the sink's contents stay. -/
def Obligations.ResetFollowsItsRule : Prop :=
  decodeCmd 0x01000000 = .ok .reset ∧
  ∀ s : State, ∃ t, exec .reset s = .next t ∧ (∀ r, readReg t r = 0) ∧ t.bw.acc = [] ∧ t.br.acc = [] ∧
    t.crcx = { reg := 0xFFFFFFFF, comb := 0 } ∧ t.enc = Encoder.reset ∧ t.dec = Decoder.reset ∧
    t.bw.sink = s.bw.sink ∧ t.br.src = s.br.src ∧ t.br.pos = s.br.pos ∧ t.host = s.host ∧
    t.observed = s.observed ∧ t.sortFaults = s.sortFaults

/-- 70_reset R372: the reset values of every piece of state, and that RESET keeps `src.pos`. -/
def Obligations.PowerOnValues : Prop :=
  (∀ s t : State, exec .reset s = .next t → t.br.pos = s.br.pos) ∧
  (∀ r, readReg State.reset r = 0) ∧ State.reset.bw.acc = [] ∧ State.reset.br.acc = [] ∧
  State.reset.bw.sink = [] ∧ State.reset.br.pos = 0 ∧
  State.reset.crcx = { reg := 0xFFFFFFFF, comb := 0 } ∧
  State.reset.enc.state = .idle ∧ State.reset.enc.k = 0 ∧ State.reset.enc.cur = none ∧
  State.reset.enc.run = 0 ∧ State.reset.enc.block = [] ∧ State.reset.enc.crc = 0xFFFFFFFF ∧
  State.reset.enc.comb = 0 ∧ State.reset.enc.blocks = 0 ∧ State.reset.enc.rand = false ∧
  State.reset.enc.cause = none ∧ State.reset.enc.scratch = none ∧
  State.reset.dec.state = .idle ∧ State.reset.dec.k = 0 ∧ State.reset.dec.comb = 0 ∧
  State.reset.dec.blocks = 0 ∧ State.reset.dec.cause = none ∧ State.reset.dec.stored = 0 ∧
  State.reset.dec.crc = 0xFFFFFFFF ∧ State.reset.dec.rand = false ∧ State.reset.dec.blk = none ∧
  State.reset.dec.scratch = none

/-- 10_state R25: ARG0 is 0 after reset, holds the value the host wrote, and no command writes it, but that RESET
clears it (70_reset R370). -/
def Obligations.NoCommandWritesArg0 : Prop :=
  readReg State.reset .arg0 = 0 ∧
  (∀ (s : State) (v : Word) (rest : List HostAccess), s.reading = false →
    s.host = { offset := 0x08, bytes := 4, op := .write v } :: rest →
    ∃ t, step s = .next t ∧ readReg t .arg0 = v) ∧
  ∀ (i : Instr) (s t : State), i ≠ .reset → exec i s = .next t → t.arg0 = s.arg0

/-! ## Causes -/

/-- 60_exceptions R343, 10_state R26: a command ends with LAST_CAUSE 0, or with a cause and RESULT 0xFFFFFFFE. -/
def Obligations.EveryCommandRecordsItsOutcome : Prop :=
  ∀ (i : Instr) (s t : State), s.Inv → s.reading = false → i.isCommand = true → exec i s = .next t →
    t.lastCause = none ∨ ((∃ c, t.lastCause = some c) ∧ t.result = 0xFFFFFFFE)

/-- 60_exceptions R341: a command ends with no cause but those its rows name. -/
def Obligations.CommandsRaiseOnlyTheirCauses : Prop :=
  ∀ (i : Instr) (s t : State) (c : Cause), s.Inv → s.reading = false → i.isCommand = true →
    exec i s = .next t → t.lastCause = some c → c ∈ commandCauses i

/-- 30_encoding R102 checks 5 and 6, 44 R251, R252, R256, 45 R282: a refused ENC_INIT, ENC_WRITE, ENC_CLOSE or DEC_READ records
its cause and has no other effect. -/
def Obligations.RefusedCommandsHaveNoEffect : Prop :=
  ∀ s : State,
    (∀ k : BitVec 8, k.toNat < 1 ∨ 9 < k.toNat → exec (.encInit k) s = .next (recorded .badBlockSize s)) ∧
    (s.enc.state = .idle ∨ s.enc.state = .closed →
      ∀ b, exec (.encWrite b) s = .next (recorded .commandStateError s)) ∧
    (s.enc.state = .idle → exec .encClose s = .next (recorded .commandStateError s)) ∧
    (s.dec.state = .idle → exec .decRead s = .next (recorded .commandStateError s))

/-- 44 R258, 45 R299, 60_exceptions R347: in Faulted, ENC_WRITE, ENC_CLOSE and DEC_READ record the sticky cause again and
have no other effect. -/
def Obligations.FaultedStreamsReportAgain : Prop :=
  ∀ (s : State) (c : Cause),
    (s.enc.state = .faulted → s.enc.cause = some c →
      (∀ b, exec (.encWrite b) s = .next (recorded c s)) ∧ exec .encClose s = .next (recorded c s)) ∧
    (s.dec.state = .faulted → s.dec.cause = some c → exec .decRead s = .next (recorded c s))

/-! ## Frames -/

/-- 10_state R21, 60_exceptions R347: ENC_INIT, ENC_WRITE, ENC_CLOSE, BW_WRITEBITS and BW_FINISH leave the decoder, the reader and the
CRC unit alone, and the two writer commands the encoder too. -/
def Obligations.EncoderCommandsLeaveTheDecoderAlone : Prop :=
  ∀ (s t : State),
    (∀ k, exec (.encInit k) s = .next t → onlyEncoder s t) ∧
    (∀ b, exec (.encWrite b) s = .next t → onlyEncoder s t) ∧
    (exec .encClose s = .next t → onlyEncoder s t) ∧
    (∀ n, exec (.bwWriteBits n) s = .next t → onlyEncoder s t ∧ t.enc = s.enc) ∧
    (exec .bwFinish s = .next t → onlyEncoder s t ∧ t.enc = s.enc)

/-- 10_state R21, 60_exceptions R347: DEC_INIT, DEC_READ and BR_READBITS leave the encoder, the writer and the CRC unit alone, and
BR_READBITS the decoder too. -/
def Obligations.DecoderCommandsLeaveTheEncoderAlone : Prop :=
  ∀ (s t : State),
    (exec .decInit s = .next t → onlyDecoder s t) ∧ (exec .decRead s = .next t → onlyDecoder s t) ∧
    (∀ n, exec (.brReadBits n) s = .next t → onlyDecoder s t ∧ t.dec = s.dec ∧ t.reading = s.reading)

/-- 30_encoding Part A, 10_state R21: a wire element touches the decoder only: not the reader, and none of what the decoder
commands leave alone. -/
def Obligations.ElementsTouchOnlyTheDecoder : Prop :=
  ∀ (i : Instr) (s t : State), i.isCommand = false → exec i s = .next t →
    onlyDecoder s t ∧ t.br = s.br

/-! ## The block transform -/

/-- 42_block_encoder R170, R171: `zptr` lists every offset once, rotations ascending, the lower offset first where two
rotations are equal. -/
def Obligations.RotationsAreSorted : Prop :=
  ∀ block : List Byte,
    (sortRotations block).Perm (List.range block.length) ∧
    (sortRotations block).Pairwise fun a b =>
      rotation block a < rotation block b ∨ (rotation block a = rotation block b ∧ a < b)

/-- 42_block_encoder R172: `L[i]` is the byte before rotation `zptr[i]`, `L` is a permutation of the block, and
`origPtr` is the one index whose offset is 0. -/
def Obligations.LastColumnPermutesTheBlock : Prop :=
  ∀ block : List Byte, block ≠ [] →
    (∀ i z : Nat, (sortRotations block)[i]? = some z →
      (lastColumn block (sortRotations block))[i]? =
        block[if z = 0 then block.length - 1 else z - 1]?) ∧
    (lastColumn block (sortRotations block)).Perm block ∧
    findOrigPtr (sortRotations block) < block.length ∧
    ∀ i, (sortRotations block)[i]? = some 0 ↔ i = findOrigPtr (sortRotations block)

/-- 45_stream_decoder R291, R292: `cftab` has 257 entries, entry `k` how many bytes of the block are below `k`; and
position `i` stands in the chain at the slot of its byte: `cftab` of the byte plus how many equal bytes come before
it. -/
def Obligations.ChainSlotsFollowTheCounts : Prop :=
  ∀ last : List Byte,
    (countBytes last).length = 257 ∧
    (∀ k, k ≤ 256 → (countBytes last)[k]? = some (last.countP fun b => b.toNat < k)) ∧
    (buildChain last (countBytes last)).length = last.length ∧
    ∀ (i : Nat) (c : Byte), last[i]? = some c →
      (buildChain last (countBytes last))[(last.countP fun b => b < c) + (last.take i).count c]? = some i

/-- 42_block_encoder R172, 45_stream_decoder R292: walking the chain from `origPtr` over the BWT output gives the
block back. -/
def Obligations.ChainWalkInvertsTheTransform : Prop :=
  ∀ block last : List Byte, block ≠ [] → last = lastColumn block (sortRotations block) →
    walk block.length (startBlock (findOrigPtr (sortRotations block)) last (countBytes last)) = block

/-- 45_stream_decoder R293, 42_block_encoder R168, R169: the mask of a randomised block flips bit 0 of exactly the
bytes two positions before an entry of RNUMS runs out, 617 and 1337 the first, and of no byte of another block; masking
twice gives the block back; and the decoder's un-randomised walk is the encoder's mask over the walk, from fresh
counters. -/
def Obligations.WalkIsUnmasked : Prop :=
  (∀ (block : List Byte) (i : Nat),
    ((∃ k, i + 2 = countdown (k + 1)) → (maskBlock true block)[i]? = block[i]?.map fun b => b ^^^ 1) ∧
    ((∀ k, i + 2 ≠ countdown (k + 1)) → (maskBlock true block)[i]? = block[i]?)) ∧
  ((List.range 6).map fun k => countdown (k + 1) - 2) = [617, 1337, 1464, 1945, 2876, 3692] ∧ rnums.length = 512 ∧
  (∀ block : List Byte, maskBlock false block = block) ∧
  (∀ (rand : Bool) (block : List Byte), maskBlock rand (maskBlock rand block) = block) ∧
  ∀ (rand : Bool) (n : Nat) (b : DecBlock), b.rNToGo = 0 → b.rTPos = 0 →
    walkRaw rand n b = maskBlock rand (walk n b)

/-- 42_block_encoder R178, 45_stream_decoder R288: the digits of a run of `z` are run symbols, and the decoder reads them as
`z`. -/
def Obligations.RunDigitsDecodeToTheRun : Prop :=
  ∀ (z : Nat) (sc : DecScratch), 1 ≤ z → sc.run = none →
    (∀ d ∈ emitRun z, d = 0 ∨ d = 1) ∧ ((emitRun z).foldl (fun sc d => addRunDigit d sc) sc).run = some z

/-- 42_block_encoder R175..R180, 45_stream_decoder R287: the decoder's MTF and RLE2 inverse of the encoder's symbols is
the sequence that was encoded, and both end with the same list. -/
def Obligations.MtfInverseGivesTheSequence : Prop :=
  ∀ (last list : List Byte) (sc : DecScratch), list.Nodup → (∀ c ∈ last, c ∈ list) → sc.mtfList = list →
    sc.run = none →
    (flushZeroRun (takeSymbols (mtfSymbols last list 0).1 sc)).out = sc.out ++ last ∧
    (takeSymbols (mtfSymbols last list 0).1 sc).mtfList = (mtfSymbols last list 0).2

/-- 42_block_encoder R161, R162, 45_stream_decoder R294: a block whose bytes are the run-length form of a segmented sequence
of runs delivers exactly the runs' raw bytes. -/
def Obligations.RunLengthInverseGivesTheRawBytes : Prop :=
  ∀ (rand : Bool) (runs : List (Byte × Nat)) (b : DecBlock), segmented runs → b.Ok 9 → b.i = 0 → b.cnt = 0 →
    b.rep = 0 → b.prev = none →
    walkRaw rand b.last.length b = runs.flatMap (fun x => runBytes x.1 x.2) →
    ∀ n, (runs.map Prod.snd).sum < n →
      pulled rand n b = runs.flatMap fun x => List.replicate x.2 x.1

/-- 43_huffman R210, R224: the selector MTF inverse gives the selectors back. -/
def Obligations.SelectorMtfInverts : Prop :=
  ∀ (nGroups : Nat) (selector : List Nat), (∀ t ∈ selector, t < nGroups) →
    selectorsOf (List.range nGroups) (selectorMtfValues nGroups selector) = selector ∧
    ∀ j ∈ selectorMtfValues nGroups selector, j < nGroups

/-! ## Encoder commands -/

/-- 44_stream_encoder R251: ENC_INIT is the word `0x30kk0000`; it refuses a block size outside 1..9, and with a legal one opens a fresh stream from any state, drops the writer's
unflushed bits and pushes the four header bytes. -/
def Obligations.EncInitOpensAStream : Prop :=
  (∀ k, decodeCmd (0x30#8 ++ k ++ 0#16) = .ok (.encInit k)) ∧
  (∀ (s : State) (k : BitVec 8), k.toNat < 1 ∨ 9 < k.toNat →
    exec (.encInit k) s = .next (recorded .badBlockSize s)) ∧
  ∀ (s : State) (k : BitVec 8), 1 ≤ k.toNat → k.toNat ≤ 9 →
    exec (.encInit k) s =
      .next { s with
        lastCause := none
        bw :=
          { acc := []
            sink := s.bw.sink ++ [0x42, 0x5A, 0x68, 0x30 + k]
            count := s.bw.count + 4 }
        enc :=
          { state := .opened, k := k.toNat, cur := none, run := 0, block := [], crc := 0xFFFFFFFF,
            comb := 0, blocks := 0, rand := false, cause := none, scratch := none } }

/-- 44_stream_encoder R252, R253, 42_block_encoder R161..R164: an ENC_WRITE that closes no block pushes nothing: the byte joins
the pending run, or a new run starts and the old one moves into the block and the CRC, and a run of 255 moves in at
once. -/
def Obligations.EncWriteBuffersTheByte : Prop :=
  ∀ (s : State) (b : Byte), s.enc.state = .opened →
    (s.enc.cur = some b → s.enc.run < 254 →
      exec (.encWrite b) s =
        .next { s with lastCause := none, enc := { s.enc with run := s.enc.run + 1 } }) ∧
    (s.enc.cur = none →
      exec (.encWrite b) s =
        .next { s with lastCause := none, enc := { s.enc with cur := some b, run := 1 } }) ∧
    (∀ c, s.enc.cur = some c → c ≠ b →
      s.enc.block.length + (runBytes c s.enc.run).length ≤ 100000 * s.enc.k - 20 →
      exec (.encWrite b) s =
        .next { s with
          lastCause := none
          enc :=
            { s.enc with
              block := s.enc.block ++ runBytes c s.enc.run
              crc := (List.replicate s.enc.run c).foldl crcUpdate s.enc.crc
              cur := some b
              run := 1 } }) ∧
    (s.enc.cur = some b → s.enc.run = 254 → s.enc.block.length + 5 ≤ 100000 * s.enc.k - 20 →
      exec (.encWrite b) s =
        .next { s with
          lastCause := none
          enc :=
            { s.enc with
              block := s.enc.block ++ [b, b, b, b, 0xFB]
              crc := (List.replicate 255 b).foldl crcUpdate s.enc.crc
              cur := none
              run := 0 } })

/-- 44_stream_encoder R252..R254, 42_block_encoder R164: the ENC_WRITE whose run does not fit emits the block first; the run starts
the next block. -/
def Obligations.EncWriteClosesAFullBlock : Prop :=
  ∀ (s : State) (b c : Byte) (run : Nat), s.enc.state = .opened → s.enc.cur = some c →
    (c ≠ b ∧ run = s.enc.run ∨ c = b ∧ s.enc.run = 254 ∧ run = 255) →
    100000 * s.enc.k - 20 < s.enc.block.length + (runBytes c run).length →
    s.enc.block ∉ s.sortFaults →
    ∃ w, exec (.encWrite b) s =
        .next { s with
          lastCause := none
          bw := w
          enc :=
            { s.enc with
              block := runBytes c run
              crc := (List.replicate run c).foldl crcUpdate 0xFFFFFFFF
              comb := s.enc.comb.rotateLeft 1 ^^^ (s.enc.crc ^^^ 0xFFFFFFFF)
              blocks := s.enc.blocks + 1
              rand := randomise s.enc.block
              cur := if c = b then none else some b
              run := if c = b then 0 else 1
              scratch := none } } ∧
      w.bits = s.bw.bits ++ emitted s.enc.crc s.enc.block

/-- 42_block_encoder R174, 44_stream_encoder R253, R254, R256, R258: where SORT_FAULT holds for a block that closes,
nothing of it is emitted, and the encoder faults with SortStackOverflow. The block closes in ENC_WRITE of another byte
or of the 255th equal one whose run does not fit, and in ENC_CLOSE: for a run that does not fit, as the last block, or
as the block after the one that the run closed. That the run and the block, which are dead, are kept as they stood is
the model's own (log 18). -/
def Obligations.SortFaultFaultsTheEncoder : Prop :=
  ∀ s : State, s.enc.state = .opened →
    (∀ b c : Byte, s.enc.cur = some c → c ≠ b →
      100000 * s.enc.k - 20 < s.enc.block.length + (runBytes c s.enc.run).length → s.enc.block ∈ s.sortFaults →
      exec (.encWrite b) s = .next (encFaulted .sortStackOverflow s)) ∧
    (∀ b : Byte, s.enc.cur = some b → s.enc.run = 254 → 100000 * s.enc.k - 20 < s.enc.block.length + 5 →
      s.enc.block ∈ s.sortFaults →
      exec (.encWrite b) s =
        .next (encFaulted .sortStackOverflow { s with enc := { s.enc with run := 255 } })) ∧
    (∀ c : Byte, s.enc.cur = some c →
      100000 * s.enc.k - 20 < s.enc.block.length + (runBytes c s.enc.run).length →
      (s.enc.block ∈ s.sortFaults → exec .encClose s = .next (encFaulted .sortStackOverflow s)) ∧
      (s.enc.block ∉ s.sortFaults → runBytes c s.enc.run ∈ s.sortFaults → s.enc.run ≠ 0 →
        ∃ w,
          exec .encClose s =
            .next (encFaulted .sortStackOverflow
              { s with
                bw := w
                enc :=
                  { s.enc with
                    block := runBytes c s.enc.run
                    crc := (List.replicate s.enc.run c).foldl crcUpdate 0xFFFFFFFF
                    comb := s.enc.comb.rotateLeft 1 ^^^ (s.enc.crc ^^^ 0xFFFFFFFF)
                    blocks := s.enc.blocks + 1
                    rand := randomise s.enc.block
                    cur := none
                    run := 0 } }) ∧
          w.bits = s.bw.bits ++ emitted s.enc.crc s.enc.block)) ∧
    (∀ c : Byte, s.enc.cur = some c →
      s.enc.block.length + (runBytes c s.enc.run).length ≤ 100000 * s.enc.k - 20 →
      s.enc.block ++ runBytes c s.enc.run ∈ s.sortFaults → s.enc.run ≠ 0 →
      exec .encClose s =
        .next (encFaulted .sortStackOverflow { s with enc := runMoved c s.enc })) ∧
    (s.enc.cur = none → s.enc.block ≠ [] → s.enc.block ∈ s.sortFaults →
      exec .encClose s = .next (encFaulted .sortStackOverflow s))

/-- 44_stream_encoder R256: ENC_CLOSE of an Open stream flushes the pending run, emits the blocks that close, writes
the trailer and pads to a byte with zeros; of a Closed stream it succeeds and does nothing. -/
def Obligations.EncCloseFinishesTheStream : Prop :=
  ∀ s : State,
    (s.enc.state = .closed → exec .encClose s = .next { s with lastCause := none }) ∧
    (s.enc.state = .opened → s.enc.Ok → s.bw.Ok → (∀ x ∈ closing s.enc, x.2 ∉ s.sortFaults) →
      ∃ w pad,
        exec .encClose s =
          .next { s with
            lastCause := none
            bw := w
            enc :=
              { s.enc with
                state := .closed
                cur := none
                run := 0
                block := []
                crc := if closing s.enc = [] then s.enc.crc else 0xFFFFFFFF
                comb := combined s.enc.comb (closing s.enc)
                blocks := s.enc.blocks + (closing s.enc).length
                rand := ((closing s.enc).getLast?.map fun x => randomise x.2).getD s.enc.rand } } ∧
        w.bits =
          s.bw.bits ++ (closing s.enc).flatMap (fun x => emitted x.1 x.2) ++
            bitsOf 48 0x177245385090 ++ bitsOf 32 (combined s.enc.comb (closing s.enc)).toNat ++
            List.replicate pad false ∧
        pad < 8 ∧ w.acc = [])

/-- 44_stream_encoder R257: ENC_INIT then ENC_CLOSE gives the 14 bytes of the empty stream. -/
def Obligations.EmptyStreamIsFourteenBytes : Prop :=
  ∀ (s : State) (k : BitVec 8), 1 ≤ k.toNat → k.toNat ≤ 9 →
    ∃ t u, exec (.encInit k) s = .next t ∧ exec .encClose t = .next u ∧
      u.bw =
        { acc := []
          sink := s.bw.sink ++
            [0x42, 0x5A, 0x68, 0x30 + k, 0x17, 0x72, 0x45, 0x38, 0x50, 0x90, 0x00, 0x00, 0x00, 0x00]
          count := s.bw.count + 14 } ∧
      u.enc.state = .closed ∧ u.lastCause = none

/-! ## Decoder commands -/

/-- 45_stream_decoder R281: DEC_INIT is the word `0x38000000`; it opens a stream from any state: it drops the reader's
unconsumed bits and keeps the source position. That the old block's state and tables are `none` then is the model's
own (log 8). -/
def Obligations.DecInitOpensAStream : Prop :=
  decodeCmd 0x38000000 = .ok .decInit ∧
  ∀ s : State,
    exec .decInit s =
      .next { s with
        lastCause := none
        br := { s.br with acc := [] }
        dec :=
          { state := .expectStreamHeader, k := 0, comb := 0, blocks := 0, cause := none, stored := 0,
            crc := 0xFFFFFFFF, rand := false, blk := none, scratch := none } }

/-- 45_stream_decoder R282, R285, R295..R299: DEC_READ of a stream in progress is its turns, each a step, up to the one
that ends the command (that a turn is a step is the model's own, log 2). In Done, DEC_READ answers end of stream and reads nothing; in a block it delivers the
next byte and folds it into the CRC; at the block's end a wrong CRC is fatal, and after a right one the trailer
ends the stream, or is fatal where its CRC is wrong; BLOCK_MAGIC opens the next block section, another magic is fatal,
and so is a source that ends in the magic or the trailer. -/
def Obligations.DecReadServesTheBlock : Prop :=
  ∀ s : State,
    (s.Inv → s.reading = false → s.dec.state = .expectStreamHeader ∨ s.dec.state = .decodingBlock →
      ∃ n t, turns n { s with reading := true } = some t ∧ t.reading = false ∧ exec .decRead s = .next t) ∧
    (s.dec.state = .done →
      exec .decRead s = .next { s with lastCause := none, result := 0xFFFFFFFF }) ∧
    ∀ b b' : DecBlock, s.dec.state = .decodingBlock → s.dec.blk = some b → s.dec.scratch = none →
      (∀ c, nextByte s.dec.rand b = some { byte := some c, blk := b' } →
        exec .decRead s =
          .next { s with
            lastCause := none
            result := c.setWidth 32
            reading := false
            dec := { s.dec with blk := some b', crc := crcUpdate s.dec.crc c } }) ∧
      (nextByte s.dec.rand b = some { byte := none, blk := b' } →
        s.dec.crc ^^^ 0xFFFFFFFF ≠ s.dec.stored →
        exec .decRead s = .next (decFaulted .blockCrcMismatch s)) ∧
      (nextByte s.dec.rand b = some { byte := none, blk := b' } →
        s.dec.crc ^^^ 0xFFFFFFFF = s.dec.stored →
        ∀ (c : Word) (rest : List Bool),
          s.br.bits = bitsOf 48 0x177245385090 ++ bitsOf 32 c.toNat ++ rest →
          ∃ r : Reader, r.bits = rest ∧ r.src = s.br.src ∧
            (c = (closedBlock s.dec).comb →
              exec .decRead s =
                .next { s with
                  lastCause := none
                  result := 0xFFFFFFFF
                  reading := false
                  br := r
                  dec := { closedBlock s.dec with state := .done } }) ∧
            (c ≠ (closedBlock s.dec).comb →
              exec .decRead s =
                .next (decFaulted .streamCrcMismatch { s with br := r, dec := closedBlock s.dec }))) ∧
      (nextByte s.dec.rand b = some { byte := none, blk := b' } →
        s.dec.crc ^^^ 0xFFFFFFFF = s.dec.stored →
        (∀ rest : List Bool, s.br.bits = bitsOf 48 0x314159265359 ++ rest →
          ∃ r : Reader, r.bits = rest ∧ r.src = s.br.src ∧
            turns 2 { s with reading := true } =
              some { s with
                reading := true
                br := r
                dec := { closedBlock s.dec with scratch := some DecScratch.start } }) ∧
        (∀ (m : BitVec 48) (rest : List Bool), m ≠ 0x314159265359 → m ≠ 0x177245385090 →
          s.br.bits = bitsOf 48 m.toNat ++ rest →
          ∃ r : Reader, r.bits = rest ∧ r.src = s.br.src ∧
            exec .decRead s = .next (decFaulted .badBlockMagic { s with br := r, dec := closedBlock s.dec })) ∧
        (s.br.pos ≤ s.br.src.length → s.br.bits.length < 48 →
          ∃ r : Reader, r.bits = (if s.br.bits.length < 24 then s.br.bits else s.br.bits.drop 24) ∧
            r.src = s.br.src ∧ r.pos = s.br.src.length ∧
            exec .decRead s =
              .next (decFaulted .unexpectedEndOfInput { s with br := r, dec := closedBlock s.dec })) ∧
        (∀ rest : List Bool, s.br.pos ≤ s.br.src.length → s.br.bits = bitsOf 48 0x177245385090 ++ rest →
          rest.length < 32 →
          ∃ r : Reader, r.bits = rest ∧ r.src = s.br.src ∧ r.pos = s.br.src.length ∧
            exec .decRead s =
              .next (decFaulted .unexpectedEndOfInput { s with br := r, dec := closedBlock s.dec })))

/-- 45_stream_decoder R282, R299: from every state between commands DEC_READ ends: it delivers a byte, or end of stream, or
refuses an Idle decoder, or leaves the decoder Faulted with the cause it records. -/
def Obligations.DecReadAlwaysEnds : Prop :=
  ∀ s : State, s.Inv → s.reading = false →
    ∃ t, exec .decRead s = .next t ∧ t.reading = false ∧ t.br.src = s.br.src ∧
      (t.lastCause = none ∧ t.dec.state = .decodingBlock ∧ (∃ c : Byte, t.result = c.setWidth 32) ∨
        t.lastCause = none ∧ t.dec.state = .done ∧ t.result = 0xFFFFFFFF ∨
        t = recorded .commandStateError s ∧ s.dec.state = .idle ∨
        ∃ c, t.lastCause = some c ∧ t.result = 0xFFFFFFFE ∧ t.dec.state = .faulted ∧
          t.dec.cause = some c)

/-! ## Wire elements -/

/-- 45_stream_decoder R283, R285: the header's bytes are checked one by one as they are read, and a magic on all its 48
bits; the cause comes with exactly the bits read so far consumed. -/
def Obligations.HeadersAreCheckedAsTheyAreRead : Prop :=
  ∀ (r : Reader) (rest : List Bool),
    (∀ a : Byte, a ≠ 0x42 → r.bits = bitsOf 8 a.toNat ++ rest →
      ∃ r', fetchHeader r = (.error .badStreamMagic, r') ∧ r'.bits = rest) ∧
    (∀ a : Byte, a ≠ 0x5A → r.bits = bitsOf 16 (0x4200 + a.toNat) ++ rest →
      ∃ r', fetchHeader r = (.error .badStreamMagic, r') ∧ r'.bits = rest) ∧
    (∀ a : Byte, a ≠ 0x68 → r.bits = bitsOf 24 (0x425A00 + a.toNat) ++ rest →
      ∃ r', fetchHeader r = (.error .badStreamMagic, r') ∧ r'.bits = rest) ∧
    (∀ a : Byte, a.toNat < 0x30 ∨ 0x3F < a.toNat → r.bits = bitsOf 32 (0x425A6800 + a.toNat) ++ rest →
      ∃ r', fetchHeader r = (.error .badBlockSizeDigit, r') ∧ r'.bits = rest) ∧
    (∀ m : BitVec 48, m ≠ 0x314159265359 → m ≠ 0x177245385090 → r.bits = bitsOf 48 m.toNat ++ rest →
      ∃ r', fetchMagic r = (.error .badBlockMagic, r') ∧ r'.bits = rest)

/-- 45_stream_decoder R282, R283, R297, 30_encoding R89: STREAM_HEADER sets the block size and refuses a digit outside 1..9;
BLOCK_MAGIC opens a block section and EOS_MAGIC the trailer; COMBINED_CRC ends the stream or refuses a
wrong CRC. That PAD, which no decoder reads, has a meaning, to change nothing, is the model's own (log 13). -/
def Obligations.StreamElementsFollowTheirRules : Prop :=
  ∀ s : State,
    (s.reading = true → s.dec.scratch = none →
      (∀ k : BitVec 4, s.dec.state = .expectStreamHeader →
        (1 ≤ k.toNat ∧ k.toNat ≤ 9 →
          exec (.streamHeader k) s =
            .next { s with dec := { s.dec with k := k.toNat, state := .expectBlockHeader } }) ∧
        (k.toNat = 0 ∨ 9 < k.toNat →
          exec (.streamHeader k) s = .next (decFaulted .badBlockSizeDigit s))) ∧
      (s.dec.state = .expectBlockHeader →
        exec .blockMagic s = .next (withTables DecScratch.start s) ∧
        exec .eosMagic s = .next { s with dec := { s.dec with state := .expectStreamTrailer } }) ∧
      (∀ c : Word, s.dec.state = .expectStreamTrailer →
        (c = s.dec.comb →
          exec (.combinedCrc c) s =
            .next { s with
              lastCause := none
              result := 0xFFFFFFFF
              reading := false
              dec := { s.dec with state := .done } }) ∧
        (c ≠ s.dec.comb → exec (.combinedCrc c) s = .next (decFaulted .streamCrcMismatch s)))) ∧
    ∀ z, exec (.pad z) s = .next s

/-- 45_stream_decoder R284: BLOCK_CRC, RAND and ORIGPTR each store their field and move the decoder on. -/
def Obligations.BlockHeaderElementsStoreTheirFields : Prop :=
  ∀ (s : State) (sc : DecScratch),
    (standsAt .blockCrc sc s → ∀ c,
      exec (.blockCrc c) s =
        .next { s with dec := { s.dec with stored := c, scratch := some { sc with pos := .rand } } }) ∧
    (standsAt .rand sc s → ∀ r,
      exec (.rand r) s =
        .next { s with dec := { s.dec with rand := r, scratch := some { sc with pos := .origPtr } } }) ∧
    (standsAt .origPtr sc s → ∀ p,
      exec (.origPtr p) s = .next (withTables { sc with origPtr := p.toNat, pos := .inUse16 } s))

/-- 43_huffman R220: INUSE16 says which words follow, each INUSE_WORD adds its byte values in order, and a
mapping with none in use is refused. -/
def Obligations.MappingElementsFollowTheirRule : Prop :=
  ∀ (s : State) (sc : DecScratch),
    (standsAt .inUse16 sc s → ∀ g : BitVec 16,
      (g = 0 → exec (.inUse16 g) s = .next (decFaulted .noSymbolsInUse s)) ∧
      (g ≠ 0 →
        exec (.inUse16 g) s =
          .next (withTables
            { sc with
              mapLeft := (List.range 16).filter fun i => g.getLsbD (15 - i)
              seqToUnseq := []
              pos := .inUseWord } s))) ∧
    (standsAt .inUseWord sc s → ∀ (u : BitVec 16) (i : Nat) (left : List Nat) (seq : List Byte),
      sc.mapLeft = i :: left →
      seq = sc.seqToUnseq ++
        ((List.range 16).filter fun j => u.getLsbD (15 - j)).map (fun j => BitVec.ofNat 8 (16 * i + j)) →
      (left ≠ [] →
        exec (.inUseWord u) s = .next (withTables { sc with mapLeft := left, seqToUnseq := seq } s)) ∧
      (left = [] → seq ≠ [] →
        exec (.inUseWord u) s =
          .next (withTables { sc with mapLeft := [], seqToUnseq := seq, pos := .nGroups } s)) ∧
      (left = [] → seq = [] → exec (.inUseWord u) s = .next (decFaulted .noSymbolsInUse s)))

/-- 43_huffman R221..R224: NGROUPS and NSELECTORS are taken in their ranges and refused outside; each SELECTOR_MTF
appends the table at its rank and moves it to the front, and a rank of `nGroups` or more is refused. -/
def Obligations.CountAndSelectorElementsFollowTheirRules : Prop :=
  ∀ (s : State) (sc : DecScratch),
    (standsAt .nGroups sc s → ∀ n : BitVec 3,
      (2 ≤ n.toNat ∧ n.toNat ≤ 6 →
        exec (.nGroups n) s = .next (withTables { sc with nGroups := n.toNat, pos := .nSelectors } s)) ∧
      (n.toNat < 2 ∨ 6 < n.toNat → exec (.nGroups n) s = .next (decFaulted .badGroupCount s))) ∧
    (standsAt .nSelectors sc s → ∀ n : BitVec 15,
      (1 ≤ n.toNat ∧ n.toNat ≤ 18002 →
        exec (.nSelectors n) s =
          .next (withTables
            { sc with
              nSelectors := n.toNat
              selList := List.range sc.nGroups
              selector := []
              pos := .selector } s)) ∧
      (n.toNat = 0 ∨ 18002 < n.toNat →
        exec (.nSelectors n) s = .next (decFaulted .badSelectorCount s))) ∧
    (standsAt .selector sc s → ∀ j : Nat,
      (j < sc.nGroups →
        exec (.selectorMtf j) s =
          .next (withTables
            { sc with
              selector := sc.selector ++ [sc.selList.getD j 0]
              selList := sc.selList.getD j 0 :: sc.selList.eraseIdx j
              pos := if sc.selector.length + 1 < sc.nSelectors then .selector else .lenStart } s)) ∧
      (sc.nGroups ≤ j → exec (.selectorMtf j) s = .next (decFaulted .badSelector s)))

/-- 43_huffman R225, R226: LEN_START, LEN_INC and LEN_DEC give the running length, refused at once outside 1..20;
LEN_STOP takes it as the symbol's length, and a table's last length builds its decode tables. That the range is checked
when the length changes, not before the next bit, is the model's own (log 12). -/
def Obligations.LengthElementsFollowTheirRules : Prop :=
  ∀ (s : State) (sc : DecScratch),
    (standsAt .lenStart sc s → ∀ l : BitVec 5,
      (1 ≤ l.toNat ∧ l.toNat ≤ 20 →
        exec (.lenStart l) s =
          .next (withTables { sc with row := [], curr := l.toNat, pos := .lenAdjust } s)) ∧
      (l.toNat = 0 ∨ 20 < l.toNat → exec (.lenStart l) s = .next (decFaulted .badCodeLength s))) ∧
    (standsAt .lenAdjust sc s → 1 ≤ sc.curr → sc.curr ≤ 20 →
      (sc.curr ≠ 20 → exec .lenInc s = .next (withTables { sc with curr := sc.curr + 1 } s)) ∧
      (sc.curr = 20 → exec .lenInc s = .next (decFaulted .badCodeLength s)) ∧
      (sc.curr ≠ 1 → exec .lenDec s = .next (withTables { sc with curr := sc.curr - 1 } s)) ∧
      (sc.curr = 1 → exec .lenDec s = .next (decFaulted .badCodeLength s)) ∧
      (sc.row.length + 1 < sc.seqToUnseq.length + 2 →
        exec .lenStop s = .next (withTables { sc with row := sc.row ++ [sc.curr] } s)) ∧
      (sc.row.length + 1 = sc.seqToUnseq.length + 2 →
        exec .lenStop s =
          .next (withTables
            { sc with
              lens := sc.lens ++ [sc.row ++ [sc.curr]]
              tables := sc.tables ++ [buildDecTable (sc.row ++ [sc.curr])]
              row := []
              mtfList := sc.seqToUnseq
              pos := if sc.tables.length + 1 < sc.nGroups then .lenStart else .symbol } s)))

/-- 43_huffman R228, 45_stream_decoder R287..R293: a symbol is fetched under the table its group's selector names; with
no selector left, no bit of it is read. HUFF_SYMBOL takes one symbol of its group: a run symbol adds its digit, a rank
moves its byte to the front, EOB ends the block, and each is refused past CAP_DEC. -/
def Obligations.SymbolElementsFollowTheirRules : Prop :=
  ∀ (s : State) (sc : DecScratch) (v w run : Nat), standsAt .symbol sc s → sc.seqToUnseq ≠ [] →
    w = (if sc.run = none then 1 else sc.weight) →
    run = sc.run.getD 0 + w * (if v = 0 then 1 else 2) →
    (sc.left = 0 → sc.nSelectors ≤ sc.groupsUsed →
      fetchElement s.dec s.br = some (.error .selectorsExhausted, s.br)) ∧
    (∀ (g t : Nat) (table : DecTable), inGroup sc g → sc.selector[g]? = some t → sc.tables[t]? = some table →
      fetchElement s.dec s.br = some (decodeSymbol table s.br)) ∧
    ((sc.left = 0 → sc.groupsUsed < sc.nSelectors) → (sc.left ≠ 0 → sc.groupsUsed ≤ sc.nSelectors) →
      (v ≤ 1 → run ≤ 100000 * s.dec.k →
        exec (.huffSymbol v) s =
          .next (withTables { advanced sc with run := some run, weight := 2 * w } s)) ∧
      (v ≤ 1 → 100000 * s.dec.k < run →
        exec (.huffSymbol v) s = .next (decFaulted .blockOverflow s)) ∧
      (2 ≤ v → v ≤ sc.seqToUnseq.length → (flushed sc).length + 1 ≤ 100000 * s.dec.k →
        exec (.huffSymbol v) s =
          .next (withTables
            { advanced sc with
              out := flushed sc ++ [sc.mtfList.getD (v - 1) 0]
              mtfList := sc.mtfList.getD (v - 1) 0 :: sc.mtfList.eraseIdx (v - 1)
              run := none } s)) ∧
      (2 ≤ v → v ≤ sc.seqToUnseq.length → 100000 * s.dec.k < (flushed sc).length + 1 →
        exec (.huffSymbol v) s = .next (decFaulted .blockOverflow s)) ∧
      (v = sc.seqToUnseq.length + 1 → 100000 * s.dec.k < (flushed sc).length →
        exec (.huffSymbol v) s = .next (decFaulted .blockOverflow s)) ∧
      (v = sc.seqToUnseq.length + 1 → (flushed sc).length ≤ 100000 * s.dec.k →
        (flushed sc).length ≤ sc.origPtr →
        exec (.huffSymbol v) s = .next (decFaulted .badOrigPtr s)) ∧
      (v = sc.seqToUnseq.length + 1 → (flushed sc).length ≤ 100000 * s.dec.k →
        sc.origPtr < (flushed sc).length →
        exec (.huffSymbol v) s =
          .next { s with
            dec :=
              { s.dec with
                state := .decodingBlock
                crc := 0xFFFFFFFF
                blk :=
                  some
                    { origPtr := sc.origPtr
                      last := flushed sc
                      tt := buildChain (flushed sc) (countBytes (flushed sc))
                      p := (buildChain (flushed sc) (countBytes (flushed sc))).getD sc.origPtr 0
                      i := 0, rNToGo := 0, rTPos := 0, prev := none, cnt := 0, rep := 0 }
                scratch := none } }) ∧
      (sc.seqToUnseq.length + 1 < v → exec (.huffSymbol v) s = .next (decFaulted .symbolOutOfRange s)))

/-- The model's own (log 1): a wire element is executed where the decoder does not stand only outside any run, and
there the model stops by name. -/
def Obligations.ElementsStopOutOfPlace : Prop :=
  ∀ (i : Instr) (s : State), i.isCommand = false → (∀ z, i ≠ .pad z) →
    s.reading = false ∨ s.dec.state = .idle ∨ s.dec.state = .decodingBlock ∨ s.dec.state = .done ∨
      s.dec.state = .faulted →
    exec i s = .fault .elementOutOfPlace
end

