-- ==== Sys2Proof/Laws/Block.lean ====
section
/-! SUPPORT. What the sort and the small operations of the block encoder do. -/

namespace Sys2Proof.Machine

/-! ## The sort -/

theorem mergeFuel_perm {α : Type} (le : α → α → Bool) (n : Nat) (xs ys : List α) :
    (mergeFuel le n xs ys).Perm (xs ++ ys) := by
  induction n generalizing xs ys with
  | zero => exact .refl _
  | succ n ih =>
    cases xs with
    | nil => exact .refl _
    | cons x xs =>
      cases ys with
      | nil => simp [mergeFuel]
      | cons y ys =>
        unfold mergeFuel
        split
        · exact (ih xs (y :: ys)).cons x
        · exact ((ih (x :: xs) ys).cons y).trans List.perm_middle.symm

theorem mergeFuel_pairwise {α : Type} {le : α → α → Bool} (total : ∀ a b, le a b = true ∨ le b a = true)
    (trans : ∀ a b c, le a b = true → le b c = true → le a c = true) (n : Nat) {xs ys : List α}
    (hn : xs.length + ys.length ≤ n) (hx : xs.Pairwise fun a b => le a b = true)
    (hy : ys.Pairwise fun a b => le a b = true) :
    (mergeFuel le n xs ys).Pairwise fun a b => le a b = true := by
  induction n generalizing xs ys with
  | zero =>
    have h1 := List.length_eq_zero_iff.1 (show xs.length = 0 by omega)
    have h2 := List.length_eq_zero_iff.1 (show ys.length = 0 by omega)
    subst h1 h2
    exact .nil
  | succ n ih =>
    cases xs with
    | nil => exact hy
    | cons x xs =>
      cases ys with
      | nil => exact hx
      | cons y ys =>
        obtain ⟨hx1, hx2⟩ := List.pairwise_cons.1 hx
        obtain ⟨hy1, hy2⟩ := List.pairwise_cons.1 hy
        simp only [List.length_cons] at hn
        unfold mergeFuel
        split
        · next h =>
          refine List.pairwise_cons.2 ⟨fun z hz => ?_, ih (by simp only [List.length_cons]; omega) hx2 hy⟩
          rcases List.mem_append.1 ((mergeFuel_perm le n xs (y :: ys)).mem_iff.1 hz) with hz | hz
          · exact hx1 z hz
          · rcases List.mem_cons.1 hz with rfl | hz
            · exact h
            · exact trans _ _ _ h (hy1 z hz)
        · next h =>
          have h : le y x = true := (total x y).resolve_left h
          refine List.pairwise_cons.2 ⟨fun z hz => ?_, ih (by simp only [List.length_cons]; omega) hx hy2⟩
          rcases List.mem_append.1 ((mergeFuel_perm le n (x :: xs) ys).mem_iff.1 hz) with hz | hz
          · rcases List.mem_cons.1 hz with rfl | hz
            · exact h
            · exact trans _ _ _ h (hx1 z hz)
          · exact hy1 z hz

theorem mergePairs_length {α : Type} (le : α → α → Bool) (n : Nat) (ls : List (List α))
    (h : ls.length ≤ n + 2) : (mergePairs le ls).length ≤ n + 1 := by
  induction n using Nat.strongRecOn generalizing ls with
  | ind n ih =>
    match ls, h with
    | [], _ => simp [mergePairs]
    | [_], _ => simp [mergePairs]
    | _ :: _ :: rest, h =>
      simp only [List.length_cons] at h
      simp only [mergePairs, List.length_cons]
      match n, h with
      | 0, h => simp only [List.length_eq_zero_iff.1 (show rest.length = 0 by omega), mergePairs, List.length_nil]; omega
      | 1, h =>
        match rest, h with
        | [], _ => simp [mergePairs]
        | [_], _ => simp [mergePairs]
        | _ :: _ :: _, h => simp only [List.length_cons] at h; omega
      | m + 2, h =>
        have := ih m (by omega) rest (by omega)
        omega

theorem mergePairs_perm {α : Type} (le : α → α → Bool) (n : Nat) (ls : List (List α)) (h : ls.length ≤ n) :
    (mergePairs le ls).flatten.Perm ls.flatten := by
  induction n using Nat.strongRecOn generalizing ls with
  | ind n ih =>
    match ls, h with
    | [], _ => exact .refl _
    | [_], _ => exact .refl _
    | a :: b :: rest, h =>
      simp only [List.length_cons] at h
      simp only [mergePairs, List.flatten_cons]
      rw [← List.append_assoc]
      exact (mergeFuel_perm le _ a b).append (ih (n - 2) (by omega) rest (by omega))

theorem mergePairs_pairwise {α : Type} {le : α → α → Bool} (total : ∀ a b, le a b = true ∨ le b a = true)
    (trans : ∀ a b c, le a b = true → le b c = true → le a c = true) (n : Nat) (ls : List (List α))
    (h : ls.length ≤ n) (hl : ∀ l ∈ ls, l.Pairwise fun a b => le a b = true) :
    ∀ l ∈ mergePairs le ls, l.Pairwise fun a b => le a b = true := by
  induction n using Nat.strongRecOn generalizing ls with
  | ind n ih =>
    match ls, h, hl with
    | [], _, hl => exact hl
    | [_], _, hl => exact hl
    | a :: b :: rest, h, hl =>
      simp only [List.length_cons] at h
      intro l hm
      rcases List.mem_cons.1 hm with rfl | hm
      · exact mergeFuel_pairwise total trans _ le_rfl (hl a (by simp)) (hl b (by simp))
      · exact ih (n - 2) (by omega) rest (by omega) (fun l h => hl l (by simp [h])) l hm

theorem mergeAll_perm {α : Type} (le : α → α → Bool) (n : Nat) (ls : List (List α)) :
    (mergeAll le n ls).Perm ls.flatten := by
  induction n generalizing ls with
  | zero => exact .refl _
  | succ n ih =>
    match ls with
    | [] => exact .refl _
    | [l] => simp [mergeAll]
    | a :: b :: rest => exact (ih _).trans (mergePairs_perm le _ _ le_rfl)

theorem mergeAll_pairwise {α : Type} {le : α → α → Bool} (total : ∀ a b, le a b = true ∨ le b a = true)
    (trans : ∀ a b c, le a b = true → le b c = true → le a c = true) (n : Nat) (ls : List (List α))
    (h : ls.length ≤ n) (hl : ∀ l ∈ ls, l.Pairwise fun a b => le a b = true) :
    (mergeAll le n ls).Pairwise fun a b => le a b = true := by
  induction n generalizing ls with
  | zero => rw [List.length_eq_zero_iff.1 (show ls.length = 0 by omega)]; exact .nil
  | succ n ih =>
    match ls, h, hl with
    | [], _, _ => exact .nil
    | [l], _, hl => exact hl l (by simp)
    | a :: b :: rest, h, hl =>
      simp only [List.length_cons] at h
      refine ih _ ?_ (mergePairs_pairwise total trans _ _ le_rfl hl)
      have := mergePairs_length le rest.length (a :: b :: rest) le_rfl
      omega

/-- The sort rearranges its input. -/
theorem sortBy_perm {α : Type} (le : α → α → Bool) (l : List α) : (sortBy le l).Perm l := by
  refine (mergeAll_perm le _ _).trans ?_
  rw [← List.flatMap_def, List.flatMap_singleton']

/-- The sort's output ascends, for a total and transitive order. -/
theorem sortBy_pairwise {α : Type} {le : α → α → Bool} (total : ∀ a b, le a b = true ∨ le b a = true)
    (trans : ∀ a b c, le a b = true → le b c = true → le a c = true) (l : List α) :
    (sortBy le l).Pairwise fun a b => le a b = true := by
  refine mergeAll_pairwise total trans _ _ (by simp) fun x hx => ?_
  obtain ⟨y, -, rfl⟩ := List.mem_map.1 hx
  simp

/-! ## Small operations -/

/-- A rotation by one is the library's. -/
theorem rotl1_eq (x : Word) : rotl1 x = x.rotateLeft 1 := by
  unfold rotl1
  rw [BitVec.rotateLeft_def]

/-- `CrcUpdate` of copies of a byte is the update over the list of them. -/
theorem crcRepeat_eq (n : Nat) (b : Byte) (c : Word) :
    crcRepeat n b c = (List.replicate n b).foldl crcUpdate c := by
  unfold crcRepeat
  induction n generalizing c with
  | zero => rfl
  | succ n ih => rw [Function.iterate_succ_apply, List.replicate_succ, List.foldl_cons, ih]

end Sys2Proof.Machine
end

