-- ==== Sys2Proof/Laws/Heap.lean ====
section
/-! SUPPORT. The heap of the code-length build (43_huffman R207): a push adds its node, a pop takes the lightest one,
and the order of the heap is kept. -/

namespace Sys2Proof.Machine

theorem getD_set {α : Type} {l : List α} {i : Nat} (h : i < l.length) (j : Nat) (v d : α) :
    (l.set i v).getD j d = if i = j then v else l.getD j d := by
  simp only [List.getD_eq_getElem?_getD, List.getElem?_set]
  by_cases hij : i = j
  · subst hij; simp [h]
  · simp [hij]

/-- The nodes in the first `n` places of a heap. -/
def content (heap : List Nat) (n : Nat) : Multiset Nat := ∑ i ∈ Finset.Icc 1 n, {heap.getD i 0}

/-- No node is lighter than the one above it. -/
def Ordered (weight heap : List Nat) (n : Nat) : Prop :=
  ∀ j, 2 ≤ j → j ≤ n → weight.getD (heap.getD (j / 2) 0) 0 ≤ weight.getD (heap.getD j 0) 0

theorem mem_content {heap : List Nat} {n x : Nat} : x ∈ content heap n ↔ ∃ i, 1 ≤ i ∧ i ≤ n ∧ heap.getD i 0 = x := by
  simp only [content, Multiset.mem_sum, Finset.mem_Icc, Multiset.mem_singleton]
  exact ⟨fun ⟨i, h, e⟩ => ⟨i, h.1, h.2, e.symm⟩, fun ⟨i, h1, h2, e⟩ => ⟨i, ⟨h1, h2⟩, e.symm⟩⟩

theorem content_set {heap : List Nat} {n i : Nat} (h1 : 1 ≤ i) (hn : i ≤ n) (hl : i < heap.length) (v : Nat) :
    content (heap.set i v) n = {v} + ∑ j ∈ (Finset.Icc 1 n).erase i, {heap.getD j 0} := by
  rw [content, ← Finset.add_sum_erase _ _ (Finset.mem_Icc.2 ⟨h1, hn⟩), getD_set hl, if_pos rfl]
  congr 1
  refine Finset.sum_congr rfl fun j hj => ?_
  rw [getD_set hl, if_neg (Finset.ne_of_mem_erase hj).symm]

/-- Moving a node into a hole leaves the hole where the node was. -/
theorem content_move {heap : List Nat} {n z p : Nat} (hz : 1 ≤ z) (hzn : z ≤ n) (hp : 1 ≤ p) (hpn : p ≤ n) (hne : z ≠ p)
    (hl : n < heap.length) (tmp : Nat) :
    content ((heap.set z (heap.getD p 0)).set p tmp) n = content (heap.set z tmp) n := by
  have h1 : z ∈ (Finset.Icc 1 n).erase p := Finset.mem_erase.2 ⟨hne, Finset.mem_Icc.2 ⟨hz, hzn⟩⟩
  have h2 : p ∈ (Finset.Icc 1 n).erase z := Finset.mem_erase.2 ⟨hne.symm, Finset.mem_Icc.2 ⟨hp, hpn⟩⟩
  rw [content_set hp hpn (by rw [List.length_set]; omega), content_set hz hzn (by omega), ← Finset.add_sum_erase _ _ h1,
    ← Finset.add_sum_erase _ _ h2, getD_set (by omega), if_pos rfl, Finset.erase_right_comm]
  congr 2
  refine Finset.sum_congr rfl fun j hj => ?_
  have : z ≠ j := fun e => by simp [e] at hj
  rw [getD_set (by omega), if_neg this]

/-- What a rise or a fall of a node into a hole at `z` gives. -/
structure Settled (weight heap : List Nat) (n z tmp : Nat) (r : List Nat) : Prop where
  length : r.length = heap.length
  content : content r n = content (heap.set z tmp) n
  ordered : Ordered weight r n
  zeroth : r.getD 0 0 = heap.getD 0 0

theorem upHeap_settled {weight : List Nat} {tmp n : Nat} (fuel z : Nat) (heap : List Nat) (hz : 1 ≤ z) (hzn : z ≤ n)
    (hf : z ≤ fuel) (hl : n < heap.length) (h0 : weight.getD (heap.getD 0 0) 0 = 0)
    (hi : ∀ j, 2 ≤ j → j ≤ n → j ≠ z → j / 2 ≠ z →
      weight.getD (heap.getD (j / 2) 0) 0 ≤ weight.getD (heap.getD j 0) 0)
    (hc : ∀ j, 2 ≤ j → j ≤ n → j / 2 = z → weight.getD tmp 0 ≤ weight.getD (heap.getD j 0) 0 ∧
      (2 ≤ z → weight.getD (heap.getD (z / 2) 0) 0 ≤ weight.getD (heap.getD j 0) 0)) :
    Settled weight heap n z tmp (upHeap weight tmp fuel z heap) := by
  induction fuel generalizing z heap with
  | zero => omega
  | succ fuel ih =>
    unfold upHeap
    have hzl : z < heap.length := by omega
    by_cases hlt : weight.getD tmp 0 < weight.getD (heap.getD (z / 2) 0) 0
    · simp only [hlt, if_true]
      have hz2 : 2 ≤ z := by
        by_contra hn
        rw [show z / 2 = 0 by omega, h0] at hlt
        omega
      have g := fun j => getD_set hzl j (heap.getD (z / 2) 0) 0
      have h := ih (z / 2) (heap.set z (heap.getD (z / 2) 0)) (by omega) (by omega) (by omega) (by rw [List.length_set]; omega)
        (by rw [g, if_neg (by omega)]; exact h0)
        (fun j h1 h2 h3 h4 => by
          rw [g, g]
          by_cases e : z = j
          · subst e; omega
          rw [if_neg e]
          by_cases e2 : z = j / 2
          · rw [if_pos e2]; exact (hc j h1 h2 e2.symm).2 hz2
          · rw [if_neg e2]; exact hi j h1 h2 (Ne.symm e) (Ne.symm e2))
        (fun j h1 h2 h3 => by
          have up : 2 ≤ z / 2 → weight.getD (heap.getD (z / 2 / 2) 0) 0 ≤ weight.getD (heap.getD (z / 2) 0) 0 :=
            fun h => hi _ h (by omega) (by omega) (by omega)
          rw [g, g, if_neg (show ¬z = z / 2 / 2 by omega)]
          by_cases e : z = j
          · rw [if_pos e]; exact ⟨hlt.le, up⟩
          · rw [if_neg e]
            have := hi j h1 h2 (Ne.symm e) (by omega)
            rw [h3] at this
            exact ⟨hlt.le.trans this, fun h => (up h).trans this⟩)
      refine ⟨by rw [h.length, List.length_set], ?_, h.ordered, by rw [h.zeroth, g, if_neg (by omega)]⟩
      rw [h.content, content_move hz hzn (by omega) (by omega) (by omega) hl]
    · simp only [hlt, if_false]
      have g := fun j => getD_set hzl j tmp 0
      refine ⟨List.length_set, rfl, fun j h1 h2 => ?_, by rw [g, if_neg (by omega)]⟩
      rw [g, g]
      by_cases e : z = j
      · subst e; rw [if_pos rfl, if_neg (by omega)]; omega
      rw [if_neg e]
      by_cases e2 : z = j / 2
      · rw [if_pos e2]; exact (hc j h1 h2 e2.symm).1
      · rw [if_neg e2]; exact hi j h1 h2 (Ne.symm e) (Ne.symm e2)

theorem downHeap_settled {weight : List Nat} {tmp n : Nat} (fuel z : Nat) (heap : List Nat) (hz : 1 ≤ z) (hzn : z ≤ n)
    (hf : n < fuel + z) (hl : n < heap.length)
    (hi : ∀ j, 2 ≤ j → j ≤ n → j ≠ z → j / 2 ≠ z →
      weight.getD (heap.getD (j / 2) 0) 0 ≤ weight.getD (heap.getD j 0) 0)
    (hc : 2 ≤ z → weight.getD (heap.getD (z / 2) 0) 0 ≤ weight.getD tmp 0 ∧
      ∀ j, 2 ≤ j → j ≤ n → j / 2 = z → weight.getD (heap.getD (z / 2) 0) 0 ≤ weight.getD (heap.getD j 0) 0) :
    Settled weight heap n z tmp (downHeap weight n tmp fuel z heap) := by
  induction fuel generalizing z heap with
  | zero => omega
  | succ fuel ih =>
    have hzl : z < heap.length := by omega
    have stop : (∀ j, 2 ≤ j → j ≤ n → j / 2 = z → weight.getD tmp 0 ≤ weight.getD (heap.getD j 0) 0) →
        Settled weight heap n z tmp (heap.set z tmp) := fun hs => by
      have g := fun j => getD_set hzl j tmp 0
      refine ⟨List.length_set, rfl, fun j h1 h2 => ?_, by rw [g, if_neg (by omega)]⟩
      rw [g, g]
      by_cases e : z = j
      · subst e; rw [if_pos rfl, if_neg (by omega)]; exact (hc h1).1
      rw [if_neg e]
      by_cases e2 : z = j / 2
      · rw [if_pos e2]; exact hs j h1 h2 e2.symm
      · rw [if_neg e2]; exact hi j h1 h2 (Ne.symm e) (Ne.symm e2)
    unfold downHeap
    by_cases hn : n < 2 * z
    · simp only [hn, if_true]
      exact stop fun j h1 h2 h3 => by omega
    · simp only [hn, if_false]
      obtain ⟨y, hy, hyz, hyn, hmin⟩ : ∃ y, (if 2 * z < n ∧ weight.getD (heap.getD (2 * z + 1) 0) 0 <
          weight.getD (heap.getD (2 * z) 0) 0 then 2 * z + 1 else 2 * z) = y ∧ y / 2 = z ∧ y ≤ n ∧
          ∀ j, 2 ≤ j → j ≤ n → j / 2 = z → weight.getD (heap.getD y 0) 0 ≤ weight.getD (heap.getD j 0) 0 := by
        refine ⟨_, rfl, ?_, ?_, ?_⟩ <;> split
        · omega
        · omega
        · omega
        · omega
        · next h =>
          intro j h1 h2 h3
          obtain rfl | rfl : j = 2 * z ∨ j = 2 * z + 1 := by omega
          · exact h.2.le
          · exact le_rfl
        · next h =>
          intro j h1 h2 h3
          obtain rfl | rfl : j = 2 * z ∨ j = 2 * z + 1 := by omega
          · exact le_rfl
          · by_contra hcon; exact h ⟨by omega, by omega⟩
      rw [hy]
      by_cases hlt : weight.getD tmp 0 < weight.getD (heap.getD y 0) 0
      · simp only [hlt, if_true]
        exact stop fun j h1 h2 h3 => hlt.le.trans (hmin j h1 h2 h3)
      · simp only [hlt, if_false]
        have g := fun j => getD_set hzl j (heap.getD y 0) 0
        have h := ih y (heap.set z (heap.getD y 0)) (by omega) hyn (by omega) (by rw [List.length_set]; omega)
          (fun j h1 h2 h3 h4 => by
            rw [g, g]
            by_cases e : z = j
            · subst e
              rw [if_pos rfl, if_neg (by omega)]
              exact (hc h1).2 y (by omega) hyn hyz
            rw [if_neg e]
            by_cases e2 : z = j / 2
            · rw [if_pos e2]; exact hmin j h1 h2 e2.symm
            · rw [if_neg e2]; exact hi j h1 h2 (Ne.symm e) (Ne.symm e2))
          (fun h1 => by
            rw [hyz, g, if_pos rfl]
            refine ⟨by omega, fun j h2 h3 h4 => ?_⟩
            rw [g, if_neg (by omega)]
            have := hi j h2 h3 (by omega) (by omega)
            rwa [h4] at this)
        refine ⟨by rw [h.length, List.length_set], ?_, h.ordered, by rw [h.zeroth, g, if_neg (by omega)]⟩
        rw [h.content, content_move hz hzn (by omega) hyn (by omega) hl]

/-- The top of a heap is a lightest node. -/
theorem top_le {weight heap : List Nat} {n : Nat} (h : Ordered weight heap n) (j : Nat) (h1 : 1 ≤ j) (hn : j ≤ n) :
    weight.getD (heap.getD 1 0) 0 ≤ weight.getD (heap.getD j 0) 0 := by
  induction j using Nat.strongRecOn with
  | ind j ih =>
    by_cases e : j = 1
    · rw [e]
    · exact (ih (j / 2) (by omega) (by omega) (by omega)).trans (h j (by omega) hn)

/-- The heap part of a build is in order. -/
structure HeapBuild.Heap (h : HeapBuild) : Prop where
  room : h.nHeap < h.heap.length
  ordered : Ordered h.weight h.heap h.nHeap
  sentinel : h.heap.getD 0 0 = 0
  weightless : h.weight.getD 0 0 = 0

/-- A push adds its node. -/
theorem pushNode_spec {h : HeapBuild} (hh : h.Heap) (hr : h.nHeap + 1 < h.heap.length) (node : Nat) :
    (pushNode h node).Heap ∧ content (pushNode h node).heap (h.nHeap + 1) = node ::ₘ content h.heap h.nHeap ∧
      (pushNode h node).heap.length = h.heap.length := by
  have g := fun j => getD_set hr j node 0
  have s := upHeap_settled (weight := h.weight) (tmp := node) (n := h.nHeap + 1) (h.nHeap + 1) (h.nHeap + 1)
    (h.heap.set (h.nHeap + 1) node) (by omega) le_rfl le_rfl (by rw [List.length_set]; omega)
    (by rw [g, if_neg (by omega), hh.sentinel, hh.weightless])
    (fun j h1 h2 h3 h4 => by
      rw [g, g, if_neg (by omega), if_neg (by omega)]
      exact hh.ordered j h1 (by omega))
    (fun j h1 h2 h3 => by omega)
  refine ⟨⟨?_, s.ordered, ?_, hh.weightless⟩, ?_, ?_⟩
  · show h.nHeap + 1 < (upHeap _ _ _ _ _).length
    rw [s.length, List.length_set]; exact hr
  · exact s.zeroth.trans (by rw [g, if_neg (by omega)]; exact hh.sentinel)
  · show content (upHeap _ _ _ _ _) _ = _
    rw [s.content, List.set_set, content_set (by omega) le_rfl hr, content, Multiset.singleton_add]
    congr 1
    refine Finset.sum_congr ?_ fun _ _ => rfl
    ext j; simp only [Finset.mem_erase, Finset.mem_Icc]; omega
  · exact s.length.trans List.length_set

/-- A pop takes the top, a lightest node, and leaves the others. -/
theorem popNode_spec {h : HeapBuild} (hh : h.Heap) (hn : 1 ≤ h.nHeap) :
    (popNode h).2.Heap ∧ content h.heap h.nHeap = (popNode h).1 ::ₘ content (popNode h).2.heap (h.nHeap - 1) ∧
      (popNode h).2.heap.length = h.heap.length ∧
      ∀ x ∈ content h.heap h.nHeap, h.weight.getD (popNode h).1 0 ≤ h.weight.getD x 0 := by
  have hr := hh.room
  have g := fun j => getD_set (l := h.heap) (i := 1) (by omega) j (h.heap.getD h.nHeap 0) 0
  have htop : ∀ x ∈ content h.heap h.nHeap, h.weight.getD (popNode h).1 0 ≤ h.weight.getD x 0 := by
    intro x hx
    obtain ⟨j, h1, h2, rfl⟩ := mem_content.1 hx
    exact top_le hh.ordered j h1 h2
  by_cases h1 : h.nHeap = 1
  · have e : (popNode h).2.heap = (h.heap.set 1 (h.heap.getD h.nHeap 0)).set 1 (h.heap.getD h.nHeap 0) := by
      simp [popNode, h1, downHeap]
    refine ⟨⟨?_, fun j h2 h3 => ?_, ?_, hh.weightless⟩, ?_, ?_, htop⟩
    · rw [e]; simp only [List.length_set, popNode]; omega
    · simp only [popNode, h1] at h3; omega
    · rw [e, List.set_set, g, if_neg (by omega)]; exact hh.sentinel
    · rw [h1]; simp [content, popNode]
    · rw [e]; simp
  · have s := downHeap_settled (weight := h.weight) (tmp := h.heap.getD h.nHeap 0) (n := h.nHeap - 1) (h.nHeap - 1) 1
      (h.heap.set 1 (h.heap.getD h.nHeap 0)) le_rfl (by omega) (by omega) (by rw [List.length_set]; omega)
      (fun j h2 h3 h4 h5 => by
        rw [g, g, if_neg (by omega), if_neg (by omega)]
        exact hh.ordered j h2 (by omega))
      (fun h2 => by omega)
    refine ⟨⟨?_, s.ordered, ?_, hh.weightless⟩, ?_, ?_, htop⟩
    · show h.nHeap - 1 < (downHeap _ _ _ _ _ _).length
      rw [s.length, List.length_set]; omega
    · exact s.zeroth.trans (by rw [g, if_neg (by omega)]; exact hh.sentinel)
    · show _ = _ ::ₘ content (downHeap _ _ _ _ _ _) _
      rw [s.content, List.set_set, content_set le_rfl (by omega) (by omega), content,
        ← Finset.add_sum_erase _ _ (Finset.mem_Icc.2 ⟨le_rfl, hn⟩), Multiset.singleton_add, Multiset.singleton_add]
      congr 1
      rw [← Finset.add_sum_erase _ _ (show h.nHeap ∈ (Finset.Icc 1 h.nHeap).erase 1 by simp; omega), Multiset.singleton_add]
      congr 1
      refine Finset.sum_congr ?_ fun _ _ => rfl
      ext j; simp only [Finset.mem_erase, Finset.mem_Icc]; omega
    · exact s.length.trans List.length_set

end Sys2Proof.Machine
end

