-- ==== Sys2Proof/Laws/CodeLengths.lean ====
section
/-! SUPPORT. The code lengths the encoder builds (43_huffman R207, R208): they leave room for every code exactly, and
the retry loop ends with lengths of at most 20. -/

namespace Sys2Proof.Machine

/-! ## One join -/

/-- A build of `a` symbols under way: the heap holds the roots, and every other node has a parent above it. -/
structure HeapBuild.Ok (a : Nat) (b : HeapBuild) : Prop where
  heap : b.Heap
  heapLength : b.heap.length = a + 2
  weightLength : b.weight.length = 2 * a + 1
  parentLength : b.parent.length = 2 * a + 1
  count : b.nNodes + b.nHeap = 2 * a
  few : b.nHeap ≤ a
  nodup : (content b.heap b.nHeap).Nodup
  root : ∀ r ∈ content b.heap b.nHeap, 1 ≤ r ∧ r ≤ b.nNodes ∧ b.parent.getD r none = none
  fresh : ∀ k, b.nNodes < k → b.parent.getD k none = none
  above : ∀ k p, b.parent.getD k none = some p → k < p ∧ p ≤ b.nNodes

/-- What a join does: the two lightest roots `x` and `y` get a new parent, which takes their place. -/
structure Joined (a : Nat) (b c : HeapBuild) (x y : Nat) (rest : Multiset Nat) : Prop where
  before : content b.heap b.nHeap = x ::ₘ y ::ₘ rest
  after : content c.heap c.nHeap = (b.nNodes + 1) ::ₘ rest
  nHeap : c.nHeap + 1 = b.nHeap
  parent : ∀ k, c.parent.getD k none = if k = x ∨ k = y then some (b.nNodes + 1) else b.parent.getD k none
  weight : ∀ k, c.weight.getD k 0 =
    if k = b.nNodes + 1 then joinWeight (b.weight.getD x 0) (b.weight.getD y 0) else b.weight.getD k 0
  first : b.weight.getD x 0 ≤ b.weight.getD y 0
  second : ∀ r ∈ rest, b.weight.getD y 0 ≤ b.weight.getD r 0
  ok : c.Ok a

theorem joinTwo_spec {a : Nat} {b : HeapBuild} (hb : b.Ok a) (h2 : 2 ≤ b.nHeap) :
    ∃ x y rest, Joined a b (joinTwo b) x y rest := by
  obtain ⟨h1, c1, l1, m1⟩ := popNode_spec hb.heap (by omega)
  have n1 : (popNode b).2.nHeap = b.nHeap - 1 := rfl
  have w1 : (popNode b).2.weight = b.weight := rfl
  obtain ⟨h3, c3, l3, m3⟩ := popNode_spec h1 (by omega)
  set x := (popNode b).1 with hx
  set b1 := (popNode b).2 with hb1
  set y := (popNode b1).1 with hy
  set b3 := (popNode b1).2 with hb3
  have n3 : b3.nHeap = b.nHeap - 2 := by show b1.nHeap - 1 = _; omega
  have w3 : b3.weight = b.weight := rfl
  have p3 : b3.parent = b.parent := rfl
  have k3 : b3.nNodes = b.nNodes := rfl
  set rest := content b3.heap b3.nHeap with hrest
  have before : content b.heap b.nHeap = x ::ₘ y ::ₘ rest := by
    rw [c1, ← n1, c3, hrest, show b3.nHeap = b1.nHeap - 1 from rfl]
  have hcount := hb.count
  have hfew := hb.few
  have hnd := hb.nodup
  rw [before, Multiset.nodup_cons, Multiset.nodup_cons, Multiset.mem_cons] at hnd
  have hroot := hb.root
  rw [before] at hroot
  have rx := hroot x (by simp)
  have ry := hroot y (by simp)
  have rr : ∀ r ∈ rest, 1 ≤ r ∧ r ≤ b.nNodes ∧ b.parent.getD r none = none := fun r hr => hroot r (by simp [hr])
  set m := b.nNodes + 1 with hm
  set w := b.weight.set m (joinWeight (b.weight.getD x 0) (b.weight.getD y 0)) with hw
  set ps := (b.parent.set x (some m)).set y (some m) with hps
  have gw : ∀ k, w.getD k 0 = if k = m then joinWeight (b.weight.getD x 0) (b.weight.getD y 0) else b.weight.getD k 0 :=
    fun k => by
      rw [hw, getD_set (by rw [hb.weightLength]; omega)]
      simp only [eq_comm]
  have gp : ∀ k, ps.getD k none = if k = x ∨ k = y then some m else b.parent.getD k none := fun k => by
    rw [hps, getD_set (by rw [List.length_set, hb.parentLength]; omega), getD_set (by rw [hb.parentLength]; omega)]
    by_cases ey : y = k
    · simp [ey]
    · by_cases ex : x = k
      · simp [ex]
      · simp [ex, ey, Ne.symm ex, Ne.symm ey]
  set b4 : HeapBuild := { b3 with nNodes := m, parent := ps, weight := w } with hb4
  have h4 : b4.Heap := by
    refine ⟨h3.room, fun j h1' h2' => ?_, h3.sentinel, ?_⟩
    · have u : ∀ i, 1 ≤ i → i ≤ b3.nHeap → w.getD (b3.heap.getD i 0) 0 = b.weight.getD (b3.heap.getD i 0) 0 := by
        intro i hi1 hi2
        have := rr _ (mem_content.2 ⟨i, hi1, hi2, rfl⟩)
        rw [gw, if_neg (by omega)]
      show w.getD (b3.heap.getD (j / 2) 0) 0 ≤ w.getD (b3.heap.getD j 0) 0
      have h2'' : j ≤ b3.nHeap := h2'
      rw [u _ (by omega) (by omega), u _ (by omega) h2'']
      exact h3.ordered j h1' h2'
    · show w.getD 0 0 = 0
      rw [gw, if_neg (by omega)]; exact hb.heap.weightless
  have l4 : b4.heap.length = a + 2 := by show b3.heap.length = _; rw [l3, l1, hb.heapLength]
  have n4 : b4.nHeap = b.nHeap - 2 := n3
  obtain ⟨h5, c5, l5⟩ := pushNode_spec h4 (by omega) m
  have e : joinTwo b = pushNode b4 m := rfl
  have n5 : (joinTwo b).nHeap = b4.nHeap + 1 := rfl
  have after : content (joinTwo b).heap (joinTwo b).nHeap = m ::ₘ rest := by rw [n5, e]; exact c5
  refine ⟨x, y, rest, ⟨before, after, by omega, gp, gw, ?_, ?_, ?_⟩⟩
  · exact m1 y (by rw [before]; simp)
  · intro r hr
    exact m3 r (by rw [c3]; exact Multiset.mem_cons_of_mem hr)
  · refine ⟨h5, ?_, ?_, ?_, ?_, ?_, ?_, ?_, ?_, ?_⟩
    · rw [e, l5, l4]
    · show w.length = _; rw [hw, List.length_set, hb.weightLength]
    · show ps.length = _; rw [hps, List.length_set, List.length_set, hb.parentLength]
    · show m + (b4.nHeap + 1) = _; omega
    · show b4.nHeap + 1 ≤ a; omega
    · rw [after, Multiset.nodup_cons]
      exact ⟨fun h => by have := rr m h; omega, hnd.2.2⟩
    · rw [after]
      intro r hr
      show 1 ≤ r ∧ r ≤ m ∧ ps.getD r none = none
      rcases Multiset.mem_cons.1 hr with rfl | hr
      · refine ⟨by omega, le_rfl, ?_⟩
        rw [gp, if_neg (by omega)]; exact hb.fresh _ (by omega)
      · have := rr r hr
        refine ⟨this.1, by omega, ?_⟩
        rw [gp, if_neg, this.2.2]
        rintro (rfl | rfl)
        · exact hnd.1 (.inr hr)
        · exact hnd.2.1 hr
    · intro k hk
      show ps.getD k none = none
      have hk : m < k := hk
      rw [gp, if_neg (by omega)]; exact hb.fresh k (by omega)
    · intro k p hkp
      show k < p ∧ p ≤ m
      have hkp : ps.getD k none = some p := hkp
      rw [gp] at hkp
      split at hkp
      · next h => cases hkp; rcases h with rfl | rfl <;> omega
      · have := hb.above k p hkp; omega

/-! ## Depths -/

/-- More fuel than there are nodes above does not change a depth. -/
theorem nodeDepth_succ {parent : List (Option Nat)} {n : Nat}
    (h : ∀ k p, parent.getD k none = some p → k < p ∧ p ≤ n) (fuel k : Nat) (hf : n ≤ fuel + k) :
    nodeDepth parent (fuel + 1) k = nodeDepth parent fuel k := by
  induction fuel generalizing k with
  | zero =>
    have : parent.getD k none = none := by
      by_contra hc
      obtain ⟨p, hp⟩ := Option.ne_none_iff_exists'.1 hc
      have := h k p hp; omega
    simp only [nodeDepth, this]
  | succ fuel ih =>
    unfold nodeDepth
    split
    · next p hp => rw [ih p (by have := h k p hp; omega)]
    · rfl

/-- A node is one deeper than its parent. -/
theorem nodeDepth_parent {a k p : Nat} {b : HeapBuild} (hb : b.Ok a) (hn : 1 ≤ b.nHeap)
    (hp : b.parent.getD k none = some p) : nodeDepth b.parent (2 * a) k = nodeDepth b.parent (2 * a) p + 1 := by
  obtain ⟨f, hf⟩ : ∃ f, 2 * a = f + 1 := ⟨2 * a - 1, by have := hb.count; omega⟩
  have h1 : nodeDepth b.parent (f + 1) k = nodeDepth b.parent f p + 1 := by rw [nodeDepth, hp]
  rw [hf, h1, nodeDepth_succ hb.above f p (by have := hb.count; omega)]

theorem nodeDepth_root {a k : Nat} {b : HeapBuild} (hp : b.parent.getD k none = none) :
    nodeDepth b.parent (2 * a) k = 0 := by
  cases 2 * a with
  | zero => rfl
  | succ n => rw [nodeDepth, hp]

/-! ## All the joins -/

/-- The joins end with one root, keep every parent, and the roots on the way take up all the room for codes. -/
theorem joins_spec {a : Nat} (n : Nat) {b : HeapBuild} (hb : b.Ok a) (hn : b.nHeap = n + 1) :
    (joinTwo^[n] b).Ok a ∧ (joinTwo^[n] b).nHeap = 1 ∧
      (∀ k p, b.parent.getD k none = some p → (joinTwo^[n] b).parent.getD k none = some p) ∧
      ((content b.heap b.nHeap).map fun r => (1 / 2 : ℚ) ^ nodeDepth (joinTwo^[n] b).parent (2 * a) r).sum = 1 := by
  induction n generalizing b with
  | zero =>
    refine ⟨hb, hn, fun _ _ h => h, ?_⟩
    have hr := hb.root (b.heap.getD 1 0) (mem_content.2 ⟨1, le_rfl, by omega, rfl⟩)
    have : content b.heap b.nHeap = {b.heap.getD 1 0} := by rw [hn]; simp [content]
    rw [this]
    show (Multiset.map (fun r => (1 / 2 : ℚ) ^ nodeDepth b.parent (2 * a) r) _).sum = 1
    rw [Multiset.map_singleton, Multiset.sum_singleton, nodeDepth_root hr.2.2, pow_zero]
  | succ n ih =>
    obtain ⟨x, y, rest, j⟩ := joinTwo_spec hb (by omega)
    obtain ⟨i1, i2, i3, i4⟩ := ih j.ok (by have := j.nHeap; omega)
    rw [Function.iterate_succ_apply]
    set fin := joinTwo^[n] (joinTwo b)
    have hroot := hb.root
    rw [j.before] at hroot
    have px : fin.parent.getD x none = some (b.nNodes + 1) := i3 _ _ (by rw [j.parent, if_pos (.inl rfl)])
    have py : fin.parent.getD y none = some (b.nNodes + 1) := i3 _ _ (by rw [j.parent, if_pos (.inr rfl)])
    refine ⟨i1, i2, fun k p h => i3 k p ?_, ?_⟩
    · rw [j.parent, if_neg, h]
      rintro (rfl | rfl)
      · rw [(hroot k (by simp)).2.2] at h; cases h
      · rw [(hroot k (by simp)).2.2] at h; cases h
    · rw [j.after, Multiset.map_cons, Multiset.sum_cons] at i4
      rw [j.before, Multiset.map_cons, Multiset.sum_cons, Multiset.map_cons, Multiset.sum_cons,
        nodeDepth_parent i1 (by omega) px, nodeDepth_parent i1 (by omega) py, pow_succ]
      linarith

/-! ## Weights -/

/-- The upper part of a weight is its frequency, the low 8 bits are its height. -/
theorem joinWeight_eq {f1 f2 h1 h2 : Nat} (hf : f1 + f2 < 2 ^ 24) (hh1 : h1 < 255) (hh2 : h2 < 255) :
    joinWeight (2 ^ 8 * f1 + h1) (2 ^ 8 * f2 + h2) = 2 ^ 8 * (f1 + f2) + (1 + max h1 h2) := by
  have hi : ∀ f h, f < 2 ^ 24 → h < 2 ^ 8 → (2 ^ 8 * f + h) &&& 0xFFFFFF00 = 2 ^ 8 * f := by
    intro f h hf hh
    apply Nat.eq_of_testBit_eq
    intro i
    have h0 := Nat.testBit_two_pow_mul_add f (show 0 < 2 ^ 8 by decide) i
    rw [Nat.add_zero] at h0
    rw [Nat.testBit_and, Nat.testBit_two_pow_mul_add _ hh, show (0xFFFFFF00 : Nat) = 2 ^ 8 * (2 ^ 24 - 1) + 0 from rfl,
      Nat.testBit_two_pow_mul_add _ (by decide), h0]
    split
    · simp
    · rw [Nat.testBit_two_pow_sub_one]
      by_cases hb : i - 8 < 24
      · simp [hb]
      · rw [Nat.testBit_lt_two_pow (hf.trans_le (Nat.pow_le_pow_right (by decide) (by omega)))]; simp
  have lo : ∀ f h, h < 2 ^ 8 → (2 ^ 8 * f + h) &&& 0xFF = h := by
    intro f h hh
    rw [show (0xFF : Nat) = 2 ^ 8 - 1 from rfl, Nat.and_two_pow_sub_one_eq_mod, Nat.mul_add_mod, Nat.mod_eq_of_lt hh]
  rw [joinWeight, hi _ _ (by omega) (by omega), hi _ _ (by omega) (by omega), lo _ _ (by omega), lo _ _ (by omega),
    ← Nat.mul_add, ← Nat.two_pow_add_eq_or_of_lt (by omega)]

/-- The roots of a build over small frequencies: a root of height `h` weighs at least the `h`-th Fibonacci number, and
`p`, the heavier of the last pair, bounds what lies below it. -/
structure Small (b : HeapBuild) (f h : Nat → Nat) (p : Nat) : Prop where
  weight : ∀ r ∈ content b.heap b.nHeap, b.weight.getD r 0 = 2 ^ 8 * f r + h r
  heavy : ∀ r ∈ content b.heap b.nHeap, Nat.fib (h r + 2) ≤ f r
  below : ∀ r ∈ content b.heap b.nHeap, 1 ≤ h r → Nat.fib (h r + 1) ≤ p
  last : ∀ r ∈ content b.heap b.nHeap, p ≤ f r
  total : ((content b.heap b.nHeap).map f).sum ≤ 516

theorem height_le {h f : Nat} (hh : Nat.fib (h + 2) ≤ f) (hf : f ≤ 516) : h ≤ 12 := by
  by_contra hc
  have : Nat.fib 15 ≤ Nat.fib (h + 2) := Nat.fib_mono (by omega)
  have h15 : Nat.fib 15 = 610 := by decide
  omega

theorem Small.le {b : HeapBuild} {f h : Nat → Nat} {p : Nat} (s : Small b f h p) {r : Nat}
    (hr : r ∈ content b.heap b.nHeap) : f r ≤ 516 :=
  (Multiset.single_le_sum (fun _ _ => Nat.zero_le _) _ (Multiset.mem_map_of_mem f hr)).trans s.total

/-- A join keeps the bounds. -/
theorem Joined.small {a : Nat} {b c : HeapBuild} {x y : Nat} {rest : Multiset Nat} (j : Joined a b c x y rest) (hb : b.Ok a)
    {f h : Nat → Nat} {p : Nat} (s : Small b f h p) :
    Small c (fun r => if r = b.nNodes + 1 then f x + f y else f r)
      (fun r => if r = b.nNodes + 1 then 1 + max (h x) (h y) else h r) (f y) := by
  have hx : x ∈ content b.heap b.nHeap := by rw [j.before]; simp
  have hy : y ∈ content b.heap b.nHeap := by rw [j.before]; simp
  have hr : ∀ r ∈ rest, r ∈ content b.heap b.nHeap := fun r hr => by rw [j.before]; simp [hr]
  have ne : ∀ r ∈ content b.heap b.nHeap, r ≠ b.nNodes + 1 := fun r h => by have := hb.root r h; omega
  have tot := s.total
  rw [j.before, Multiset.map_cons, Multiset.map_cons, Multiset.sum_cons, Multiset.sum_cons] at tot
  have hhx := height_le (s.heavy x hx) (s.le hx)
  have hhy := height_le (s.heavy y hy) (s.le hy)
  have order : ∀ u v, u ∈ content b.heap b.nHeap → v ∈ content b.heap b.nHeap →
      b.weight.getD u 0 ≤ b.weight.getD v 0 → f u ≤ f v := by
    intro u v hu hv huv
    rw [s.weight u hu, s.weight v hv] at huv
    have := height_le (s.heavy u hu) (s.le hu)
    have := height_le (s.heavy v hv) (s.le hv)
    omega
  have fxy := order x y hx hy j.first
  have px := s.last x hx
  have py := s.last y hy
  have gx := s.heavy x hx
  have gy := s.heavy y hy
  have bx := s.below x hx
  have by' := s.below y hy
  refine ⟨?_, ?_, ?_, ?_, ?_⟩ <;> rw [j.after]
  · intro r hr'
    rcases Multiset.mem_cons.1 hr' with rfl | hr'
    · simp only [if_true]
      rw [j.weight, if_pos rfl, s.weight x hx, s.weight y hy, joinWeight_eq (by omega) (by omega) (by omega)]
    · simp only [ne r (hr r hr'), if_false]
      rw [j.weight, if_neg (ne r (hr r hr')), s.weight r (hr r hr')]
  · intro r hr'
    rcases Multiset.mem_cons.1 hr' with rfl | hr'
    · simp only [if_true]
      have key : ∀ z, Nat.fib (h z + 2) ≤ f z → (1 ≤ h z → Nat.fib (h z + 1) ≤ p) → ∀ o, 1 ≤ f o → p ≤ f o →
          Nat.fib (1 + h z + 2) ≤ f z + f o := by
        intro z hz hb o ho hpo
        rw [show 1 + h z + 2 = (h z + 1) + 2 by omega, Nat.fib_add_two]
        rcases Nat.eq_zero_or_pos (h z) with h0 | h0
        · rw [h0] at hz ⊢; simp at hz ⊢; omega
        · have := hb h0; rw [show h z + 1 + 1 = h z + 2 by omega]; omega
      have one : ∀ z, Nat.fib (h z + 2) ≤ f z → 1 ≤ f z := fun z hz => (Nat.fib_pos.2 (by omega)).trans_le hz
      rcases le_total (h x) (h y) with hle | hle
      · rw [max_eq_right hle, Nat.add_comm (f x)]; exact key y gy by' x (one x gx) px
      · rw [max_eq_left hle]; exact key x gx bx y (one y gy) py
    · simp only [ne r (hr r hr'), if_false]; exact s.heavy r (hr r hr')
  · intro r hr'
    rcases Multiset.mem_cons.1 hr' with rfl | hr'
    · simp only [if_true]
      intro _
      rcases le_total (h x) (h y) with hle | hle
      · rw [max_eq_right hle, show 1 + h y + 1 = h y + 2 by omega]; exact gy
      · rw [max_eq_left hle, show 1 + h x + 1 = h x + 2 by omega]; exact gx.trans fxy
    · simp only [ne r (hr r hr'), if_false]
      exact fun h1 => (s.below r (hr r hr') h1).trans py
  · intro r hr'
    rcases Multiset.mem_cons.1 hr' with rfl | hr'
    · simp
    · simp only [ne r (hr r hr'), if_false]; exact order y r hy (hr r hr') (j.second r hr')
  · rw [Multiset.map_cons, Multiset.sum_cons, if_pos rfl]
    have : rest.map (fun r => if r = b.nNodes + 1 then f x + f y else f r) = rest.map f :=
      Multiset.map_congr rfl fun r hr' => if_neg (ne r (hr r hr'))
    rw [this]; omega

/-- Over small frequencies no node ends deeper than 12. -/
theorem joins_depth {a : Nat} (n : Nat) {b : HeapBuild} (hb : b.Ok a) (hn : b.nHeap = n + 1) {f h : Nat → Nat} {p : Nat}
    (s : Small b f h p) :
    ∀ r ∈ content b.heap b.nHeap, nodeDepth (joinTwo^[n] b).parent (2 * a) r + h r ≤ 12 := by
  induction n generalizing b f h p with
  | zero =>
    intro r hr
    rw [Function.iterate_zero, id, nodeDepth_root (hb.root r hr).2.2, Nat.zero_add]
    exact height_le (s.heavy r hr) (s.le hr)
  | succ n ih =>
    obtain ⟨x, y, rest, j⟩ := joinTwo_spec hb (by omega)
    have hn' : (joinTwo b).nHeap = n + 1 := by have := j.nHeap; omega
    obtain ⟨i1, i2, i3, -⟩ := joins_spec n j.ok hn'
    have i := ih j.ok hn' (j.small hb s)
    rw [Function.iterate_succ_apply]
    rw [j.after] at i
    have im := i (b.nNodes + 1) (by simp)
    simp only [if_true] at im
    have px : (joinTwo^[n] (joinTwo b)).parent.getD x none = some (b.nNodes + 1) :=
      i3 _ _ (by rw [j.parent, if_pos (.inl rfl)])
    have py : (joinTwo^[n] (joinTwo b)).parent.getD y none = some (b.nNodes + 1) :=
      i3 _ _ (by rw [j.parent, if_pos (.inr rfl)])
    intro r hr
    rw [j.before] at hr
    rcases Multiset.mem_cons.1 hr with rfl | hr
    · rw [nodeDepth_parent i1 (by omega) px]; omega
    rcases Multiset.mem_cons.1 hr with rfl | hr
    · rw [nodeDepth_parent i1 (by omega) py]; omega
    · have := i r (by simp [hr])
      rwa [if_neg (by have := hb.root r (by rw [j.before]; simp [hr]); omega)] at this

/-! ## One build, and the retry -/

/-- The build before its first join: every symbol is a root. -/
def startBuild (ws : List Nat) : HeapBuild :=
  (List.range ws.length).foldl (fun h i => pushNode h (i + 1))
    { heap := List.replicate (ws.length + 2) 0
      nHeap := 0
      weight := 0 :: ws ++ List.replicate ws.length 0
      parent := List.replicate (2 * ws.length + 1) none
      nNodes := ws.length }

theorem treeLengths_eq (ws : List Nat) :
    treeLengths ws = (List.range ws.length).map fun i =>
      nodeDepth (joinTwo^[ws.length - 1] (startBuild ws)).parent (2 * ws.length) (i + 1) := rfl

theorem startBuild_spec (ws : List Nat) :
    (startBuild ws).Ok ws.length ∧ (startBuild ws).nHeap = ws.length ∧
      (startBuild ws).weight = 0 :: ws ++ List.replicate ws.length 0 ∧
      content (startBuild ws).heap (startBuild ws).nHeap = ((List.range ws.length).map fun i => i + 1 : List Nat) := by
  set a := ws.length with ha
  set s0 : HeapBuild :=
    { heap := List.replicate (a + 2) 0
      nHeap := 0
      weight := 0 :: ws ++ List.replicate a 0
      parent := List.replicate (2 * a + 1) none
      nNodes := a } with hs0
  have rep : ∀ {α : Type} (n k : Nat) (v : α), (List.replicate n v).getD k v = v := by
    intro α n k v
    rw [List.getD_eq_getElem?_getD, List.getElem?_replicate]; split <;> rfl
  have key : ∀ n, n ≤ a → let b := (List.range n).foldl (fun h i => pushNode h (i + 1)) s0
      b.Heap ∧ b.heap.length = a + 2 ∧ b.nHeap = n ∧ b.weight = s0.weight ∧ b.parent = s0.parent ∧ b.nNodes = a ∧
        content b.heap n = ((List.range n).map fun i => i + 1 : List Nat) := by
    intro n
    induction n with
    | zero =>
      intro _
      refine ⟨⟨?_, fun j h1 h2 => ?_, rep _ _ _, rfl⟩, List.length_replicate, rfl, rfl, rfl, rfl, by simp [content]⟩
      · show 0 < (List.replicate _ _).length; simp
      · exact absurd (show j ≤ 0 from h2) (by omega)
    | succ n ih =>
      intro hn
      obtain ⟨i1, i2, i3, i4, i5, i6, i7⟩ := ih (by omega)
      rw [List.range_succ, List.foldl_append]
      simp only [List.foldl_cons, List.foldl_nil]
      set b := (List.range n).foldl (fun h i => pushNode h (i + 1)) s0
      obtain ⟨p1, p2, p3⟩ := pushNode_spec i1 (by omega) (n + 1)
      refine ⟨p1, p3.trans i2, ?_, i4, i5, i6, ?_⟩
      · show b.nHeap + 1 = _; omega
      · rw [i3] at p2
        rw [p2, i7, List.map_append, Multiset.cons_coe]
        exact Multiset.coe_eq_coe.2 (List.perm_append_singleton _ _).symm
  obtain ⟨k1, k2, k3, k4, k5, k6, k7⟩ := key a le_rfl
  have e : startBuild ws = (List.range a).foldl (fun h i => pushNode h (i + 1)) s0 := rfl
  rw [← e] at k1 k2 k3 k4 k5 k6 k7
  have hc : content (startBuild ws).heap (startBuild ws).nHeap = ((List.range a).map fun i => i + 1 : List Nat) := by
    rw [k3]; exact k7
  have par : ∀ k, (startBuild ws).parent.getD k none = none := fun k => by rw [k5]; exact rep _ _ _
  refine ⟨⟨k1, k2, ?_, ?_, by omega, by omega, ?_, ?_, fun k _ => par k, fun k p h => ?_⟩, k3, k4, hc⟩
  · rw [k4]; simp [hs0, ← ha]; omega
  · rw [k5]; simp [hs0]
  · rw [hc, Multiset.coe_nodup]; exact List.nodup_range.map fun _ _ h => Nat.succ.inj h
  · rw [hc]
    intro r hr
    obtain ⟨i, hi, rfl⟩ := List.mem_map.1 (Multiset.mem_coe.1 hr)
    have := List.mem_range.1 hi
    exact ⟨by omega, by omega, par _⟩
  · rw [par] at h; cases h

theorem treeLengths_length (ws : List Nat) : (treeLengths ws).length = ws.length := by simp [treeLengths_eq]

/-- The lengths of one build take up all the room for codes. -/
theorem treeLengths_room {ws : List Nat} (hw : 1 ≤ ws.length) :
    ((treeLengths ws).map fun l => (1 / 2 : ℚ) ^ l).sum = 1 := by
  obtain ⟨h1, h2, -, h4⟩ := startBuild_spec ws
  obtain ⟨-, -, -, h⟩ := joins_spec (ws.length - 1) h1 (by omega)
  rw [h4, Multiset.map_coe, Multiset.sum_coe, List.map_map] at h
  rw [treeLengths_eq, List.map_map]
  exact h

/-- A set of lengths of at most `n` that takes up all the room, counted in codes of `n` bits. -/
theorem room_nat {n : Nat} {lens : List Nat} (h : (lens.map fun l => (1 / 2 : ℚ) ^ l).sum = 1) (hl : ∀ l ∈ lens, l ≤ n) :
    (lens.map fun l => 2 ^ (n - l)).sum = 2 ^ n := by
  have e : (((lens.map fun l => 2 ^ (n - l)).sum : ℕ) : ℚ) = 2 ^ n * (lens.map fun l => (1 / 2 : ℚ) ^ l).sum := by
    clear h
    induction lens with
    | nil => simp
    | cons l ls ih =>
      simp only [List.map_cons, List.sum_cons, Nat.cast_add, Nat.cast_pow, Nat.cast_ofNat, mul_add]
      rw [ih fun l h => hl l (by simp [h]), pow_sub₀ _ (by norm_num) (hl l (by simp)), one_div, inv_pow]
  rw [h, mul_one] at e
  exact_mod_cast e

/-- With two symbols or more, a set of lengths that takes up all the room has no length 0. -/
theorem room_pos {lens : List Nat} (h : (lens.map fun l => (1 / 2 : ℚ) ^ l).sum = 1) (h2 : 2 ≤ lens.length) :
    ∀ l ∈ lens, 1 ≤ l := by
  have pos : ∀ ls : List Nat, 0 ≤ (ls.map fun l => (1 / 2 : ℚ) ^ l).sum := fun ls =>
    List.sum_nonneg fun x hx => by obtain ⟨l, -, rfl⟩ := List.mem_map.1 hx; positivity
  intro l hl
  by_contra hc
  obtain ⟨s, u, rfl⟩ := List.append_of_mem hl
  obtain rfl : l = 0 := by omega
  rw [List.map_append, List.map_cons, List.sum_append, List.sum_cons, pow_zero] at h
  have hs := pos s
  have hu := pos u
  rcases s with _ | ⟨x, s⟩
  · rcases u with _ | ⟨x, u⟩
    · simp at h2
    · have := pos u
      have : (0 : ℚ) < (1 / 2) ^ x := by positivity
      simp only [List.map_cons, List.sum_cons, List.map_nil, List.sum_nil] at h
      linarith
  · have := pos s
    have : (0 : ℚ) < (1 / 2) ^ x := by positivity
    simp only [List.map_cons, List.sum_cons] at h
    linarith

/-- Frequencies of 1 and 2 over at most 258 symbols give lengths of at most 12. -/
theorem treeLengths_small {fs : List Nat} (h1 : 1 ≤ fs.length) (h2 : fs.length ≤ 258) (hf : ∀ f ∈ fs, 1 ≤ f ∧ f ≤ 2) :
    ∀ l ∈ treeLengths (fs.map fun f => f <<< 8), l ≤ 12 := by
  set ws := fs.map fun f => f <<< 8 with hws
  have hl : ws.length = fs.length := List.length_map _
  obtain ⟨g1, g2, g3, g4⟩ := startBuild_spec ws
  have inRange : ∀ i, i < fs.length → 1 ≤ fs.getD i 0 ∧ fs.getD i 0 ≤ 2 := fun i hi => by
    rw [List.getD_eq_getElem _ _ hi]; exact hf _ (List.getElem_mem hi)
  have s : Small (startBuild ws) (fun r => fs.getD (r - 1) 0) (fun _ => 0) 0 := by
    refine ⟨?_, ?_, fun _ _ h => by omega, fun _ _ => Nat.zero_le _, ?_⟩ <;> rw [g4]
    · intro r hr
      obtain ⟨i, hi, rfl⟩ := List.mem_map.1 (Multiset.mem_coe.1 hr)
      have hi := List.mem_range.1 hi
      rw [g3, List.cons_append, List.getD_cons_succ, List.getD_append _ _ _ _ hi, hws, Nat.add_sub_cancel,
        List.getD_eq_getElem _ _ (by simpa [hws] using hi), List.getElem_map, List.getD_eq_getElem _ _ (by omega),
        Nat.shiftLeft_eq]
      omega
    · intro r hr
      obtain ⟨i, hi, rfl⟩ := List.mem_map.1 (Multiset.mem_coe.1 hr)
      have hi := List.mem_range.1 hi
      exact (inRange i (by omega)).1
    · rw [Multiset.map_coe, Multiset.sum_coe, List.map_map]
      refine (List.sum_le_card_nsmul _ 2 fun x hx => ?_).trans ?_
      · obtain ⟨i, hi, rfl⟩ := List.mem_map.1 hx
        exact (inRange i (by have := List.mem_range.1 hi; omega)).2
      · simp only [List.length_map, List.length_range, smul_eq_mul]; omega
  intro l hl'
  rw [treeLengths_eq] at hl'
  obtain ⟨i, hi, rfl⟩ := List.mem_map.1 hl'
  have := joins_depth (ws.length - 1) g1 (by omega) s (i + 1) (by rw [g4]; exact List.mem_map.2 ⟨i, hi, rfl⟩)
  omega

/-- The retry of 43 R208 ends within the largest frequency's rounds, with a build whose lengths are in range. -/
theorem limitLengths_spec (fuel : Nat) {fs : List Nat} (h1 : 1 ≤ fs.length) (h2 : fs.length ≤ 258)
    (hf : ∀ f ∈ fs, 1 ≤ f ∧ f ≤ max fuel 2) :
    ∃ ws : List Nat, ws.length = fs.length ∧ limitLengths 20 fuel (fs.map fun f => f <<< 8) = treeLengths ws ∧
      ∀ l ∈ treeLengths ws, l ≤ 20 := by
  induction fuel generalizing fs with
  | zero =>
    refine ⟨_, List.length_map _, rfl, fun l hl => (treeLengths_small h1 h2 (fun f h => ?_) l hl).trans (by decide)⟩
    simpa using hf f h
  | succ fuel ih =>
    by_cases h : ((treeLengths (fs.map fun f => f <<< 8)).any fun l => decide (20 < l)) = true
    · have e : limitLengths 20 (fuel + 1) (fs.map fun f => f <<< 8) =
          limitLengths 20 fuel ((fs.map fun f => 1 + f / 2).map fun f => f <<< 8) := by
        simp only [limitLengths, h, if_true, List.map_map]
        congr 2
        funext f
        simp [Nat.shiftLeft_shiftRight]
      rw [e]
      obtain ⟨ws, w1, w2, w3⟩ := ih (fs := fs.map fun f => 1 + f / 2) (by simpa using h1) (by simpa using h2) (fun f hm => by
        obtain ⟨g, hg, rfl⟩ := List.mem_map.1 hm
        have := hf g hg
        omega)
      exact ⟨ws, by simpa using w1, w2, w3⟩
    · refine ⟨fs.map fun f => f <<< 8, List.length_map _, by simp only [limitLengths, h, Bool.false_eq_true, if_false],
        fun l hl => ?_⟩
      by_contra hc
      exact h (List.any_eq_true.2 ⟨l, hl, by simpa using hc⟩)

/-- `MakeCodeLengths` is one build, of as many symbols, with every length at most 20 (43 R207, R208). -/
theorem makeCodeLengths_spec {freq : List Nat} (h1 : 1 ≤ freq.length) (h2 : freq.length ≤ 258) :
    ∃ ws : List Nat, ws.length = freq.length ∧ makeCodeLengths freq 20 = treeLengths ws ∧ ∀ l ∈ treeLengths ws, l ≤ 20 := by
  have hmax : ∀ (l : List Nat) (a : Nat), a ≤ l.foldl max a ∧ ∀ x ∈ l, x ≤ l.foldl max a := by
    intro l
    induction l with
    | nil => simp
    | cons y l ih =>
      intro a
      obtain ⟨i1, i2⟩ := ih (max a y)
      refine ⟨(le_max_left _ _).trans i1, fun x hx => ?_⟩
      rcases List.mem_cons.1 hx with rfl | hx
      · exact (le_max_right _ _).trans i1
      · exact i2 x hx
  have e : makeCodeLengths freq 20 =
      limitLengths 20 (freq.foldl max 0) ((freq.map fun f => if f = 0 then 1 else f).map fun f => f <<< 8) := by
    rw [makeCodeLengths, List.map_map]; rfl
  obtain ⟨ws, w1, w2, w3⟩ := limitLengths_spec (freq.foldl max 0) (fs := freq.map fun f => if f = 0 then 1 else f)
    (by simpa using h1) (by simpa using h2) (fun f hm => by
      obtain ⟨g, hg, rfl⟩ := List.mem_map.1 hm
      have := (hmax freq 0).2 g hg
      split <;> omega)
  exact ⟨ws, by simpa using w1, e.trans w2, w3⟩

end Sys2Proof.Machine
end

