-- ==== Sys2Proof/Laws/Ops.lean ====
section
/-! SUPPORT. What the shared operations over bits, the two streams and procedures do: one lemma each for a
caller to cite. -/

namespace Sys2Proof

/-! ## Bits and values -/

@[simp] theorem bitsOf_length (n v : Nat) : (bitsOf n v).length = n := by
  induction n with
  | zero => rfl
  | succ n ih => simp [bitsOf, ih]

@[simp] theorem valueOf_nil : valueOf [] = 0 := rfl

theorem valueOf_append (xs ys : List Bool) :
    valueOf (xs ++ ys) = valueOf xs * 2 ^ ys.length + valueOf ys := by
  have acc : ∀ (ys : List Bool) (a : Nat),
      ys.foldl (fun acc b => 2 * acc + b.toNat) a =
        a * 2 ^ ys.length + ys.foldl (fun acc b => 2 * acc + b.toNat) 0 := by
    intro ys
    induction ys with
    | nil => intro a; simp
    | cons y ys ih =>
      intro a
      simp only [List.foldl_cons, List.length_cons]
      rw [ih (2 * a + y.toNat), ih (2 * 0 + y.toNat)]
      ring
  simp only [valueOf, List.foldl_append]
  exact acc ys _

theorem valueOf_cons (b : Bool) (bs : List Bool) :
    valueOf (b :: bs) = b.toNat * 2 ^ bs.length + valueOf bs := by
  have h := valueOf_append [b] bs
  simpa [valueOf] using h

theorem valueOf_lt (bs : List Bool) : valueOf bs < 2 ^ bs.length := by
  induction bs with
  | nil => simp
  | cons b bs ih =>
    rw [valueOf_cons, List.length_cons, pow_succ]
    cases b <;> simp <;> omega

/-- Reading back the bits of a field gives the field (20_memory R63, R64). -/
theorem valueOf_bitsOf (n v : Nat) : valueOf (bitsOf n v) = v % 2 ^ n := by
  induction n with
  | zero => simp [bitsOf, Nat.mod_one]
  | succ n ih =>
    rw [bitsOf, valueOf_cons, bitsOf_length, ih, Nat.mod_pow_succ, Nat.testBit_eq_decide_div_mod_eq]
    rcases Nat.mod_two_eq_zero_or_one (v / 2 ^ n) with h | h <;> simp [h, Nat.add_comm]

theorem valueOf_bitsOf_of_lt {n v : Nat} (h : v < 2 ^ n) : valueOf (bitsOf n v) = v := by
  rw [valueOf_bitsOf, Nat.mod_eq_of_lt h]

namespace Machine

/-! ## Procedures -/

@[simp] theorem andThen_done {α β : Type} (a : α) (s : State) (f : α → State → Run β) :
    (Run.done a s).andThen f = f a s := rfl

@[simp] theorem andThen_raised {α β : Type} (c : Cause) (s : State) (f : α → State → Run β) :
    (Run.raised c s).andThen f = .raised c s := rfl

@[simp] theorem andThen_broke {α β : Type} (e : Fault) (f : α → State → Run β) :
    (Run.broke e).andThen f = .broke e := rfl

@[simp] theorem fetched_ok {α β : Type} (a : α) (r : Reader) (f : α → Reader → Fetched β) :
    Fetched.andThen (.ok a, r) f = f a r := rfl

@[simp] theorem fetched_error {α β : Type} (c : Cause) (r : Reader) (f : α → Reader → Fetched β) :
    Fetched.andThen (.error c, r) f = (.error c, r) := rfl

/-! ## The writer -/

theorem writeBit_acc_lt (w : Writer) (b : Bool) (h : w.acc.length ≤ 7) :
    (writeBit w b).acc.length ≤ 7 := by
  unfold writeBit
  split
  · simp
  · simp only [List.length_append, List.length_singleton]; omega

@[simp] theorem writeBitList_nil (w : Writer) : writeBitList [] w = w := rfl

@[simp] theorem writeBitList_cons (b : Bool) (bs : List Bool) (w : Writer) :
    writeBitList (b :: bs) w = writeBitList bs (writeBit w b) := rfl

theorem writeBitList_append (xs ys : List Bool) (w : Writer) :
    writeBitList (xs ++ ys) w = writeBitList ys (writeBitList xs w) := by
  simp [writeBitList]

/-- The writer keeps less than a byte (10_state R32). -/
theorem writeBitList_acc_le (bs : List Bool) (w : Writer) (h : w.acc.length ≤ 7) :
    (writeBitList bs w).acc.length ≤ 7 := by
  induction bs generalizing w with
  | nil => exact h
  | cons b bs ih => exact ih _ (writeBit_acc_lt w b h)

/-- Only the low `m` bits of a value reach a field of `m` bits. -/
theorem bitsOf_add_mul (m n c v : Nat) (h : m ≤ n) : bitsOf m (2 ^ n * c + v) = bitsOf m v := by
  induction m with
  | zero => rfl
  | succ m ih =>
    rw [bitsOf, bitsOf, ih (by omega)]
    congr 1
    have h1 := Nat.testBit_mod_two_pow (2 ^ n * c + v) n m
    have h2 := Nat.testBit_mod_two_pow v n m
    simp only [show m < n by omega, decide_true, Bool.true_and] at h1 h2
    rw [← h1, ← h2, Nat.mul_add_mod]

/-- A bit string is the field of its own value. -/
theorem bitsOf_valueOf (bs : List Bool) : bitsOf bs.length (valueOf bs) = bs := by
  induction bs with
  | nil => rfl
  | cons b bs ih =>
    rw [List.length_cons, bitsOf, valueOf_cons, Nat.mul_comm, bitsOf_add_mul _ _ _ _ le_rfl, ih]
    congr 1
    have h := valueOf_lt bs
    rw [Nat.testBit_eq_decide_div_mod_eq]
    have : (2 ^ bs.length * b.toNat + valueOf bs) / 2 ^ bs.length = b.toNat := by
      rw [Nat.mul_add_div (Nat.two_pow_pos _), Nat.div_eq_of_lt h, Nat.add_zero]
    rw [this]
    cases b <;> simp

/-- Writing a bit appends it to everything written (40_bitio R120, R121). -/
theorem writeBit_bits (w : Writer) (b : Bool) : (writeBit w b).bits = w.bits ++ [b] := by
  unfold writeBit Writer.bits
  split
  · next h =>
    have hlen : (w.acc ++ [b]).length = 8 := by simp [h]
    have hlt := valueOf_lt (w.acc ++ [b])
    rw [hlen] at hlt
    have e : bitsOf 8 (BitVec.ofNat 8 (valueOf (w.acc ++ [b]))).toNat = w.acc ++ [b] := by
      rw [BitVec.toNat_ofNat, Nat.mod_eq_of_lt hlt]
      have := bitsOf_valueOf (w.acc ++ [b])
      rwa [hlen] at this
    simp only [List.flatMap_append, List.flatMap_cons, List.flatMap_nil, e, List.append_nil,
      List.append_assoc]
  · simp

theorem writeBitList_bits (bs : List Bool) (w : Writer) : (writeBitList bs w).bits = w.bits ++ bs := by
  induction bs generalizing w with
  | nil => simp
  | cons b bs ih => rw [writeBitList_cons, ih, writeBit_bits]; simp

theorem writeBit_sink_prefix (w : Writer) (b : Bool) : w.sink <+: (writeBit w b).sink := by
  unfold writeBit
  split
  · exact List.prefix_append _ _
  · exact List.prefix_refl _

/-- The sink is append-only (20_memory R62). -/
theorem writeBitList_sink_prefix (bs : List Bool) (w : Writer) : w.sink <+: (writeBitList bs w).sink := by
  induction bs generalizing w with
  | nil => exact List.prefix_refl _
  | cons b bs ih => exact (writeBit_sink_prefix w b).trans (ih _)

/-- Each byte pushed is counted (20_memory R62). -/
theorem writeBitList_count (bs : List Bool) (w : Writer) :
    (writeBitList bs w).count + w.sink.length = w.count + (writeBitList bs w).sink.length := by
  induction bs generalizing w with
  | nil => simp
  | cons b bs ih =>
    have h := ih (writeBit w b)
    have h1 : (writeBit w b).count + w.sink.length = w.count + (writeBit w b).sink.length := by
      unfold writeBit
      split
      · simp only [List.length_append, List.length_singleton]; omega
      · rfl
    rw [writeBitList_cons]
    omega

/-! ## The reader -/

theorem Reader.bits_eq (r : Reader) :
    r.bits = r.acc ++ (r.src.drop r.pos).flatMap (fun b => bitsOf 8 b.toNat) := rfl

theorem Reader.bits_length (r : Reader) :
    r.bits.length = r.acc.length + 8 * (r.src.length - r.pos) := by
  rw [Reader.bits_eq, List.length_append, List.length_flatMap]
  simp [Nat.mul_comm]

/-- What the fill loop leaves: the same bits, enough of them if it succeeds; and all of them in the accumulator,
too few, if it does not (40_bitio R123, R124). -/
theorem fillBits_spec (fuel n : Nat) (r : Reader) (hf : n ≤ r.acc.length + 8 * fuel) :
    (fillBits fuel n r).2.bits = r.bits ∧ (fillBits fuel n r).2.src = r.src ∧
    r.pos ≤ (fillBits fuel n r).2.pos ∧
    ((fillBits fuel n r).1 = true → n ≤ (fillBits fuel n r).2.acc.length) ∧
    ((fillBits fuel n r).1 = false →
      (fillBits fuel n r).2.acc.length < n ∧ r.src.length ≤ (fillBits fuel n r).2.pos) ∧
    (r.pos ≤ r.src.length → (fillBits fuel n r).2.pos ≤ r.src.length) ∧
    (fillBits fuel n r).2.acc.length ≤ max r.acc.length (n + 7) := by
  induction fuel generalizing r with
  | zero =>
    have h : n ≤ r.acc.length := by omega
    simp [fillBits, h]
  | succ fuel ih =>
    unfold fillBits
    split
    · next h => simp [h]
    · next h =>
      unfold srcRead
      rcases hb : r.src[r.pos]? with _ | b
      · have hlen : r.src.length ≤ r.pos := by simpa using hb
        simp; omega
      · have hlt : r.pos < r.src.length := (List.getElem?_eq_some_iff.mp hb).1
        have hget : r.src[r.pos] = b := (List.getElem?_eq_some_iff.mp hb).2
        simp only
        have hi := ih
          { r with pos := r.pos + 1, count := r.count + 1, acc := r.acc ++ bitsOf 8 b.toNat }
          (by simp; omega)
        obtain ⟨h1, h2, h3, h4, h5, h6, h7⟩ := hi
        refine ⟨?_, h2, by simp only at h3; omega, h4, h5, fun _ => h6 (by simp only; omega), ?_⟩
        · rw [h1, Reader.bits_eq, Reader.bits_eq, List.drop_eq_getElem_cons hlt, hget]
          simp
        · simp only [List.length_append, bitsOf_length] at h7
          omega

/-- A read that succeeds: there were `n` bits, their value is returned, and the rest stays (40_bitio R123). -/
theorem readBits_ok {n v : Nat} {r r' : Reader} (h : readBits n r = (.ok v, r')) :
    n ≤ r.bits.length ∧ v = valueOf (r.bits.take n) ∧ r'.bits = r.bits.drop n ∧ r'.src = r.src ∧
    r.pos ≤ r'.pos ∧ (r.pos ≤ r.src.length → r'.pos ≤ r.src.length) ∧
    r'.acc.length ≤ max r.acc.length 7 := by
  unfold readBits at h
  obtain ⟨h1, h2, h3, h4, -, h6, h7⟩ := fillBits_spec n n r (by omega)
  rcases hfill : fillBits n n r with ⟨ok, q⟩
  rw [hfill] at h h1 h2 h3 h4 h6 h7
  cases ok with
  | false => simp at h
  | true =>
    simp only [Prod.mk.injEq, Except.ok.injEq] at h
    obtain ⟨rfl, rfl⟩ := h
    simp only at h1 h2 h3 h6 h7
    have hq := h4 rfl
    have hbits : q.bits = q.acc ++ (q.src.drop q.pos).flatMap (fun b => bitsOf 8 b.toNat) := rfl
    refine ⟨?_, ?_, ?_, h2, h3, h6, ?_⟩
    · rw [← h1, hbits, List.length_append]; exact le_trans hq (Nat.le_add_right _ _)
    · rw [← h1, hbits, List.take_append_of_le_length hq]
    · rw [← h1, hbits, List.drop_append_of_le_length hq]; rfl
    · simp only [List.length_drop]; omega

/-- A read that fails: there were not `n` bits, none is consumed, and the source is at its end (40_bitio
R124). -/
theorem readBits_error {n : Nat} {c : Cause} {r r' : Reader} (h : readBits n r = (.error c, r')) :
    c = .unexpectedEndOfInput ∧ r.bits.length < n ∧ r'.bits = r.bits ∧ r'.src = r.src ∧
    r'.acc.length < n ∧ r.pos ≤ r'.pos ∧ (r.pos ≤ r.src.length → r'.pos = r.src.length) := by
  unfold readBits at h
  obtain ⟨h1, h2, h3, -, h5, h6, -⟩ := fillBits_spec n n r (by omega)
  rcases hfill : fillBits n n r with ⟨ok, q⟩
  rw [hfill] at h h1 h2 h3 h5 h6
  cases ok with
  | true => simp at h
  | false =>
    simp only [Prod.mk.injEq, Except.error.injEq] at h
    obtain ⟨rfl, rfl⟩ := h
    simp only at h1 h2 h3 h6
    obtain ⟨hq, hp⟩ := h5 rfl
    simp only at hq hp
    have hlen := Reader.bits_length q
    rw [h1, h2] at hlen
    exact ⟨rfl, by omega, h1, h2, hq, h3, fun h => Nat.le_antisymm (h6 h) hp⟩

/-- A read of bits that are there succeeds. -/
theorem readBits_append {n : Nat} {r : Reader} {bs rest : List Bool} (hb : r.bits = bs ++ rest)
    (hn : bs.length = n) : ∃ r', readBits n r = (.ok (valueOf bs), r') ∧ r'.bits = rest := by
  rcases h : readBits n r with ⟨v | v, r'⟩
  · have := readBits_error h
    rw [hb, List.length_append] at this
    omega
  · obtain ⟨-, hv, hr, -⟩ := readBits_ok h
    refine ⟨r', ?_, ?_⟩
    · rw [hv, hb, ← hn, List.take_left]
    · rw [hr, hb, ← hn, List.drop_left]

end Machine
end Sys2Proof
end

