-- ==== Sys2Proof/Laws/Fetch.lean ====
section
/-! SUPPORT. What fetching a wire element does to the reader and what it can answer: one lemma for each of the
reads of Machine/Fetch.lean. -/

namespace Sys2Proof.Machine

/-- `r'` is `r` after reading on: the same source, no bit skipped, none put back. -/
structure Reader.Past (r r' : Reader) : Prop where
  src : r'.src = r.src
  pos : r.pos ≤ r'.pos
  bits : r'.bits <:+ r.bits
  ok : r.Ok → r'.Ok

theorem Reader.Past.refl (r : Reader) : r.Past r := ⟨rfl, le_rfl, List.suffix_refl _, id⟩

theorem Reader.Past.trans {a b c : Reader} (h : a.Past b) (k : b.Past c) : a.Past c :=
  ⟨k.src.trans h.src, h.pos.trans k.pos, k.bits.trans h.bits, k.ok ∘ h.ok⟩

theorem readBits_past {n : Nat} (hn : n ≤ 32) (r : Reader) : r.Past (readBits n r).2 := by
  rcases h : readBits n r with ⟨v | v, r'⟩
  · obtain ⟨-, -, hb, hs, ha, hp, hq⟩ := readBits_error h
    refine ⟨hs, hp, hb ▸ List.suffix_refl _, fun hr => ⟨by simp only; omega, ?_⟩⟩
    rw [hs]; exact (hq hr.2).le
  · obtain ⟨-, -, hb, hs, hp, hq, ha⟩ := readBits_ok h
    refine ⟨hs, hp, hb ▸ List.drop_suffix _ _, fun hr => ⟨?_, ?_⟩⟩
    · have := hr.1; simp only at ha ⊢; omega
    · rw [hs]; exact hq hr.2

/-- A chain of reads goes past its start. -/
theorem andThen_past {α β : Type} {r : Reader} {x : Fetched α} {f : α → Reader → Fetched β}
    (hx : r.Past x.2) (hf : ∀ a q, x = (.ok a, q) → q.Past (f a q).2) : r.Past (x.andThen f).2 := by
  rcases x with ⟨c | a, q⟩
  · exact hx
  · exact hx.trans (hf a q rfl)

theorem readBits_shorter {n v : Nat} {r r' : Reader} (hn : 1 ≤ n) (h : readBits n r = (.ok v, r')) :
    r'.bits.length < r.bits.length := by
  obtain ⟨hl, -, hb, -⟩ := readBits_ok h
  rw [hb, List.length_drop]; omega

/-- What every part of a fetch promises: it reads on; an element that is fetched is a wire element; a cause is
one of DEC_READ's. -/
structure Goes (r : Reader) (x : Fetched Instr) : Prop where
  past : r.Past x.2
  elem : ∀ i, x.1 = .ok i → i.isCommand = false
  cause : ∀ c, x.1 = .error c → isDecodeFault c = true

/-- What a fetch promises: also, an element that is fetched took at least one bit. -/
structure Fetches (r : Reader) (x : Fetched Instr) : Prop extends Goes r x where
  less : ∀ i, x.1 = .ok i → x.2.bits.length < r.bits.length

theorem goes_ok {i : Instr} (r : Reader) (h : i.isCommand = false) : Goes r (.ok i, r) :=
  ⟨.refl r, fun j hj => by cases hj; exact h, fun c hc => by cases hc⟩

theorem goes_error {c : Cause} (r : Reader) (h : isDecodeFault c = true) : Goes r (.error c, r) :=
  ⟨.refl r, fun j hj => (by cases hj), fun c hc => by cases hc; exact h⟩

theorem fetches_error {c : Cause} (r : Reader) (h : isDecodeFault c = true) : Fetches r (.error c, r) :=
  ⟨goes_error r h, fun j hj => by cases hj⟩

/-- A read, then something that fetches or stops. -/
theorem fetches_read {n : Nat} {r : Reader} {f : Nat → Reader → Fetched Instr} (h1 : 1 ≤ n) (hn : n ≤ 32)
    (hf : ∀ v q, Goes q (f v q)) : Fetches r ((readBits n r).andThen f) := by
  have hp := readBits_past hn r
  rcases h : readBits n r with ⟨c | v, q⟩
  · rw [h] at hp
    refine ⟨⟨hp, fun i hi => (by cases hi), fun c' hc => ?_⟩, fun i hi => by cases hi⟩
    cases hc
    rw [(readBits_error h).1]
    rfl
  · rw [h] at hp
    obtain ⟨a, b, c⟩ := hf v q
    exact ⟨⟨hp.trans a, b, c⟩, fun i hi => lt_of_le_of_lt a.bits.length_le (readBits_shorter h1 h)⟩

theorem fetchField_fetches {n : Nat} {f : Nat → Instr} (h1 : 1 ≤ n) (hn : n ≤ 32)
    (hf : ∀ v, (f v).isCommand = false) (r : Reader) : Fetches r (fetchField n f r) :=
  fetches_read h1 hn fun v q => goes_ok q (hf v)

theorem fetchTrailer_fetches (r : Reader) : Fetches r (fetchTrailer r) :=
  fetchField_fetches (n := 32) (f := combinedCrcField) (by omega) (by omega) (fun _ => rfl) r

theorem fetchMagic_fetches (r : Reader) : Fetches r (fetchMagic r) := by
  unfold fetchMagic
  refine fetches_read (by omega) (by omega) fun hi q => Fetches.toGoes ?_
  refine fetches_read (by omega) (by omega) fun lo q => ?_
  generalize hi * 2 ^ 24 + lo = m
  split
  · exact goes_ok q rfl
  split
  · exact goes_ok q rfl
  · exact goes_error q rfl

theorem expectByte_read (want : Nat) (c : Cause) (f : Unit → Reader → Fetched Instr) (r : Reader) :
    (expectByte want c r).andThen f =
      (readBits 8 r).andThen fun v r => if v = want then f () r else (.error c, r) := by
  unfold expectByte
  rcases readBits 8 r with ⟨c | v, q⟩
  · rfl
  · simp only [fetched_ok]; split <;> rfl

theorem fetches_expect {want : Nat} {c : Cause} {f : Unit → Reader → Fetched Instr} {r : Reader}
    (hc : isDecodeFault c = true) (hf : ∀ q, Fetches q (f () q)) :
    Fetches r ((expectByte want c r).andThen f) := by
  rw [expectByte_read]
  refine fetches_read (by omega) (by omega) fun v q => ?_
  split
  · exact (hf q).toGoes
  · exact goes_error q hc

theorem fetchHeader_fetches (r : Reader) : Fetches r (fetchHeader r) := by
  unfold fetchHeader
  refine fetches_expect rfl fun q => fetches_expect rfl fun q => fetches_expect rfl fun q => ?_
  refine fetches_read (by omega) (by omega) fun d q => ?_
  split
  · exact goes_ok q rfl
  · exact goes_error q rfl

theorem fetchUnary_goes (fuel j : Nat) (r : Reader) : Goes r (fetchUnary fuel j r) := by
  induction fuel generalizing j r with
  | zero => exact goes_error r rfl
  | succ fuel ih =>
    unfold fetchUnary
    refine Fetches.toGoes (fetches_read (by omega) (by omega) fun b q => ?_)
    split
    · exact goes_ok q rfl
    · exact ih _ _

theorem fetchUnary_fetches (fuel j : Nat) (r : Reader) : Fetches r (fetchUnary fuel j r) := by
  cases fuel with
  | zero => exact fetches_error r rfl
  | succ fuel =>
    unfold fetchUnary
    refine fetches_read (by omega) (by omega) fun b q => ?_
    split
    · exact goes_ok q rfl
    · exact fetchUnary_goes _ _ _

theorem fetchAdjust_fetches (r : Reader) : Fetches r (fetchAdjust r) := by
  unfold fetchAdjust
  refine fetches_read (by omega) (by omega) fun b q => ?_
  split
  · exact goes_ok q rfl
  · refine Fetches.toGoes (fetches_read (by omega) (by omega) fun b q => ?_)
    split
    · exact goes_ok q rfl
    · exact goes_ok q rfl

theorem symbolAt_goes (t : DecTable) (zn zvec : Nat) (r : Reader) : Goes r (symbolAt t zn zvec r) := by
  unfold symbolAt
  dsimp only
  split
  · exact goes_error r rfl
  split
  · exact goes_ok r rfl
  · exact goes_error r rfl

theorem extendCode_goes (t : DecTable) (fuel zn zvec : Nat) (r : Reader) :
    Goes r (extendCode t fuel zn zvec r) := by
  induction fuel generalizing zn zvec r with
  | zero => exact goes_error r rfl
  | succ fuel ih =>
    unfold extendCode
    split
    · split
      · exact goes_error r rfl
      · exact Fetches.toGoes (fetches_read (by omega) (by omega) fun b q => ih _ _ _)
    · exact symbolAt_goes t zn zvec r

theorem decodeSymbol_fetches {t : DecTable} (h1 : 1 ≤ t.minLen) (hn : t.minLen ≤ 32) (r : Reader) :
    Fetches r (decodeSymbol t r) := fetches_read h1 hn fun _ _ => extendCode_goes _ _ _ _ _

theorem fetchSymbol_fetches {sc : DecScratch} {a : Nat} (h : ∀ t ∈ sc.tables, t.Ok a) (r : Reader) :
    Fetches r (fetchSymbol sc r) := by
  unfold fetchSymbol
  split
  · exact fetches_error r rfl
  split
  · next t ht =>
    obtain ⟨h1, h2, h3, -⟩ := h t (List.mem_of_getElem? ht)
    unfold maxCodeLen at h3
    exact decodeSymbol_fetches h1 (by omega) r
  · exact fetches_error r rfl

/-- A block's element, under tables that are in order. -/
theorem fetchBlock_fetches {sc : DecScratch} {a : Nat} (h : ∀ t ∈ sc.tables, t.Ok a) (r : Reader) :
    Fetches r (fetchBlock sc r) := by
  unfold fetchBlock
  split
  · exact fetchField_fetches (by omega) (by omega) (fun _ => rfl) r
  · exact fetchField_fetches (by omega) (by omega) (fun _ => rfl) r
  · exact fetchField_fetches (by omega) (by omega) (fun _ => rfl) r
  · exact fetchField_fetches (by omega) (by omega) (fun _ => rfl) r
  · exact fetchField_fetches (by omega) (by omega) (fun _ => rfl) r
  · exact fetchField_fetches (by omega) (by omega) (fun _ => rfl) r
  · exact fetchField_fetches (by omega) (by omega) (fun _ => rfl) r
  · exact fetchUnary_fetches _ _ r
  · exact fetchField_fetches (by omega) (by omega) (fun _ => rfl) r
  · exact fetchAdjust_fetches r
  · exact fetchSymbol_fetches h r

theorem DecScratch.ok_iff (k : Nat) (sc : DecScratch) :
    sc.ok k = true ↔ sc.MappingOk ∧ sc.SelectorsOk ∧ sc.LengthsOk ∧ sc.SymbolsOk k := by
  simp only [DecScratch.ok, Bool.and_eq_true, decide_eq_true_eq, and_assoc]

theorem fetchElement_fetches {d : Decoder} {x : Fetched Instr} {r : Reader} (hd : d.Ok true)
    (h : fetchElement d r = some x) : Fetches r x := by
  unfold fetchElement at h
  split at h
  · cases h; exact fetchHeader_fetches r
  · split at h
    · cases h; exact fetchMagic_fetches r
    · next sc hsc =>
      cases h
      have := (DecScratch.ok_iff _ _).1 (hd.2.2.2.1.2 sc (by simp [hsc]))
      exact fetchBlock_fetches this.2.2.1.2.2.2.1 r
  · cases h; exact fetchTrailer_fetches r
  all_goals cases h

end Sys2Proof.Machine
end

