-- ==== Sys2Proof/Laws/State.lean ====
section
/-! SUPPORT. One lemma per field for each update of the state, so that no proof unfolds an update. -/

namespace Sys2Proof.Machine

@[simp] theorem succeed_arg0 (s : State) : (succeed s).arg0 = s.arg0 := rfl
@[simp] theorem succeed_result (s : State) : (succeed s).result = s.result := rfl
@[simp] theorem succeed_lastCause (s : State) : (succeed s).lastCause = none := rfl
@[simp] theorem succeed_bw (s : State) : (succeed s).bw = s.bw := rfl
@[simp] theorem succeed_br (s : State) : (succeed s).br = s.br := rfl
@[simp] theorem succeed_crcx (s : State) : (succeed s).crcx = s.crcx := rfl
@[simp] theorem succeed_enc (s : State) : (succeed s).enc = s.enc := rfl
@[simp] theorem succeed_dec (s : State) : (succeed s).dec = s.dec := rfl
@[simp] theorem succeed_reading (s : State) : (succeed s).reading = s.reading := rfl
@[simp] theorem succeed_host (s : State) : (succeed s).host = s.host := rfl
@[simp] theorem succeed_observed (s : State) : (succeed s).observed = s.observed := rfl
@[simp] theorem succeed_sortFaults (s : State) : (succeed s).sortFaults = s.sortFaults := rfl

@[simp] theorem recordCause_arg0 (c : Option Cause) (s : State) : (recordCause c s).arg0 = s.arg0 := rfl
@[simp] theorem recordCause_result (c : Option Cause) (s : State) :
    (recordCause c s).result = causeResult := rfl
@[simp] theorem recordCause_lastCause (c : Option Cause) (s : State) : (recordCause c s).lastCause = c := rfl
@[simp] theorem recordCause_bw (c : Option Cause) (s : State) : (recordCause c s).bw = s.bw := rfl
@[simp] theorem recordCause_br (c : Option Cause) (s : State) : (recordCause c s).br = s.br := rfl
@[simp] theorem recordCause_crcx (c : Option Cause) (s : State) : (recordCause c s).crcx = s.crcx := rfl
@[simp] theorem recordCause_enc (c : Option Cause) (s : State) : (recordCause c s).enc = s.enc := rfl
@[simp] theorem recordCause_dec (c : Option Cause) (s : State) : (recordCause c s).dec = s.dec := rfl
@[simp] theorem recordCause_reading (c : Option Cause) (s : State) :
    (recordCause c s).reading = s.reading := rfl
@[simp] theorem recordCause_host (c : Option Cause) (s : State) : (recordCause c s).host = s.host := rfl
@[simp] theorem recordCause_observed (c : Option Cause) (s : State) :
    (recordCause c s).observed = s.observed := rfl
@[simp] theorem recordCause_sortFaults (c : Option Cause) (s : State) :
    (recordCause c s).sortFaults = s.sortFaults := rfl

@[simp] theorem setResult_arg0 (v : Word) (s : State) : (setResult v s).arg0 = s.arg0 := rfl
@[simp] theorem setResult_result (v : Word) (s : State) : (setResult v s).result = v := rfl
@[simp] theorem setResult_lastCause (v : Word) (s : State) : (setResult v s).lastCause = s.lastCause := rfl
@[simp] theorem setResult_bw (v : Word) (s : State) : (setResult v s).bw = s.bw := rfl
@[simp] theorem setResult_br (v : Word) (s : State) : (setResult v s).br = s.br := rfl
@[simp] theorem setResult_crcx (v : Word) (s : State) : (setResult v s).crcx = s.crcx := rfl
@[simp] theorem setResult_enc (v : Word) (s : State) : (setResult v s).enc = s.enc := rfl
@[simp] theorem setResult_dec (v : Word) (s : State) : (setResult v s).dec = s.dec := rfl
@[simp] theorem setResult_reading (v : Word) (s : State) : (setResult v s).reading = s.reading := rfl
@[simp] theorem setResult_host (v : Word) (s : State) : (setResult v s).host = s.host := rfl
@[simp] theorem setResult_observed (v : Word) (s : State) : (setResult v s).observed = s.observed := rfl
@[simp] theorem setResult_sortFaults (v : Word) (s : State) : (setResult v s).sortFaults = s.sortFaults := rfl

@[simp] theorem encFault_arg0 (c : Cause) (s : State) : (encFault c s).arg0 = s.arg0 := rfl
@[simp] theorem encFault_result (c : Cause) (s : State) : (encFault c s).result = causeResult := rfl
@[simp] theorem encFault_lastCause (c : Cause) (s : State) : (encFault c s).lastCause = some c := rfl
@[simp] theorem encFault_bw (c : Cause) (s : State) : (encFault c s).bw = s.bw := rfl
@[simp] theorem encFault_br (c : Cause) (s : State) : (encFault c s).br = s.br := rfl
@[simp] theorem encFault_crcx (c : Cause) (s : State) : (encFault c s).crcx = s.crcx := rfl
@[simp] theorem encFault_enc (c : Cause) (s : State) :
    (encFault c s).enc = { s.enc with state := .faulted, cause := some c, scratch := none } := rfl
@[simp] theorem encFault_dec (c : Cause) (s : State) : (encFault c s).dec = s.dec := rfl
@[simp] theorem encFault_reading (c : Cause) (s : State) : (encFault c s).reading = s.reading := rfl
@[simp] theorem encFault_host (c : Cause) (s : State) : (encFault c s).host = s.host := rfl
@[simp] theorem encFault_observed (c : Cause) (s : State) : (encFault c s).observed = s.observed := rfl
@[simp] theorem encFault_sortFaults (c : Cause) (s : State) : (encFault c s).sortFaults = s.sortFaults := rfl

@[simp] theorem decFault_arg0 (c : Cause) (s : State) : (decFault c s).arg0 = s.arg0 := rfl
@[simp] theorem decFault_result (c : Cause) (s : State) : (decFault c s).result = causeResult := rfl
@[simp] theorem decFault_lastCause (c : Cause) (s : State) : (decFault c s).lastCause = some c := rfl
@[simp] theorem decFault_bw (c : Cause) (s : State) : (decFault c s).bw = s.bw := rfl
@[simp] theorem decFault_br (c : Cause) (s : State) : (decFault c s).br = s.br := rfl
@[simp] theorem decFault_crcx (c : Cause) (s : State) : (decFault c s).crcx = s.crcx := rfl
@[simp] theorem decFault_enc (c : Cause) (s : State) : (decFault c s).enc = s.enc := rfl
@[simp] theorem decFault_dec (c : Cause) (s : State) :
    (decFault c s).dec =
      { s.dec with state := .faulted, cause := some c, blk := none, scratch := none } := rfl
@[simp] theorem decFault_reading (c : Cause) (s : State) : (decFault c s).reading = false := rfl
@[simp] theorem decFault_host (c : Cause) (s : State) : (decFault c s).host = s.host := rfl
@[simp] theorem decFault_observed (c : Cause) (s : State) : (decFault c s).observed = s.observed := rfl
@[simp] theorem decFault_sortFaults (c : Cause) (s : State) : (decFault c s).sortFaults = s.sortFaults := rfl

@[simp] theorem setScratch_arg0 (sc : DecScratch) (s : State) : (setScratch sc s).arg0 = s.arg0 := rfl
@[simp] theorem setScratch_result (sc : DecScratch) (s : State) : (setScratch sc s).result = s.result := rfl
@[simp] theorem setScratch_lastCause (sc : DecScratch) (s : State) :
    (setScratch sc s).lastCause = s.lastCause := rfl
@[simp] theorem setScratch_bw (sc : DecScratch) (s : State) : (setScratch sc s).bw = s.bw := rfl
@[simp] theorem setScratch_br (sc : DecScratch) (s : State) : (setScratch sc s).br = s.br := rfl
@[simp] theorem setScratch_crcx (sc : DecScratch) (s : State) : (setScratch sc s).crcx = s.crcx := rfl
@[simp] theorem setScratch_enc (sc : DecScratch) (s : State) : (setScratch sc s).enc = s.enc := rfl
@[simp] theorem setScratch_dec (sc : DecScratch) (s : State) :
    (setScratch sc s).dec = { s.dec with scratch := some sc } := rfl
@[simp] theorem setScratch_reading (sc : DecScratch) (s : State) :
    (setScratch sc s).reading = s.reading := rfl
@[simp] theorem setScratch_host (sc : DecScratch) (s : State) : (setScratch sc s).host = s.host := rfl
@[simp] theorem setScratch_observed (sc : DecScratch) (s : State) :
    (setScratch sc s).observed = s.observed := rfl
@[simp] theorem setScratch_sortFaults (sc : DecScratch) (s : State) :
    (setScratch sc s).sortFaults = s.sortFaults := rfl

/-- `BuildChain()` and the end of `ParseBlock()` (45 R284, R291, R292): the block opens with the chain of its own
frequencies. -/
theorem openBlock_countBlock (sc : DecScratch) (s : State) :
    openBlock (countBlock sc s) =
      .next
        { s with
          dec :=
            { s.dec with
              state := .decodingBlock
              crc := crcSeed
              blk := some (startBlock sc.origPtr sc.out (countBytes sc.out))
              scratch := none } } := rfl

@[simp] theorem appendRun_arg0 (c : Byte) (s : State) : (appendRun c s).arg0 = s.arg0 := rfl
@[simp] theorem appendRun_result (c : Byte) (s : State) : (appendRun c s).result = s.result := rfl
@[simp] theorem appendRun_lastCause (c : Byte) (s : State) : (appendRun c s).lastCause = s.lastCause := rfl
@[simp] theorem appendRun_bw (c : Byte) (s : State) : (appendRun c s).bw = s.bw := rfl
@[simp] theorem appendRun_br (c : Byte) (s : State) : (appendRun c s).br = s.br := rfl
@[simp] theorem appendRun_crcx (c : Byte) (s : State) : (appendRun c s).crcx = s.crcx := rfl
@[simp] theorem appendRun_enc (c : Byte) (s : State) :
    (appendRun c s).enc =
      { s.enc with
        block := s.enc.block ++ runBytes c s.enc.run
        crc := crcRepeat s.enc.run c s.enc.crc
        cur := none
        run := 0 } := rfl
@[simp] theorem appendRun_dec (c : Byte) (s : State) : (appendRun c s).dec = s.dec := rfl
@[simp] theorem appendRun_reading (c : Byte) (s : State) : (appendRun c s).reading = s.reading := rfl
@[simp] theorem appendRun_host (c : Byte) (s : State) : (appendRun c s).host = s.host := rfl
@[simp] theorem appendRun_observed (c : Byte) (s : State) : (appendRun c s).observed = s.observed := rfl
@[simp] theorem appendRun_sortFaults (c : Byte) (s : State) : (appendRun c s).sortFaults = s.sortFaults := rfl

@[simp] theorem resetCore_arg0 (s : State) : (resetCore s).arg0 = 0 := rfl
@[simp] theorem resetCore_result (s : State) : (resetCore s).result = 0 := rfl
@[simp] theorem resetCore_lastCause (s : State) : (resetCore s).lastCause = none := rfl
@[simp] theorem resetCore_bw (s : State) : (resetCore s).bw = { Writer.reset with sink := s.bw.sink } := rfl
@[simp] theorem resetCore_br (s : State) :
    (resetCore s).br = { Reader.reset with src := s.br.src, pos := s.br.pos } := rfl
@[simp] theorem resetCore_crcx (s : State) : (resetCore s).crcx = CrcUnit.reset := rfl
@[simp] theorem resetCore_enc (s : State) : (resetCore s).enc = Encoder.reset := rfl
@[simp] theorem resetCore_dec (s : State) : (resetCore s).dec = Decoder.reset := rfl
@[simp] theorem resetCore_reading (s : State) : (resetCore s).reading = false := rfl
@[simp] theorem resetCore_host (s : State) : (resetCore s).host = s.host := rfl
@[simp] theorem resetCore_observed (s : State) : (resetCore s).observed = s.observed := rfl
@[simp] theorem resetCore_sortFaults (s : State) : (resetCore s).sortFaults = s.sortFaults := rfl

@[simp] theorem deliver_bw (c : Byte) (b : DecBlock) (s : State) : (deliver c b s).bw = s.bw := rfl
@[simp] theorem deliver_br (c : Byte) (b : DecBlock) (s : State) : (deliver c b s).br = s.br := rfl
@[simp] theorem deliver_enc (c : Byte) (b : DecBlock) (s : State) : (deliver c b s).enc = s.enc := rfl
@[simp] theorem deliver_crcx (c : Byte) (b : DecBlock) (s : State) : (deliver c b s).crcx = s.crcx := rfl
@[simp] theorem deliver_arg0 (c : Byte) (b : DecBlock) (s : State) : (deliver c b s).arg0 = s.arg0 := rfl
@[simp] theorem deliver_host (c : Byte) (b : DecBlock) (s : State) : (deliver c b s).host = s.host := rfl
@[simp] theorem deliver_observed (c : Byte) (b : DecBlock) (s : State) :
    (deliver c b s).observed = s.observed := rfl
@[simp] theorem deliver_sortFaults (c : Byte) (b : DecBlock) (s : State) :
    (deliver c b s).sortFaults = s.sortFaults := rfl
@[simp] theorem deliver_reading (c : Byte) (b : DecBlock) (s : State) : (deliver c b s).reading = false := rfl
@[simp] theorem deliver_result (c : Byte) (b : DecBlock) (s : State) :
    (deliver c b s).result = c.setWidth 32 := rfl
@[simp] theorem deliver_lastCause (c : Byte) (b : DecBlock) (s : State) :
    (deliver c b s).lastCause = none := rfl
@[simp] theorem deliver_dec (c : Byte) (b : DecBlock) (s : State) :
    (deliver c b s).dec = { s.dec with blk := some b, crc := crcUpdate s.dec.crc c } := rfl

end Sys2Proof.Machine
end

