-- ==== Sys2Proof/Laws/Decoder.lean ====
section
/-! SUPPORT. What the decoder's parts do: where an element runs, and what each keeps of the invariant. -/

namespace Sys2Proof.Machine

/-! ## Places -/

theorem atStream_here {d : DecState} {s : State} {k : Host.Outcome State Fault Refusal}
    (h : s.reading = true) (hd : s.dec.state = d) (hs : s.dec.scratch = none) : atStream d s k = k := by
  simp [atStream, h, hd, hs]

theorem atBlock_here {p : BlockPos} {s : State} {sc : DecScratch}
    {k : DecScratch → Host.Outcome State Fault Refusal} (h : s.reading = true)
    (hd : s.dec.state = .expectBlockHeader) (hs : s.dec.scratch = some sc) (hp : sc.pos = p) :
    atBlock p s k = k sc := by
  simp [atBlock, h, hd, hs, hp]

theorem atStream_next {d : DecState} {s t : State} {k : Host.Outcome State Fault Refusal}
    (h : atStream d s k = .next t) :
    s.reading = true ∧ s.dec.state = d ∧ s.dec.scratch = none ∧ k = .next t := by
  unfold atStream at h
  split at h
  · next hc => exact ⟨hc.1, hc.2.1, hc.2.2, h⟩
  · cases h

theorem atBlock_next {p : BlockPos} {s t : State} {k : DecScratch → Host.Outcome State Fault Refusal}
    (h : atBlock p s k = .next t) :
    ∃ sc, s.reading = true ∧ s.dec.state = .expectBlockHeader ∧ s.dec.scratch = some sc ∧ sc.pos = p ∧
      k sc = .next t := by
  unfold atBlock at h
  split at h
  · next sc hs =>
    split at h
    · next hc => exact ⟨sc, hc.1, hc.2.1, hs, hc.2.2, h⟩
    · cases h
  · cases h

/-! ## The invariant along the decoder -/

/-- The decoder after a fault is in order (45 R299). -/
theorem decFault_inv {s : State} {c : Cause} (h : s.Inv) (hc : isDecodeFault c = true) :
    (decFault c s).Inv := by
  obtain ⟨hw, hr, he, hd⟩ := h
  refine ⟨hw, hr, he, ⟨⟨fun _ => rfl, fun h => by cases h⟩, ⟨hd.2.1.1, fun h => ?_⟩, ?_, ?_, ?_⟩⟩
  · simp at h
  · simp
  · simp
  · simp [hc]

theorem wireFault_inv {s t : State} {c : Cause} (h : s.Inv) (hc : isDecodeFault c = true)
    (ht : wireFault c s = .next t) : t.Inv := by
  cases ht; exact decFault_inv h hc

/-- Tables that are in order keep the decoder in order. -/
theorem setScratch_inv {s : State} {sc : DecScratch} (h : s.Inv)
    (hd : s.dec.state = .expectBlockHeader) (hs : sc.ok s.dec.k = true) : (setScratch sc s).Inv := by
  obtain ⟨hw, hr, he, h1, h2, h3, h4, h5⟩ := h
  exact ⟨hw, hr, he, h1, h2, h3, ⟨fun _ => hd, by simp [hs]⟩, h5⟩

theorem scratch_ok {s : State} {sc : DecScratch} (h : s.Inv) (hs : s.dec.scratch = some sc) :
    sc.MappingOk ∧ sc.SelectorsOk ∧ sc.LengthsOk ∧ sc.SymbolsOk s.dec.k :=
  (DecScratch.ok_iff _ _).1 (h.2.2.2.2.2.2.1.2 sc (by simp [hs]))

end Sys2Proof.Machine
end

