-- ==== Sys2Proof/Laws/Tables.lean ====
section
/-! SUPPORT. The tables the decoder builds: the position chain of a block and the decode tables of a code. -/

namespace Sys2Proof.Machine

theorem getD_lt {l : List Nat} {n j : Nat} (hn : 0 < n) (h : ∀ t ∈ l, t < n) : l.getD j 0 < n := by
  by_cases hj : j < l.length
  · rw [List.getD_eq_getElem _ _ hj]; exact h _ (List.getElem_mem hj)
  · rw [List.getD_eq_default _ _ (by omega)]; exact hn

/-- Collecting a list by key, one key at a time, rearranges it. -/
theorem byKey_perm {α : Type} (f : α → Nat) (xs : List α) (ks : List Nat) (hk : ks.Nodup) :
    (ks.flatMap fun k => xs.filter fun x => f x = k).Perm (xs.filter fun x => decide (f x ∈ ks)) := by
  induction ks with
  | nil => simp
  | cons k ks ih =>
    have hn := List.nodup_cons.1 hk
    rw [List.flatMap_cons]
    refine ((ih hn.2).append_left _).trans ?_
    have h1 : (xs.filter fun x => decide (f x = k)) =
        (xs.filter fun x => decide (f x ∈ k :: ks)).filter fun x => decide (f x = k) := by
      rw [List.filter_filter]
      congr 1; funext x; by_cases hx : f x = k <;> simp [hx]
    have h2 : (xs.filter fun x => decide (f x ∈ ks)) =
        (xs.filter fun x => decide (f x ∈ k :: ks)).filter fun x => !decide (f x = k) := by
      rw [List.filter_filter]
      congr 1; funext x
      by_cases hx : f x = k
      · have : f x ∉ ks := hx ▸ hn.1
        simp [hx, hn.1]
      · simp [hx]
    rw [h1, h2]
    exact List.filter_append_perm _ _

/-! ## The chain of a block (45 R291, R292) -/

/-- One more byte counted: its entry is one higher, every other as before. -/
theorem tally_getD {counts : List Nat} (h : counts.length = 257) (c : Byte) (k : Nat) :
    (tally counts c).getD k 0 = counts.getD k 0 + if k = c.toNat + 1 then 1 else 0 := by
  have hc : c.toNat + 1 < counts.length := by have := c.isLt; omega
  simp only [tally, List.getD_eq_getElem?_getD, List.getElem?_set]
  by_cases hk : c.toNat + 1 = k
  · subst hk; simp [hc]
  · simp [hk, Ne.symm hk]

theorem tally_length (counts : List Nat) (c : Byte) : (tally counts c).length = counts.length := by
  simp [tally]

/-- After the first loop, entry `k` counts the bytes of value `k - 1`. -/
theorem tallies_getD (last : List Byte) {counts : List Nat} (h : counts.length = 257) (k : Nat) :
    (last.foldl tally counts).getD k 0 = counts.getD k 0 + last.countP fun b => decide (b.toNat + 1 = k) := by
  induction last generalizing counts with
  | nil => simp
  | cons c cs ih =>
    rw [List.foldl_cons, ih (by rw [tally_length, h]), tally_getD h, List.countP_cons]
    by_cases hk : c.toNat + 1 = k
    · simp [hk]; omega
    · simp [hk, Ne.symm hk]

theorem tallies_length (last : List Byte) (counts : List Nat) :
    (last.foldl tally counts).length = counts.length := by
  induction last generalizing counts with
  | nil => rfl
  | cons c cs ih => rw [List.foldl_cons, ih, tally_length]

theorem runningSums_length (acc : Nat) (xs : List Nat) : (runningSums acc xs).length = xs.length := by
  induction xs generalizing acc with
  | nil => rfl
  | cons x xs ih => simp [runningSums, ih]

theorem runningSums_getD (acc : Nat) (xs : List Nat) (k : Nat) (hk : k < xs.length) :
    (runningSums acc xs).getD k 0 = acc + ((List.range (k + 1)).map fun j => xs.getD j 0).sum := by
  induction xs generalizing acc k with
  | nil => simp at hk
  | cons x xs ih =>
    cases k with
    | zero => simp [runningSums]
    | succ k =>
      rw [List.range_succ_eq_map, List.map_cons, List.map_map, List.sum_cons, runningSums, List.getD_cons_succ,
        ih _ _ (by simpa using hk)]
      simp only [List.getD_cons_zero, Function.comp_def, Nat.succ_eq_add_one, List.getD_cons_succ]
      omega

theorem countBytes_length (last : List Byte) : (countBytes last).length = 257 := by
  rw [countBytes, runningSums_length, tallies_length, List.length_replicate]

/-- `cftab[k]` is how many bytes of the block are below `k` (45 R291). -/
theorem countBytes_getD (last : List Byte) {k : Nat} (hk : k ≤ 256) :
    (countBytes last).getD k 0 = last.countP fun b => decide (b.toNat < k) := by
  have hl : (last.foldl tally (List.replicate 257 0)).length = 257 := by rw [tallies_length, List.length_replicate]
  rw [countBytes, runningSums_getD _ _ _ (by omega), Nat.zero_add]
  have : ∀ j, (last.foldl tally (List.replicate 257 0)).getD j 0 = last.countP fun b => decide (b.toNat + 1 = j) := by
    intro j
    rw [tallies_getD last List.length_replicate, List.getD_eq_getElem?_getD, List.getElem?_replicate]
    split <;> simp
  simp only [this]
  clear this hl hk
  induction k with
  | zero => simp
  | succ k ih =>
    rw [List.range_succ, List.map_append, List.sum_append, ih]
    simp only [List.map_cons, List.map_nil, List.sum_cons, List.sum_nil, Nat.add_zero]
    clear ih
    induction last with
    | nil => rfl
    | cons c cs ihl =>
      rw [List.countP_cons, List.countP_cons, List.countP_cons]
      have hs : (if decide (c.toNat < k) = true then 1 else 0) + (if decide (c.toNat + 1 = k + 1) = true then 1 else 0) =
          if decide (c.toNat < k + 1) = true then 1 else 0 := by
        simp only [decide_eq_true_eq]
        split <;> split <;> split <;> omega
      omega

/-- A turn of the chain's loop keeps the chain's length. -/
theorem fillChain_size (last : List Byte) (i : Nat) (cftab : List Nat) (tt : Array Nat) :
    (fillChain last i cftab tt).1.size = tt.size := by
  induction last generalizing i cftab tt with
  | nil => rfl
  | cons c cs ih => rw [fillChain, ih, Array.size_setIfInBounds]

/-- The loop writes positions of the block only. -/
theorem fillChain_lt (n : Nat) (last : List Byte) (i : Nat) (cftab : List Nat) (tt : Array Nat) (hi : i + last.length ≤ n)
    (h : ∀ q ∈ tt.toList, q < n) : ∀ q ∈ (fillChain last i cftab tt).1.toList, q < n := by
  induction last generalizing i cftab tt with
  | nil => exact h
  | cons c cs ih =>
    simp only [List.length_cons] at hi
    refine ih _ _ _ (by omega) fun q hq => ?_
    rw [Array.toList_setIfInBounds] at hq
    rcases List.mem_or_eq_of_mem_set hq with hq | rfl
    · exact h q hq
    · omega

theorem buildChain_length (last : List Byte) (cftab : List Nat) : (buildChain last cftab).length = last.length := by
  rw [buildChain, Array.length_toList, fillChain_size, Array.size_replicate]

theorem buildChain_lt (last : List Byte) (cftab : List Nat) : ∀ q ∈ buildChain last cftab, q < last.length := by
  refine fillChain_lt last.length last 0 cftab _ (by omega) fun q hq => ?_
  rw [Array.toList_replicate] at hq
  obtain ⟨h, rfl⟩ := List.mem_replicate.1 hq
  omega

theorem foldl_min_le (l : List Nat) (a : Nat) : l.foldl min a ≤ a ∧ (∀ x ∈ l, l.foldl min a ≤ x) ∧ (l.foldl min a = a ∨ l.foldl min a ∈ l) := by
  induction l generalizing a with
  | nil => simp
  | cons x l ih =>
    obtain ⟨h1, h2, h3⟩ := ih (min a x)
    simp only [List.foldl_cons, List.mem_cons]
    refine ⟨h1.trans (min_le_left _ _), ?_, ?_⟩
    · rintro y (rfl | hy)
      · exact h1.trans (min_le_right _ _)
      · exact h2 y hy
    · rcases h3 with h3 | h3
      · rcases min_choice a x with h | h <;> rw [h] at h3 ⊢ <;> simp [h3]
      · simp [h3]

theorem le_foldl_max (l : List Nat) (a : Nat) : a ≤ l.foldl max a ∧ (∀ x ∈ l, x ≤ l.foldl max a) ∧ (l.foldl max a = a ∨ l.foldl max a ∈ l) := by
  induction l generalizing a with
  | nil => simp
  | cons x l ih =>
    obtain ⟨h1, h2, h3⟩ := ih (max a x)
    simp only [List.foldl_cons, List.mem_cons]
    refine ⟨(le_max_left _ _).trans h1, ?_, ?_⟩
    · rintro y (rfl | hy)
      · exact (le_max_right _ _).trans h1
      · exact h2 y hy
    · rcases h3 with h3 | h3
      · rcases max_choice a x with h | h <;> rw [h] at h3 ⊢ <;> simp [h3]
      · simp [h3]

/-- `minLen` is a length of the table, and none is shorter. -/
theorem minLength_spec {lens : List Nat} (h : lens ≠ []) :
    minLength lens ∈ lens ∧ ∀ l ∈ lens, minLength lens ≤ l := by
  obtain ⟨l, ls, rfl⟩ := List.exists_cons_of_ne_nil h
  obtain ⟨-, h2, h3⟩ := foldl_min_le (l :: ls) l
  refine ⟨?_, h2⟩
  rcases h3 with h3 | h3
  · rw [minLength, List.headD_cons, h3]; exact List.mem_cons_self
  · exact h3

/-- `maxLen` is a length of the table, and none is longer. -/
theorem maxLength_spec {lens : List Nat} (h : lens ≠ []) :
    maxLength lens ∈ lens ∧ ∀ l ∈ lens, l ≤ maxLength lens := by
  obtain ⟨l, ls, rfl⟩ := List.exists_cons_of_ne_nil h
  obtain ⟨-, h2, h3⟩ := le_foldl_max (l :: ls) 0
  refine ⟨?_, h2⟩
  rcases h3 with h3 | h3
  · have := h2 l (by simp)
    have h0 : maxLength (l :: ls) = 0 := h3
    rw [h0]
    have : l = 0 := by unfold maxLength at h0; omega
    simp [this]
  · exact h3

/-- `perm` lists every symbol once. -/
theorem permOf_perm {lens : List Nat} {lo hi : Nat} (h : ∀ l ∈ lens, lo ≤ l ∧ l ≤ hi) :
    (permOf lens lo hi).Perm (List.range lens.length) := by
  have hk : ((List.range (hi + 1)).drop lo).Nodup := List.nodup_range.sublist (List.drop_sublist _ _)
  refine (byKey_perm (fun v => lens.getD v 0) (List.range lens.length) _ hk).trans ?_
  have : ((List.range lens.length).filter fun v =>
      decide (lens.getD v 0 ∈ (List.range (hi + 1)).drop lo)) = List.range lens.length := by
    rw [List.filter_eq_self]
    intro v hv
    have hv := List.mem_range.1 hv
    obtain ⟨h1, h2⟩ := h _ (List.getElem_mem hv)
    rw [List.getD_eq_getElem _ _ hv, decide_eq_true_eq, List.range_eq_range', List.drop_range', List.mem_range'_1]
    omega
  rw [this]

/-- The tables of a legal set of code lengths are in order (43 R225, R226). -/
theorem buildDecTable_ok {lens : List Nat} (hne : lens ≠ []) (h : ∀ l ∈ lens, 1 ≤ l ∧ l ≤ maxCodeLen) :
    (buildDecTable lens).Ok lens.length := by
  obtain ⟨a1, a2⟩ := minLength_spec hne
  obtain ⟨b1, b2⟩ := maxLength_spec hne
  have hp := permOf_perm (lens := lens) (lo := minLength lens) (hi := maxLength lens) fun l hl => ⟨a2 l hl, b2 l hl⟩
  refine ⟨(h _ a1).1, a2 _ b1, (h _ b1).2, ?_, fun v hv => ?_⟩
  · simpa [buildDecTable] using hp.length_eq
  · simpa using hp.mem_iff.1 hv

end Sys2Proof.Machine
end

