-- ==== Sys2Proof/Laws/Delivery.lean ====
section
/-! SUPPORT. What delivering a byte of a block does to the block. -/

namespace Sys2Proof.Machine

/-- Inside a block a chain step always gives an answer (45 R292). -/
theorem nextBlockByte_ok {k : Nat} {b : DecBlock} (h : b.Ok k) :
    (b.i = b.last.length ∧ nextBlockByte b = some { byte := none, blk := b }) ∨
    (b.i < b.last.length ∧ ∃ c q, b.last[b.p]? = some c ∧ q < b.last.length ∧
      nextBlockByte b = some { byte := some c, blk := { b with p := q, i := b.i + 1 } }) := by
  obtain ⟨h1, h2, h3, h4, h5, h6, h7⟩ := h
  unfold nextBlockByte
  split
  · next hi => exact .inl ⟨hi, rfl⟩
  · next hi =>
    have hp : b.p < b.tt.length := by omega
    refine .inr ⟨by omega, b.last[b.p], b.tt[b.p], List.getElem?_eq_getElem h5, h4 _ (List.getElem_mem hp), ?_⟩
    rw [List.getElem?_eq_getElem h5, List.getElem?_eq_getElem hp]

theorem randStep_tPos (g p : Nat) (h : p < 512) : (randStep g p).2.2 < 512 := by
  unfold randStep; dsimp only; split <;> omega

/-- The same for the un-randomised walk (45 R293): only `p`, `i` and the two counters move. -/
theorem nextRaw_ok {k : Nat} {b : DecBlock} (rand : Bool) (h : b.Ok k) :
    (b.i = b.last.length ∧ nextRaw rand b = some { byte := none, blk := b }) ∨
    (b.i < b.last.length ∧ ∃ c q g tp, q < b.last.length ∧ tp < 512 ∧
      nextRaw rand b =
        some { byte := some c, blk := { b with p := q, i := b.i + 1, rNToGo := g, rTPos := tp } }) := by
  rcases nextBlockByte_ok h with ⟨hi, hn⟩ | ⟨hi, c, q, -, hq, hn⟩
  · exact .inl ⟨hi, by simp [nextRaw, hn]⟩
  · refine .inr ⟨hi, ?_⟩
    unfold nextRaw
    rw [hn]
    cases rand
    · exact ⟨c, q, b.rNToGo, b.rTPos, hq, h.2.2.2.2.2.2.1, rfl⟩
    · exact ⟨_, q, _, _, hq, randStep_tPos b.rNToGo b.rTPos h.2.2.2.2.2.2.1, rfl⟩

theorem takeRepeat_ok {k : Nat} {b : DecBlock} (h : b.Ok k) (hr : 0 < b.rep) :
    ∃ c b', takeRepeat b = some { byte := some c, blk := b' } ∧ b'.Ok k := by
  obtain ⟨h1, h2, h3, h4, h5, h6, h7, h8, h9, h10, h11⟩ := h
  obtain ⟨c, hc⟩ := Option.isSome_iff_exists.1 (h11 (.inr hr))
  have h0 := h10 hr
  unfold takeRepeat
  rw [hc]
  refine ⟨c, _, rfl, h1, h2, h3, h4, h5, h6, h7, h8, by dsimp only; omega, fun _ => h0, ?_⟩
  dsimp only
  intro h
  have : ¬ b.rep - 1 = 0 := by omega
  simp [this]

theorem takeLiteral_ok {k : Nat} {b : DecBlock} (c : Byte) (h : b.Ok k) (hr : b.rep = 0) (hc : b.cnt ≠ 4) :
    (takeLiteral c b).blk.Ok k := by
  obtain ⟨h1, h2, h3, h4, h5, h6, h7, h8, h9, h10, h11⟩ := h
  unfold takeLiteral
  dsimp only
  split
  · next hp => exact ⟨h1, h2, h3, h4, h5, h6, h7, by dsimp only; omega, h9, by dsimp only; omega, by simp [hp]⟩
  · exact ⟨h1, h2, h3, h4, h5, h6, h7, by simp, h9, by dsimp only; omega, by simp⟩

theorem takeCount_ok {k : Nat} {b : DecBlock} (c : Byte) (h : b.Ok k) (hr : b.rep = 0) (hc : b.cnt = 4) :
    (takeCount c b).Ok k ∧ (takeCount c b).cnt = 0 := by
  obtain ⟨h1, h2, h3, h4, h5, h6, h7, h8, h9, h10, h11⟩ := h
  unfold takeCount
  split
  · exact ⟨⟨h1, h2, h3, h4, h5, h6, h7, by simp, h9, by simp, by simp [hr]⟩, rfl⟩
  · exact ⟨⟨h1, h2, h3, h4, h5, h6, h7, by simp, by dsimp only; omega, by simp, fun _ => h11 (.inl (by omega))⟩, rfl⟩

theorem moved_ok {k q g tp : Nat} {b : DecBlock} (h : b.Ok k) (hi : b.i < b.last.length)
    (hq : q < b.last.length) (ht : tp < 512) :
    ({ b with p := q, i := b.i + 1, rNToGo := g, rTPos := tp } : DecBlock).Ok k := by
  obtain ⟨h1, h2, h3, h4, h5, h6, h7, h8⟩ := h
  exact ⟨h1, h2, h3, h4, hq, hi, ht, h8⟩

/-- A pull from a block always gives an answer, and leaves the block in order (45 R294). -/
theorem nextByte_ok {k : Nat} {b : DecBlock} (rand : Bool) (h : b.Ok k) :
    ∃ p, nextByte rand b = some p ∧ p.blk.Ok k := by
  unfold nextByte nextByteLoop
  split
  · next hr => obtain ⟨c, b', e, h'⟩ := takeRepeat_ok h hr; exact ⟨_, e, h'⟩
  next hr =>
  rcases nextRaw_ok rand h with ⟨-, e⟩ | ⟨hi, c, q, g, tp, hq, ht, e⟩
  · rw [e]; exact ⟨_, rfl, h⟩
  rw [e]
  dsimp only
  have h' := moved_ok (g := g) h hi hq ht
  split
  · next hc =>
    obtain ⟨h2, h0⟩ := takeCount_ok c h' (by dsimp only; omega) hc
    generalize takeCount c _ = d at *
    unfold nextByteLoop
    split
    · next hr => obtain ⟨c, b', e, h'⟩ := takeRepeat_ok h2 hr; exact ⟨_, e, h'⟩
    next hr =>
    rcases nextRaw_ok rand h2 with ⟨-, e⟩ | ⟨hi, c, q, g, tp, hq, ht, e⟩
    · rw [e]; exact ⟨_, rfl, h2⟩
    rw [e]
    dsimp only
    have h' := moved_ok (g := g) h2 hi hq ht
    rw [if_neg (by omega)]
    exact ⟨_, rfl, takeLiteral_ok c h' (by dsimp only; omega) (by dsimp only; omega)⟩
  · next hc => exact ⟨_, rfl, takeLiteral_ok c h' (by dsimp only; omega) hc⟩

end Sys2Proof.Machine
end

