-- ==== Sys2Proof/Laws/Wire.lean ====
section
/-! SUPPORT. What each wire element keeps of the invariant when it gives a next state. -/

namespace Sys2Proof.Machine

theorem streamHeader_inv {k : BitVec 4} {s t : State} (h : s.Inv) (ht : execStreamHeader k s = .next t) :
    t.Inv := by
  obtain ⟨hr, hd, hs, ht⟩ := atStream_next ht
  split at ht
  · next hk =>
    cases ht
    obtain ⟨hw, hrd, he, h1, h2, h3, h4, h5⟩ := h
    refine ⟨hw, hrd, he, ⟨fun hc => absurd hc (by simp [hr]), fun _ => rfl⟩, ⟨hk.2, fun _ => hk.1⟩, ?_, ?_, ?_⟩
    · have : s.dec.blk = none := by
        have := h3.1; simp [hd] at this; exact this
      simp [this]
    · simp [hs]
    · simpa [hd] using h5
  · exact wireFault_inv h rfl ht

theorem blockMagic_inv {s t : State} (h : s.Inv) (ht : execBlockMagic s = .next t) : t.Inv := by
  obtain ⟨hr, hd, hs, ht⟩ := atStream_next ht
  cases ht
  refine setScratch_inv h hd ?_
  rw [DecScratch.ok_iff]
  simp [DecScratch.start, beforeTables, afterSelectors, DecScratch.MappingOk, DecScratch.SelectorsOk, DecScratch.LengthsOk, DecScratch.SymbolsOk]

theorem eosMagic_inv {s t : State} (h : s.Inv) (ht : execEosMagic s = .next t) : t.Inv := by
  obtain ⟨hr, hd, hs, ht⟩ := atStream_next ht
  cases ht
  obtain ⟨hw, hrd, he, h1, h2, h3, h4, h5⟩ := h
  refine ⟨hw, hrd, he, ⟨fun hc => absurd hc (by simp [hr]), fun _ => rfl⟩, ⟨h2.1, fun _ => h2.2 (by simp [hd])⟩, ?_, ?_, ?_⟩
  · simpa [hd] using h3
  · simp [hs]
  · simpa [hd] using h5

theorem combinedCrc_inv {c : Word} {s t : State} (h : s.Inv) (ht : execCombinedCrc c s = .next t) : t.Inv := by
  obtain ⟨hr, hd, hs, ht⟩ := atStream_next ht
  split at ht
  · cases ht
    obtain ⟨hw, hrd, he, h1, h2, h3, h4, h5⟩ := h
    refine ⟨hw, hrd, he, ⟨fun _ => rfl, fun hc => by cases hc⟩, ⟨h2.1, fun hc => by simp at hc⟩, ?_, ?_, ?_⟩
    · simpa [hd] using h3
    · simp [hs]
    · simpa [hd] using h5
  · exact wireFault_inv h rfl ht

theorem blockCrc_inv {c : Word} {s t : State} (h : s.Inv) (ht : execBlockCrc c s = .next t) : t.Inv := by
  obtain ⟨sc, hr, hd, hs, hp, ht⟩ := atBlock_next ht
  cases ht
  have hok : ({ sc with pos := .rand } : DecScratch).ok s.dec.k = true := by
    have := scratch_ok h hs
    rw [DecScratch.ok_iff]
    simpa [hp, beforeTables, afterSelectors, DecScratch.MappingOk, DecScratch.SelectorsOk, DecScratch.LengthsOk, DecScratch.SymbolsOk] using this
  exact setScratch_inv (s := { s with dec := { s.dec with stored := c } }) h hd hok

theorem rand_inv {c : Bool} {s t : State} (h : s.Inv) (ht : execRand c s = .next t) : t.Inv := by
  obtain ⟨sc, hr, hd, hs, hp, ht⟩ := atBlock_next ht
  cases ht
  have hok : ({ sc with pos := .origPtr } : DecScratch).ok s.dec.k = true := by
    have := scratch_ok h hs
    rw [DecScratch.ok_iff]
    simpa [hp, beforeTables, afterSelectors, DecScratch.MappingOk, DecScratch.SelectorsOk, DecScratch.LengthsOk, DecScratch.SymbolsOk] using this
  exact setScratch_inv (s := { s with dec := { s.dec with rand := c } }) h hd hok

theorem origPtr_inv {p : BitVec 24} {s t : State} (h : s.Inv) (ht : execOrigPtr p s = .next t) : t.Inv := by
  obtain ⟨sc, hr, hd, hs, hp, ht⟩ := atBlock_next ht
  cases ht
  refine setScratch_inv h hd ?_
  have := scratch_ok h hs
  rw [DecScratch.ok_iff]
  simpa [hp, beforeTables, afterSelectors, DecScratch.MappingOk, DecScratch.SelectorsOk, DecScratch.LengthsOk, DecScratch.SymbolsOk] using this

theorem setBits_spec (w : BitVec 16) : (setBits w).length ≤ 16 ∧ ∀ i ∈ setBits w, i < 16 := by
  unfold setBits
  constructor
  · exact (List.length_filter_le _ _).trans (by simp)
  · intro i hi; exact List.mem_range.1 (List.mem_filter.1 hi).1

theorem endMapping_inv {sc : DecScratch} {s t : State} (h : s.Inv) (hd : s.dec.state = .expectBlockHeader)
    (hok : sc.seqToUnseq ≠ [] → ({ sc with pos := .nGroups } : DecScratch).ok s.dec.k = true)
    (ht : endMapping sc s = .next t) : t.Inv := by
  unfold endMapping at ht
  split at ht
  · exact wireFault_inv h rfl ht
  · next hn => cases ht; exact setScratch_inv h hd (hok hn)

theorem inUse16_inv {g : BitVec 16} {s t : State} (h : s.Inv) (ht : execInUse16 g s = .next t) : t.Inv := by
  obtain ⟨sc, hr, hd, hs, hp, ht⟩ := atBlock_next ht
  have hk := scratch_ok h hs
  split at ht
  · exact endMapping_inv h hd (fun hc => absurd rfl hc) ht
  · next hg =>
    cases ht
    refine setScratch_inv h hd ?_
    obtain ⟨hl, hb⟩ := setBits_spec g
    rw [DecScratch.ok_iff]
    simp [hp, beforeTables, afterSelectors, DecScratch.MappingOk, DecScratch.SelectorsOk, DecScratch.LengthsOk, DecScratch.SymbolsOk] at hk ⊢
    simp_all
    omega

theorem inUseWord_inv {u : BitVec 16} {s t : State} (h : s.Inv) (ht : execInUseWord u s = .next t) : t.Inv := by
  obtain ⟨sc, hr, hd, hs, hp, ht⟩ := atBlock_next ht
  have hk := scratch_ok h hs
  obtain ⟨hl, hb⟩ := setBits_spec u
  obtain ⟨g, left, hleft⟩ : ∃ g left, sc.mapLeft = g :: left := by
    rcases hm : sc.mapLeft with _ | ⟨g, left⟩
    · exact absurd hm (hk.1.2.2.1 hp)
    · exact ⟨g, left, rfl⟩
  simp only [hleft, List.tail_cons] at ht
  split at ht
  · refine endMapping_inv h hd (fun hc => ?_) ht
    rw [DecScratch.ok_iff]
    simp [hp, hleft, beforeTables, afterSelectors, DecScratch.MappingOk, DecScratch.SelectorsOk, DecScratch.LengthsOk, DecScratch.SymbolsOk] at hk hc ⊢
    simp_all
    omega
  · next hne =>
    cases ht
    refine setScratch_inv h hd ?_
    rw [DecScratch.ok_iff]
    simp [hp, hleft, beforeTables, afterSelectors, DecScratch.MappingOk, DecScratch.SelectorsOk, DecScratch.LengthsOk, DecScratch.SymbolsOk] at hk ⊢
    simp_all
    omega

theorem nGroups_inv {n : BitVec 3} {s t : State} (h : s.Inv) (ht : execNGroups n s = .next t) : t.Inv := by
  obtain ⟨sc, hr, hd, hs, hp, ht⟩ := atBlock_next ht
  have hk := scratch_ok h hs
  split at ht
  · next hn =>
    cases ht
    refine setScratch_inv h hd ?_
    rw [DecScratch.ok_iff]
    simp [hp, beforeTables, afterSelectors, DecScratch.MappingOk, DecScratch.SelectorsOk, DecScratch.LengthsOk, DecScratch.SymbolsOk] at hk ⊢
    simp_all
  · exact wireFault_inv h rfl ht

theorem nSelectors_inv {n : BitVec 15} {s t : State} (h : s.Inv) (ht : execNSelectors n s = .next t) : t.Inv := by
  obtain ⟨sc, hr, hd, hs, hp, ht⟩ := atBlock_next ht
  have hk := scratch_ok h hs
  split at ht
  · next hn =>
    cases ht
    refine setScratch_inv h hd ?_
    rw [DecScratch.ok_iff]
    simp [hp, beforeTables, afterSelectors, DecScratch.MappingOk, DecScratch.SelectorsOk, DecScratch.LengthsOk, DecScratch.SymbolsOk] at hk ⊢
    simp_all
    omega
  · exact wireFault_inv h rfl ht

theorem selectorMtf_inv {j : Nat} {s t : State} (h : s.Inv) (ht : execSelectorMtf j s = .next t) : t.Inv := by
  obtain ⟨sc, hr, hd, hs, hp, ht⟩ := atBlock_next ht
  have hk := scratch_ok h hs
  split at ht
  · next hj =>
    cases ht
    refine setScratch_inv h hd ?_
    have hg : sc.selList.getD j 0 < sc.nGroups := getD_lt (by omega) hk.2.1.2.2.1
    have hl : (moveToFront sc.selList j).length = sc.nGroups := by
      have := (hk.2.1.2.1 (Or.inl hp)).2.2
      simp [moveToFront, List.length_eraseIdx, this, hj]; omega
    have hm : ∀ t ∈ moveToFront sc.selList j, t < sc.nGroups := by
      intro t ht
      simp only [moveToFront, List.mem_cons] at ht
      rcases ht with rfl | ht
      · exact hg
      · exact hk.2.1.2.2.1 t (List.mem_of_mem_eraseIdx ht)
    have hs' : ∀ t ∈ sc.selector ++ [sc.selList.getD j 0], t < sc.nGroups := by
      intro t ht
      rcases List.mem_append.1 ht with ht | ht
      · exact hk.2.1.2.2.2.1 t ht
      · rw [List.mem_singleton.1 ht]; exact hg
    generalize sc.selList.getD j 0 = g at hg hs'
    generalize moveToFront sc.selList j = l at hl hm
    rw [DecScratch.ok_iff]
    split
    all_goals
      simp only [hp, beforeTables, afterSelectors, DecScratch.MappingOk, DecScratch.SelectorsOk, DecScratch.LengthsOk, DecScratch.SymbolsOk] at hk ⊢
      simp at hk ⊢ hs'
      simp_all
    omega
  · exact wireFault_inv h rfl ht

theorem setLength_inv {curr : Nat} {sc : DecScratch} {s t : State} (h : s.Inv) (hd : s.dec.state = .expectBlockHeader)
    (hok : 1 ≤ curr → curr ≤ maxCodeLen → ({ sc with curr := curr, pos := .lenAdjust } : DecScratch).ok s.dec.k = true)
    (ht : setLength curr sc s = .next t) : t.Inv := by
  unfold setLength at ht
  split at ht
  · next hl =>
    cases ht
    simp only [legalLength, Bool.and_eq_true, decide_eq_true_eq] at hl
    exact setScratch_inv h hd (hok hl.1 hl.2)
  · exact wireFault_inv h rfl ht

theorem lenStart_inv {l : BitVec 5} {s t : State} (h : s.Inv) (ht : execLenStart l s = .next t) : t.Inv := by
  obtain ⟨sc, hr, hd, hs, hp, ht⟩ := atBlock_next ht
  have hk := scratch_ok h hs
  refine setLength_inv h hd (fun h1 h2 => ?_) ht
  rw [DecScratch.ok_iff]
  simp only [hp, beforeTables, afterSelectors, DecScratch.MappingOk, DecScratch.SelectorsOk, DecScratch.LengthsOk, DecScratch.SymbolsOk] at hk ⊢
  simp at hk ⊢
  simp_all [alphaSizeOf]
  exact (scratch_ok h hs).2.2.1.2.2.2.1

theorem lenAdjust_inv {curr : Nat} {sc : DecScratch} {s t : State} (h : s.Inv) (hd : s.dec.state = .expectBlockHeader)
    (hs : s.dec.scratch = some sc) (hp : sc.pos = .lenAdjust) (ht : setLength curr sc s = .next t) : t.Inv := by
  have hk := scratch_ok h hs
  refine setLength_inv h hd (fun h1 h2 => ?_) ht
  rw [DecScratch.ok_iff]
  simp only [hp, beforeTables, afterSelectors, DecScratch.MappingOk, DecScratch.SelectorsOk, DecScratch.LengthsOk, DecScratch.SymbolsOk] at hk ⊢
  simp at hk ⊢
  simp_all
  exact (scratch_ok h hs).2.2.1.2.2.2.1

theorem lenInc_inv {s t : State} (h : s.Inv) (ht : execLenInc s = .next t) : t.Inv := by
  obtain ⟨sc, hr, hd, hs, hp, ht⟩ := atBlock_next ht
  exact lenAdjust_inv h hd hs hp ht

theorem lenDec_inv {s t : State} (h : s.Inv) (ht : execLenDec s = .next t) : t.Inv := by
  obtain ⟨sc, hr, hd, hs, hp, ht⟩ := atBlock_next ht
  exact lenAdjust_inv h hd hs hp ht

theorem lenStop_inv {s t : State} (h : s.Inv) (ht : execLenStop s = .next t) : t.Inv := by
  obtain ⟨sc, hr, hd, hs, hp, ht⟩ := atBlock_next ht
  have hk := scratch_ok h hs
  cases ht
  refine setScratch_inv h hd ?_
  have hc := hk.2.2.1.2.1 hp
  have hrow : ∀ l ∈ sc.row ++ [sc.curr], 1 ≤ l ∧ l ≤ maxCodeLen := by
    intro l hl
    rcases List.mem_append.1 hl with hl | hl
    · exact hk.2.2.1.1 l hl
    · rw [List.mem_singleton.1 hl]; exact ⟨hc.1, hc.2.1⟩
  rw [DecScratch.ok_iff]
  unfold endLength
  dsimp only
  split
  · next hlt =>
    generalize sc.row ++ [sc.curr] = row at *
    simp only [hp, beforeTables, afterSelectors, DecScratch.MappingOk, DecScratch.SelectorsOk, DecScratch.LengthsOk, DecScratch.SymbolsOk] at hk ⊢
    simp at hk ⊢
    simp_all
    exact (scratch_ok h hs).2.2.1.2.2.2.1
  · next hge =>
    have hlen : (sc.row ++ [sc.curr]).length = alphaSizeOf sc.seqToUnseq.length := by
      simp at hge ⊢; omega
    have ht := buildDecTable_ok (lens := sc.row ++ [sc.curr]) (by simp) hrow
    rw [hlen] at ht
    have htab : ∀ t ∈ sc.tables ++ [buildDecTable (sc.row ++ [sc.curr])],
        t.Ok (alphaSizeOf sc.seqToUnseq.length) := by
      intro t ht'
      rcases List.mem_append.1 ht' with hl | hl
      · exact hk.2.2.1.2.2.2.1 t hl
      · rw [List.mem_singleton.1 hl]; exact ht
    have hll : (sc.lens ++ [sc.row ++ [sc.curr]]).length = (sc.tables ++ [buildDecTable (sc.row ++ [sc.curr])]).length := by
      simp [hk.2.2.1.2.2.1]
    have hcount : (sc.tables ++ [buildDecTable (sc.row ++ [sc.curr])]).length ≤ sc.nGroups := by
      have := hk.2.2.1.2.2.2.2.2 (Or.inr hp)
      simp; omega
    unfold endTable
    dsimp only
    generalize sc.lens ++ [sc.row ++ [sc.curr]] = lens at *
    generalize sc.tables ++ [buildDecTable (sc.row ++ [sc.curr])] = tabs at *
    split
    all_goals
      simp only [hp, beforeTables, afterSelectors, DecScratch.MappingOk, DecScratch.SelectorsOk, DecScratch.LengthsOk, DecScratch.SymbolsOk] at hk ⊢
      simp at hk ⊢
      simp_all
    · exact htab
    · exact ⟨htab, by omega⟩

theorem startBlock_ok {k p : Nat} {last : List Byte} {cftab : List Nat} (hp : p < last.length) (hl : last.length ≤ capDec k) :
    (startBlock p last cftab).Ok k := by
  have ht := buildChain_length last cftab
  have hq := buildChain_lt last cftab
  refine ⟨hp, hl, ht, hq, ?_, Nat.zero_le _, by simp [startBlock], by simp [startBlock], by simp [startBlock], by simp [startBlock], by simp [startBlock]⟩
  exact getD_lt (Nat.zero_lt_of_lt hp) hq

theorem endSymbols_inv {sc : DecScratch} {s t : State} (h : s.Inv) (hd : s.dec.state = .expectBlockHeader) (hr : s.reading = true)
    (hl : sc.out.length ≤ capDec s.dec.k) (ht : endSymbols sc s = .next t) : t.Inv := by
  unfold endSymbols at ht
  split at ht
  · next hlt =>
    rw [openBlock_countBlock] at ht
    cases ht
    obtain ⟨hw, hrd, he, h1, h2, h3, h4, h5⟩ := h
    refine ⟨hw, hrd, he, ⟨fun hc => absurd hc (by simp [hr]), fun _ => rfl⟩, ⟨h2.1, fun _ => h2.2 (by simp [hd])⟩, ?_, ?_, ?_⟩
    · simp only [Option.isSome_some, Option.mem_def, Option.some.injEq, true_and, iff_self]
      rintro b rfl
      exact startBlock_ok hlt hl
    · simp
    · simpa [hd] using h5
  · exact wireFault_inv h rfl ht

theorem huffSymbol_inv {v : Nat} {s t : State} (h : s.Inv) (ht : execHuffSymbol v s = .next t) : t.Inv := by
  obtain ⟨sc, hr, hd, hs, hp, ht⟩ := atBlock_next ht
  have hk := scratch_ok h hs
  split at ht
  · exact wireFault_inv h rfl ht
  next hg =>
  split at ht
  · exact wireFault_inv h rfl ht
  next hv =>
  have hleft : (nextGroup sc).2 - 1 ≤ groupSize := by
    have := (hk.2.2.2.1 hp).2.2.1
    unfold nextGroup; split <;> simp [groupSize] at * ; omega
  have hused : (nextGroup sc).1 ≤ sc.nSelectors := by omega
  generalize (nextGroup sc).2 - 1 = left at *
  generalize (nextGroup sc).1 = used at *
  unfold takeSymbol at ht
  split at ht
  · split at ht
    · exact wireFault_inv h rfl ht
    · next hc =>
      cases ht
      refine setScratch_inv h hd ?_
      simp only [addRunDigit] at hc ⊢
      rw [DecScratch.ok_iff]
      simp only [hp, beforeTables, afterSelectors, DecScratch.MappingOk, DecScratch.SelectorsOk, DecScratch.LengthsOk, DecScratch.SymbolsOk] at hk ⊢
      simp at hk ⊢ hc
      simp_all
      exact (scratch_ok h hs).2.2.1.2.2.2.1
  next hrun =>
  split at ht
  · exact wireFault_inv h rfl ht
  next hc =>
  split at ht
  · refine endSymbols_inv h hd hr ?_ ht
    simp [flushZeroRun] at hc ⊢; exact hc
  next hne =>
  split at ht
  · exact wireFault_inv h rfl ht
  next hc2 =>
  cases ht
  refine setScratch_inv h hd ?_
  have hml : (moveToFront sc.mtfList (v - 1)).length = sc.seqToUnseq.length := by
    have := (hk.2.2.2.1 hp).2.1
    have h1 : v - 1 < sc.seqToUnseq.length := by
      simp [runA, runB, alphaSizeOf, eobOf] at hv hne hrun; omega
    simp [moveToFront, List.length_eraseIdx, this, h1]; omega
  simp only [takeRank, flushZeroRun] at hc2 ⊢
  generalize moveToFront sc.mtfList (v - 1) = ml at *
  rw [DecScratch.ok_iff]
  simp only [hp, beforeTables, afterSelectors, DecScratch.MappingOk, DecScratch.SelectorsOk, DecScratch.LengthsOk, DecScratch.SymbolsOk] at hk ⊢
  simp at hk ⊢ hc2
  simp_all
  exact ⟨(scratch_ok h hs).2.2.1.2.2.2.1, by omega⟩

end Sys2Proof.Machine
end

