-- ==== Sys2Proof/Laws/Elements.lean ====
section
/-! SUPPORT. What the step of a wire element can be, and that an element that is fetched is in place. -/

namespace Sys2Proof.Machine

/-- On wire elements DEC_READ's dispatch is `exec`. -/
theorem execElement_eq_exec {i : Instr} (h : i.isCommand = false) (s : State) : execElement i s = exec i s := by
  cases i <;> first | rfl | cases h

/-- An element that gives a next state keeps the invariant. -/
theorem execElement_inv {i : Instr} {s t : State} (h : s.Inv) (ht : execElement i s = .next t) : t.Inv := by
  cases i with
  | streamHeader k => exact streamHeader_inv h ht
  | blockMagic => exact blockMagic_inv h ht
  | blockCrc c => exact blockCrc_inv h ht
  | rand r => exact rand_inv h ht
  | origPtr p => exact origPtr_inv h ht
  | inUse16 g => exact inUse16_inv h ht
  | inUseWord u => exact inUseWord_inv h ht
  | nGroups n => exact nGroups_inv h ht
  | nSelectors n => exact nSelectors_inv h ht
  | selectorMtf j => exact selectorMtf_inv h ht
  | lenStart l => exact lenStart_inv h ht
  | lenInc => exact lenInc_inv h ht
  | lenDec => exact lenDec_inv h ht
  | lenStop => exact lenStop_inv h ht
  | huffSymbol v => exact huffSymbol_inv h ht
  | eosMagic => exact eosMagic_inv h ht
  | combinedCrc c => exact combinedCrc_inv h ht
  | pad z => cases ht; exact h
  | _ => cases ht

/-- What an element's next state can be: everything but the decoder and the outcome fields is as before, and either
the DEC_READ goes on with its outcome fields untouched, or it ends: at the end of the stream, or with a fault. -/
structure ElementStep (s t : State) : Prop where
  bw : t.bw = s.bw
  br : t.br = s.br
  arg0 : t.arg0 = s.arg0
  crcx : t.crcx = s.crcx
  enc : t.enc = s.enc
  host : t.host = s.host
  observed : t.observed = s.observed
  sortFaults : t.sortFaults = s.sortFaults
  ends : (t.reading = s.reading ∧ t.lastCause = s.lastCause ∧ t.result = s.result) ∨
    (t.reading = false ∧ t.lastCause = none ∧ t.result = endResult ∧ t.dec.state = .done) ∨
    (∃ c, t.reading = false ∧ t.lastCause = some c ∧ t.result = causeResult ∧ t.dec.state = .faulted ∧
      t.dec.cause = some c ∧ isDecodeFault c = true)

theorem wireFault_step {s t : State} {c : Cause} (hc : isDecodeFault c = true) (h : wireFault c s = .next t) :
    ElementStep s t := by
  cases h
  exact ⟨rfl, rfl, rfl, rfl, rfl, rfl, rfl, rfl, .inr (.inr ⟨c, rfl, rfl, rfl, rfl, rfl, hc⟩)⟩

theorem goOn_step {s : State} {d : Decoder} : ElementStep s { s with dec := d } :=
  ⟨rfl, rfl, rfl, rfl, rfl, rfl, rfl, rfl, .inl ⟨rfl, rfl, rfl⟩⟩

theorem endMapping_step {sc : DecScratch} {s t : State} (h : endMapping sc s = .next t) : ElementStep s t := by
  unfold endMapping at h
  split at h
  · exact wireFault_step rfl h
  · cases h; exact goOn_step

theorem setLength_step {l : Nat} {sc : DecScratch} {s t : State} (h : setLength l sc s = .next t) :
    ElementStep s t := by
  unfold setLength at h
  split at h
  · cases h; exact goOn_step
  · exact wireFault_step rfl h

theorem takeSymbol_step {v : Nat} {sc : DecScratch} {s t : State} (h : takeSymbol v sc s = .next t) :
    ElementStep s t := by
  unfold takeSymbol at h
  split at h
  · split at h
    · exact wireFault_step rfl h
    · cases h; exact goOn_step
  split at h
  · exact wireFault_step rfl h
  split at h
  · unfold endSymbols at h
    split at h
    · cases h; exact goOn_step
    · exact wireFault_step rfl h
  split at h
  · exact wireFault_step rfl h
  · cases h; exact goOn_step

theorem execElement_step {i : Instr} {s t : State} (ht : execElement i s = .next t) : ElementStep s t := by
  cases i with
  | streamHeader k =>
    obtain ⟨hr, hd, hs, ht⟩ := atStream_next ht
    split at ht
    · cases ht; exact goOn_step
    · exact wireFault_step rfl ht
  | blockMagic => obtain ⟨hr, hd, hs, ht⟩ := atStream_next ht; cases ht; exact goOn_step
  | eosMagic => obtain ⟨hr, hd, hs, ht⟩ := atStream_next ht; cases ht; exact goOn_step
  | combinedCrc c =>
    obtain ⟨hr, hd, hs, ht⟩ := atStream_next ht
    split at ht
    · cases ht; exact ⟨rfl, rfl, rfl, rfl, rfl, rfl, rfl, rfl, .inr (.inl ⟨rfl, rfl, rfl, rfl⟩)⟩
    · exact wireFault_step rfl ht
  | blockCrc c => obtain ⟨sc, hr, hd, hs, hp, ht⟩ := atBlock_next ht; cases ht; exact goOn_step
  | rand r => obtain ⟨sc, hr, hd, hs, hp, ht⟩ := atBlock_next ht; cases ht; exact goOn_step
  | origPtr p => obtain ⟨sc, hr, hd, hs, hp, ht⟩ := atBlock_next ht; cases ht; exact goOn_step
  | inUse16 g =>
    obtain ⟨sc, hr, hd, hs, hp, ht⟩ := atBlock_next ht
    split at ht
    · exact endMapping_step ht
    · cases ht; exact goOn_step
  | inUseWord u =>
    obtain ⟨sc, hr, hd, hs, hp, ht⟩ := atBlock_next ht
    dsimp only at ht
    split at ht
    · exact endMapping_step ht
    · cases ht; exact goOn_step
  | nGroups n =>
    obtain ⟨sc, hr, hd, hs, hp, ht⟩ := atBlock_next ht
    split at ht
    · cases ht; exact goOn_step
    · exact wireFault_step rfl ht
  | nSelectors n =>
    obtain ⟨sc, hr, hd, hs, hp, ht⟩ := atBlock_next ht
    split at ht
    · cases ht; exact goOn_step
    · exact wireFault_step rfl ht
  | selectorMtf j =>
    obtain ⟨sc, hr, hd, hs, hp, ht⟩ := atBlock_next ht
    split at ht
    · cases ht; exact goOn_step
    · exact wireFault_step rfl ht
  | lenStart l => obtain ⟨sc, hr, hd, hs, hp, ht⟩ := atBlock_next ht; exact setLength_step ht
  | lenInc => obtain ⟨sc, hr, hd, hs, hp, ht⟩ := atBlock_next ht; exact setLength_step ht
  | lenDec => obtain ⟨sc, hr, hd, hs, hp, ht⟩ := atBlock_next ht; exact setLength_step ht
  | lenStop => obtain ⟨sc, hr, hd, hs, hp, ht⟩ := atBlock_next ht; cases ht; exact goOn_step
  | huffSymbol v =>
    obtain ⟨sc, hr, hd, hs, hp, ht⟩ := atBlock_next ht
    split at ht
    · exact wireFault_step rfl ht
    split at ht
    · exact wireFault_step rfl ht
    · exact takeSymbol_step ht
  | pad z => cases ht; exact goOn_step (d := s.dec)
  | _ => cases ht

/-! ## An element that is fetched is in place -/

/-- `i` is an element of place `p`. -/
def elementOf (p : BlockPos) (i : Instr) : Prop :=
  match p with
  | .blockCrc => ∃ c, i = .blockCrc c
  | .rand => ∃ c, i = .rand c
  | .origPtr => ∃ c, i = .origPtr c
  | .inUse16 => ∃ c, i = .inUse16 c
  | .inUseWord => ∃ c, i = .inUseWord c
  | .nGroups => ∃ c, i = .nGroups c
  | .nSelectors => ∃ c, i = .nSelectors c
  | .selector => ∃ c, i = .selectorMtf c
  | .lenStart => ∃ c, i = .lenStart c
  | .lenAdjust => i = .lenInc ∨ i = .lenDec ∨ i = .lenStop
  | .symbol => ∃ v, i = .huffSymbol v

theorem read_elem {n : Nat} {r : Reader} {f : Nat → Reader → Fetched Instr} {P : Instr → Prop}
    (hf : ∀ v q i, (f v q).1 = .ok i → P i) : ∀ i, ((readBits n r).andThen f).1 = .ok i → P i := by
  intro i hi
  rcases h : readBits n r with ⟨c | v, q⟩
  · rw [h] at hi; cases hi
  · rw [h] at hi; exact hf v q i hi

theorem fetchUnary_elem (fuel j : Nat) (r : Reader) :
    ∀ i, (fetchUnary fuel j r).1 = .ok i → ∃ c, i = .selectorMtf c := by
  induction fuel generalizing j r with
  | zero => intro i hi; cases hi
  | succ fuel ih =>
    refine read_elem fun v q i hi => ?_
    split at hi
    · cases hi; exact ⟨_, rfl⟩
    · exact ih _ _ i hi

theorem symbolAt_elem (t : DecTable) (zn zvec : Nat) (r : Reader) :
    ∀ i, (symbolAt t zn zvec r).1 = .ok i → ∃ c, i = .huffSymbol c := by
  intro i hi
  unfold symbolAt at hi
  dsimp only at hi
  split at hi
  · cases hi
  split at hi
  · cases hi; exact ⟨_, rfl⟩
  · cases hi

theorem extendCode_elem (t : DecTable) (fuel zn zvec : Nat) (r : Reader) :
    ∀ i, (extendCode t fuel zn zvec r).1 = .ok i → ∃ c, i = .huffSymbol c := by
  induction fuel generalizing zn zvec r with
  | zero => intro i hi; cases hi
  | succ fuel ih =>
    unfold extendCode
    split
    · split
      · intro i hi; cases hi
      · exact read_elem fun v q i hi => ih _ _ _ i hi
    · exact symbolAt_elem _ _ _ _

theorem fetchBlock_elem (sc : DecScratch) (r : Reader) : ∀ i, (fetchBlock sc r).1 = .ok i → elementOf sc.pos i := by
  unfold fetchBlock
  generalize sc.pos = p
  cases p <;> dsimp only [elementOf]
  case selector => exact fetchUnary_elem _ _ _
  case lenAdjust =>
    refine read_elem fun v q i hi => ?_
    split at hi
    · cases hi; exact .inr (.inr rfl)
    · revert i
      refine read_elem fun v q i hi => ?_
      split at hi
      · cases hi; exact .inl rfl
      · cases hi; exact .inr (.inl rfl)
  case symbol =>
    intro i hi
    unfold fetchSymbol at hi
    split at hi
    · cases hi
    split at hi
    · revert i; exact read_elem fun v q i hi => extendCode_elem _ _ _ _ _ i hi
    · cases hi
  all_goals exact read_elem fun v q i hi => by cases hi; exact ⟨_, rfl⟩

theorem fetchHeader_elem (r : Reader) : ∀ i, (fetchHeader r).1 = .ok i → ∃ k, i = .streamHeader k := by
  unfold fetchHeader
  simp only [expectByte_read]
  refine read_elem fun v q i hi => ?_
  split at hi
  · revert i
    refine read_elem fun v q i hi => ?_
    split at hi
    · revert i
      refine read_elem fun v q i hi => ?_
      split at hi
      · revert i
        refine read_elem fun v q i hi => ?_
        split at hi
        · cases hi; exact ⟨_, rfl⟩
        · cases hi
      · cases hi
    · cases hi
  · cases hi

theorem fetchMagic_elem (r : Reader) : ∀ i, (fetchMagic r).1 = .ok i → i = .blockMagic ∨ i = .eosMagic := by
  intro i
  unfold fetchMagic
  rcases readBits 24 r with ⟨c | v, q⟩
  · intro hi; cases hi
  rw [fetched_ok]
  rcases readBits 24 q with ⟨c | w, q⟩
  · intro hi; cases hi
  rw [fetched_ok]
  generalize v * 2 ^ 24 + w = m
  split
  · intro hi; cases hi; exact .inl rfl
  split
  · intro hi; cases hi; exact .inr rfl
  · intro hi; cases hi

/-- Nothing an element in place does is a stop: it gives a next state. -/
theorem inPlace_next {p : BlockPos} {s : State} {sc : DecScratch} {i : Instr} (hr : s.reading = true)
    (hd : s.dec.state = .expectBlockHeader) (hs : s.dec.scratch = some sc) (hp : sc.pos = p)
    (hi : elementOf p i) : ∃ t, execElement i s = .next t := by
  have key : ∀ k : DecScratch → Host.Outcome State Fault Refusal, (∃ t, k sc = .next t) →
      ∃ t, atBlock p s k = .next t := fun k h => by rw [atBlock_here hr hd hs hp]; exact h
  have ite : ∀ {c : Prop} [Decidable c] {a b : Host.Outcome State Fault Refusal}, (∃ t, a = .next t) →
      (∃ t, b = .next t) → ∃ t, (if c then a else b) = .next t := fun ha hb => by split <;> assumption
  have em : ∀ sc, ∃ t, endMapping sc s = .next t := fun sc => ite ⟨_, rfl⟩ ⟨_, rfl⟩
  have sl : ∀ l sc, ∃ t, setLength l sc s = .next t := fun l sc => ite ⟨_, rfl⟩ ⟨_, rfl⟩
  cases p
  case blockCrc => obtain ⟨c, rfl⟩ := hi; exact key _ ⟨_, rfl⟩
  case rand => obtain ⟨c, rfl⟩ := hi; exact key _ ⟨_, rfl⟩
  case origPtr => obtain ⟨c, rfl⟩ := hi; exact key _ ⟨_, rfl⟩
  case inUse16 => obtain ⟨c, rfl⟩ := hi; exact key _ (ite (em _) ⟨_, rfl⟩)
  case inUseWord => obtain ⟨c, rfl⟩ := hi; exact key _ (ite (em _) ⟨_, rfl⟩)
  case nGroups => obtain ⟨c, rfl⟩ := hi; exact key _ (ite ⟨_, rfl⟩ ⟨_, rfl⟩)
  case nSelectors => obtain ⟨c, rfl⟩ := hi; exact key _ (ite ⟨_, rfl⟩ ⟨_, rfl⟩)
  case selector => obtain ⟨c, rfl⟩ := hi; exact key _ (ite ⟨_, rfl⟩ ⟨_, rfl⟩)
  case lenStart => obtain ⟨c, rfl⟩ := hi; exact key _ (sl _ _)
  case lenAdjust =>
    rcases hi with rfl | rfl | rfl
    · exact key _ (sl _ _)
    · exact key _ (sl _ _)
    · exact key _ ⟨_, rfl⟩
  case symbol =>
    obtain ⟨v, rfl⟩ := hi
    exact key _ (ite ⟨_, rfl⟩ (ite ⟨_, rfl⟩ (ite (ite ⟨_, rfl⟩ ⟨_, rfl⟩) (ite ⟨_, rfl⟩
      (ite (ite ⟨_, rfl⟩ ⟨_, rfl⟩) (ite ⟨_, rfl⟩ ⟨_, rfl⟩))))))

theorem fetched_next {s : State} {i : Instr} {r : Reader} (hr : s.reading = true)
    (hsc : s.dec.scratch.isSome = true → s.dec.state = .expectBlockHeader)
    (h : fetchElement s.dec s.br = some (.ok i, r)) : ∃ t, execElement i { s with br := r } = .next t := by
  have ite : ∀ {c : Prop} [Decidable c] {a b : Host.Outcome State Fault Refusal}, (∃ t, a = .next t) →
      (∃ t, b = .next t) → ∃ t, (if c then a else b) = .next t := fun ha hb => by split <;> assumption
  have key : ∀ d k, s.dec.state = d → s.dec.scratch = none → (∃ t, k = .next t) →
      ∃ t, atStream d { s with br := r } k = .next t := fun d k h1 h2 h3 => by
    rw [atStream_here (s := { s with br := r }) hr h1 h2]; exact h3
  unfold fetchElement at h
  split at h
  · next hd =>
    have hs : s.dec.scratch = none := by
      cases hc : s.dec.scratch with
      | none => rfl
      | some sc => rw [hc, hd] at hsc; exact absurd (hsc rfl) (by simp)
    obtain ⟨k, rfl⟩ := fetchHeader_elem _ i (by rw [Option.some.inj h])
    exact key _ _ hd hs (ite ⟨_, rfl⟩ ⟨_, rfl⟩)
  · next hd =>
    split at h
    · next hs =>
      rcases fetchMagic_elem _ i (by rw [Option.some.inj h]) with rfl | rfl
      · exact key _ _ hd hs ⟨_, rfl⟩
      · exact key _ _ hd hs ⟨_, rfl⟩
    · next sc hs =>
      exact inPlace_next (s := { s with br := r }) hr hd hs rfl (fetchBlock_elem sc _ i (by rw [Option.some.inj h]))
  · next hd =>
    have hs : s.dec.scratch = none := by
      cases hc : s.dec.scratch with
      | none => rfl
      | some sc => rw [hc, hd] at hsc; exact absurd (hsc rfl) (by simp)
    have : ∃ c, i = .combinedCrc c := by
      have : (fetchTrailer s.br).1 = .ok i := by rw [Option.some.inj h]
      revert this
      exact read_elem (P := fun i => ∃ c, i = .combinedCrc c) (fun v q i hi => by cases hi; exact ⟨_, rfl⟩) i
    obtain ⟨c, rfl⟩ := this
    exact key _ _ hd hs (ite ⟨_, rfl⟩ ⟨_, rfl⟩)
  all_goals cases h

end Sys2Proof.Machine
end

