-- ==== Sys2Proof/Laws/Encoder.lean ====
section
/-! SUPPORT. What the encoder's procedures change and keep. -/

namespace Sys2Proof.Machine

theorem runBytes_length_le (c : Byte) (r : Nat) : (runBytes c r).length ≤ 5 := by
  unfold runBytes; split <;> simp; omega

/-- `CloseBlock()` (44 R254) in one equation. -/
theorem closeBlock_eq (s : State) : closeBlock s =
    if s.enc.block ∈ s.sortFaults then .raised .sortStackOverflow s
    else .done () { s with
      bw := writeBitList (blockBits (crcValue s.enc.crc) (buildScratch (randomise s.enc.block) s.enc.block)) s.bw
      enc := { s.enc with
        comb := crcCombine s.enc.comb (crcValue s.enc.crc), blocks := s.enc.blocks + 1
        rand := randomise s.enc.block, block := [], crc := crcSeed, scratch := none } } := by
  unfold closeBlock transformBlock
  by_cases h : s.enc.block ∈ s.sortFaults
  · rw [if_pos (by simpa using h), if_pos h]; rfl
  · rw [if_neg (by simpa using h), if_neg h]; rfl

/-- An Open encoder inside a command: 10_state R35 without the bound a command ends with. -/
structure EncMid (e : Encoder) : Prop where
  k9 : e.k ≤ 9
  k1 : 1 ≤ e.k
  cur : e.run = 0 ↔ e.cur = none
  run : e.run ≤ 255
  block : e.block.length ≤ capEnc e.k
  cause : e.cause = none
  scratch : e.scratch = none
  st : e.state = .opened

/-- What the encoder's procedures leave alone, and what they keep. -/
structure EncKeeps (s t : State) : Prop where
  br : t.br = s.br
  arg0 : t.arg0 = s.arg0
  crcx : t.crcx = s.crcx
  dec : t.dec = s.dec
  host : t.host = s.host
  observed : t.observed = s.observed
  sortFaults : t.sortFaults = s.sortFaults
  reading : t.reading = s.reading
  result : t.result = s.result
  bw : s.bw.sink <+: t.bw.sink
  ok : s.bw.Ok → t.bw.Ok
  k : t.enc.k = s.enc.k

/-- What a procedure of the encoder can answer: it is done, or the sort's stack overflowed (44 R258). -/
def EncRun (s : State) (x : Run Unit) : Prop :=
  match x with
  | .done _ t => EncKeeps s t ∧ EncMid t.enc
  | .raised c t => c = .sortStackOverflow ∧ EncKeeps s t ∧ EncMid t.enc
  | .broke _ => False

theorem EncKeeps.refl (s : State) : EncKeeps s s := ⟨rfl,rfl,rfl,rfl,rfl,rfl,rfl,rfl,rfl,List.prefix_refl _,id,rfl⟩
theorem EncKeeps.trans {a b c : State} (h : EncKeeps a b) (k : EncKeeps b c) : EncKeeps a c :=
  ⟨k.1.trans h.1,k.2.trans h.2,k.3.trans h.3,k.4.trans h.4,k.5.trans h.5,k.6.trans h.6,k.7.trans h.7,k.8.trans h.8,k.9.trans h.9,h.10.trans k.10,k.11 ∘ h.11,k.12.trans h.12⟩

theorem EncRun.andThen {s : State} {x : Run Unit} {f : Unit → State → Run Unit} (h : EncRun s x)
    (hf : ∀ t, x = .done () t → EncMid t.enc → EncRun t (f () t)) : EncRun s (x.andThen f) := by
  cases x with
  | done a t =>
    have := hf t rfl h.2
    simp only [andThen_done]
    revert this
    cases f () t with
    | done _ u => exact fun this => ⟨h.1.trans this.1, this.2⟩
    | raised c u => exact fun this => ⟨this.1, h.1.trans this.2.1, this.2.2⟩
    | broke => exact id
  | raised c t => exact h
  | broke => exact h

theorem closeBlock_run {s : State} (h : EncMid s.enc) : EncRun s (closeBlock s) := by
  rw [closeBlock_eq]
  split
  · exact ⟨rfl, .refl s, h⟩
  · exact ⟨⟨rfl,rfl,rfl,rfl,rfl,rfl,rfl,rfl,rfl,writeBitList_sink_prefix _ _, writeBitList_acc_le _ _, rfl⟩,
      ⟨h.1,h.2,h.3,h.4,Nat.zero_le _,h.6,rfl,h.8⟩⟩

theorem capEnc_big {k : Nat} (h : 1 ≤ k) : 5 ≤ capEnc k := by unfold capEnc blockUnit; omega

theorem appendRun_run {s : State} (c : Byte) (h : EncMid s.enc) (hb : s.enc.block.length + (runBytes c s.enc.run).length ≤ capEnc s.enc.k) :
    EncRun s (.done () (appendRun c s)) :=
  ⟨⟨rfl,rfl,rfl,rfl,rfl,rfl,rfl,rfl,rfl,List.prefix_refl _,id,rfl⟩, ⟨h.1,h.2,by simp, by simp, by simpa using hb,h.6,h.7,h.8⟩⟩

theorem flushRun_run {s : State} (c : Byte) (h : EncMid s.enc) : EncRun s (flushRun c s) := by
  unfold flushRun
  split
  · refine (closeBlock_run h).andThen fun t ht hm => appendRun_run c hm ?_
    rw [closeBlock_eq] at ht
    split at ht
    · cases ht
    · cases ht
      have := runBytes_length_le c s.enc.run
      have := capEnc_big h.2
      simp; omega
  · exact appendRun_run c h (by omega)

theorem flushPending_run {s : State} (h : EncMid s.enc) : EncRun s (flushPending s) := by
  unfold flushPending
  split
  · exact flushRun_run _ h
  · exact ⟨.refl s, h⟩

theorem takeByte_run {s : State} (b : Byte) (h : EncMid s.enc) (hr : s.enc.run ≤ 254) :
    EncRun s (takeByte b s) := by
  unfold takeByte
  split
  · next hc =>
    exact ⟨⟨rfl, rfl, rfl, rfl, rfl, rfl, rfl, rfl, rfl, List.prefix_refl _, id, rfl⟩,
      ⟨h.1, h.2, by simp [hc], by dsimp only; omega, h.5, h.6, h.7, h.8⟩⟩
  · exact (flushPending_run h).andThen fun t _ hm =>
      ⟨⟨rfl, rfl, rfl, rfl, rfl, rfl, rfl, rfl, rfl, List.prefix_refl _, id, rfl⟩,
        ⟨hm.1, hm.2, by simp, by simp, hm.5, hm.6, hm.7, hm.8⟩⟩

/-- The body of ENC_WRITE; a full run does not stay pending. -/
theorem writeRaw_run {s : State} (b : Byte) (h : EncMid s.enc) (hr : s.enc.run ≤ 254) :
    EncRun s (writeRaw b s) ∧ ∀ t, writeRaw b s = .done () t → t.enc.run ≤ 254 := by
  have h1 := takeByte_run b h hr
  constructor
  · refine h1.andThen fun t _ hm => ?_
    split
    · exact flushRun_run b hm
    · exact ⟨.refl t, hm⟩
  · intro t ht
    unfold writeRaw at ht
    rcases hb : takeByte b s with ⟨_, u⟩ | ⟨c, u⟩ | f
    · rw [hb] at ht h1
      simp only [andThen_done] at ht
      split at ht
      · unfold flushRun at ht
        split at ht
        · rw [closeBlock_eq] at ht
          split at ht
          · cases ht
          · cases ht; simp
        · cases ht; simp
      · next hne => cases ht; have := h1.2.4; omega
    · rw [hb] at ht; cases ht
    · rw [hb] at ht; cases ht

theorem flushPending_cur {s t : State} (h : flushPending s = .done () t) : t.enc.cur = none := by
  unfold flushPending at h
  split at h
  · unfold flushRun at h
    split at h
    · rw [closeBlock_eq] at h
      split at h
      · cases h
      · cases h; rfl
    · cases h; rfl
  · next hc => cases h; exact hc

theorem closeNonEmpty_run {s : State} (h : EncMid s.enc) : EncRun s (closeNonEmpty s) := by
  unfold closeNonEmpty
  split
  · exact ⟨.refl s, h⟩
  · exact closeBlock_run h

theorem closeNonEmpty_done {s t : State} (h : closeNonEmpty s = .done () t) :
    t.enc.block = [] ∧ t.enc.cur = s.enc.cur := by
  unfold closeNonEmpty at h
  split at h
  · next hb => cases h; exact ⟨hb, rfl⟩
  · rw [closeBlock_eq] at h
    split at h
    · cases h
    · cases h; exact ⟨rfl, rfl⟩

theorem writeElement_bits (i : Instr) (w : Writer) : (writeElement i w).bits = w.bits ++ encode noCodes i :=
  writeBitList_bits _ _

theorem writeFinish_facts (w : Writer) :
    w.sink <+: (writeFinish w).sink ∧ (w.Ok → (writeFinish w).Ok) := by
  unfold writeFinish
  split
  · exact ⟨List.prefix_refl _, id⟩
  · exact ⟨writeBitList_sink_prefix _ _, writeBitList_acc_le _ _⟩

theorem writeTrailer_facts (c : Word) (w : Writer) :
    w.sink <+: (writeTrailer c w).sink ∧ (w.Ok → (writeTrailer c w).Ok) := by
  unfold writeTrailer
  have h := writeFinish_facts (writeElement (.combinedCrc c) (writeElement .eosMagic w))
  exact ⟨((writeBitList_sink_prefix _ _).trans (writeBitList_sink_prefix _ _)).trans h.1,
    fun hw => h.2 (writeBitList_acc_le _ _ (writeBitList_acc_le _ _ hw))⟩

/-- The body of ENC_CLOSE. -/
theorem closeStream_run {s : State} (h : EncMid s.enc) :
    match closeStream s with
    | .done _ t => EncKeeps s t ∧ t.enc.state = .closed ∧ t.enc.cur = none ∧ t.enc.block = [] ∧
        EncMid { t.enc with state := .opened }
    | .raised c t => c = .sortStackOverflow ∧ EncKeeps s t ∧ EncMid t.enc
    | .broke _ => False := by
  unfold closeStream
  have h1 := flushPending_run h
  have hc := @flushPending_cur s
  rcases hp : flushPending s with ⟨_, t⟩ | ⟨c, t⟩ | f <;> rw [hp] at h1 hc
  · have h2 := closeNonEmpty_run h1.2
    have hd := @closeNonEmpty_done t
    rcases hn : closeNonEmpty t with ⟨_, u⟩ | ⟨c, u⟩ | f
    · rw [hn] at h2 hd
      rw [andThen_done, hn]
      obtain ⟨e1, e2⟩ := hd rfl
      have hw := writeTrailer_facts u.enc.comb u.bw
      exact ⟨(h1.1.trans h2.1).trans
        ⟨rfl, rfl, rfl, rfl, rfl, rfl, rfl, rfl, rfl, hw.1, hw.2, rfl⟩, rfl, e2.trans (hc rfl), e1,
        ⟨h2.2.1, h2.2.2, h2.2.3, h2.2.4, h2.2.5, h2.2.6, h2.2.7, rfl⟩⟩
    · rw [hn] at h2
      rw [andThen_done, hn]
      exact ⟨h2.1, h1.1.trans h2.2.1, h2.2.2⟩
    · rw [hn] at h2; exact h2.elim
  · exact h1
  · exact h1

end Sys2Proof.Machine
end

