-- ==== Sys2Proof/Laws/PerInstr.lean ====
section
/-! SUPPORT. One statement for every instruction, about it as syntax: a command has a 32-bit word, whose bits are
the ones `encode` gives; a wire element has none (30_encoding R80, R100, R101). -/

namespace Sys2Proof.Laws.CmdWord

/-- The command word and the bits of the encoder agree, and only a command has a word. -/
def Statement (i : Instr) : Prop :=
  (encodeCmd i).isSome = i.isCommand ∧
    ∀ (book : CodeBook) (w : Word), encodeCmd i = some w → encode book i = bitsOf 32 w.toNat

/-- The word of an opcode with an operand, as a number. -/
theorem operand_word (op f : BitVec 8) :
    (op ++ f ++ (0 : BitVec 16)).toNat = op.toNat * 0x1000000 + f.toNat * 0x10000 := by
  have hf := f.isLt
  rw [BitVec.toNat_append, BitVec.toNat_append, ← Nat.shiftLeft_add_eq_or_of_lt hf,
    show (0 : BitVec 16).toNat = 0 from rfl, Nat.or_zero, Nat.shiftLeft_eq, Nat.shiftLeft_eq]
  ring

/-- A command with an operand. -/
theorem of_operand {i : Instr} {op f : BitVec 8} {n : Nat} (hc : i.isCommand = true)
    (he : encodeCmd i = some (op ++ f ++ (0 : BitVec 16)))
    (hb : ∀ book, encode book i = bitsOf 32 (n + f.toNat * 0x10000)) (hn : n = op.toNat * 0x1000000) :
    Statement i := by
  refine ⟨by rw [he, hc]; rfl, fun book w hw => ?_⟩
  rw [he] at hw
  cases hw
  rw [hb, operand_word, hn]

/-- A wire element. -/
theorem of_element {i : Instr} (hc : i.isCommand = false) (he : encodeCmd i = none) : Statement i :=
  ⟨by rw [he, hc]; rfl, fun book w hw => by rw [he] at hw; cases hw⟩

theorem nop : Statement .nop := ⟨rfl, fun _ _ h => by cases h; rfl⟩

theorem reset : Statement .reset := ⟨rfl, fun _ _ h => by cases h; rfl⟩

theorem bwWriteBits (n : BitVec 8) : Statement (.bwWriteBits n) := of_operand rfl rfl (fun _ => rfl) rfl

theorem bwFinish : Statement .bwFinish := ⟨rfl, fun _ _ h => by cases h; rfl⟩

theorem brReadBits (n : BitVec 8) : Statement (.brReadBits n) := of_operand rfl rfl (fun _ => rfl) rfl

theorem crcReset : Statement .crcReset := ⟨rfl, fun _ _ h => by cases h; rfl⟩

theorem crcUpdate (b : Byte) : Statement (.crcUpdate b) := of_operand rfl rfl (fun _ => rfl) rfl

theorem crcValue : Statement .crcValue := ⟨rfl, fun _ _ h => by cases h; rfl⟩

theorem crcCombReset : Statement .crcCombReset := ⟨rfl, fun _ _ h => by cases h; rfl⟩

theorem crcCombine : Statement .crcCombine := ⟨rfl, fun _ _ h => by cases h; rfl⟩

theorem encInit (k : BitVec 8) : Statement (.encInit k) := of_operand rfl rfl (fun _ => rfl) rfl

theorem encWrite (b : Byte) : Statement (.encWrite b) := of_operand rfl rfl (fun _ => rfl) rfl

theorem encClose : Statement .encClose := ⟨rfl, fun _ _ h => by cases h; rfl⟩

theorem decInit : Statement .decInit := ⟨rfl, fun _ _ h => by cases h; rfl⟩

theorem decRead : Statement .decRead := ⟨rfl, fun _ _ h => by cases h; rfl⟩

theorem streamHeader (k : BitVec 4) : Statement (.streamHeader k) := of_element rfl rfl

theorem blockMagic : Statement .blockMagic := of_element rfl rfl

theorem blockCrc (c : Word) : Statement (.blockCrc c) := of_element rfl rfl

theorem rand (r : Bool) : Statement (.rand r) := of_element rfl rfl

theorem origPtr (p : BitVec 24) : Statement (.origPtr p) := of_element rfl rfl

theorem inUse16 (g : BitVec 16) : Statement (.inUse16 g) := of_element rfl rfl

theorem inUseWord (u : BitVec 16) : Statement (.inUseWord u) := of_element rfl rfl

theorem nGroups (n : BitVec 3) : Statement (.nGroups n) := of_element rfl rfl

theorem nSelectors (n : BitVec 15) : Statement (.nSelectors n) := of_element rfl rfl

theorem selectorMtf (j : Nat) : Statement (.selectorMtf j) := of_element rfl rfl

theorem lenStart (l : BitVec 5) : Statement (.lenStart l) := of_element rfl rfl

theorem lenInc : Statement .lenInc := of_element rfl rfl

theorem lenDec : Statement .lenDec := of_element rfl rfl

theorem lenStop : Statement .lenStop := of_element rfl rfl

theorem huffSymbol (v : Nat) : Statement (.huffSymbol v) := of_element rfl rfl

theorem eosMagic : Statement .eosMagic := of_element rfl rfl

theorem combinedCrc (c : Word) : Statement (.combinedCrc c) := of_element rfl rfl

theorem pad (z : Nat) : Statement (.pad z) := of_element rfl rfl

end Sys2Proof.Laws.CmdWord
end

