-- ==== Sys2Proof/Laws/Read.lean ====
section
/-! SUPPORT. The loop of DEC_READ: every turn gives a next state, and the loop ends. -/

namespace Sys2Proof.Machine

/-- What DEC_READ leaves alone, at any point of its loop. -/
structure ReadFrame (s t : State) : Prop where
  bw : t.bw = s.bw
  arg0 : t.arg0 = s.arg0
  crcx : t.crcx = s.crcx
  enc : t.enc = s.enc
  host : t.host = s.host
  observed : t.observed = s.observed
  sortFaults : t.sortFaults = s.sortFaults
  past : s.br.Past t.br

theorem ReadFrame.trans {a b c : State} (h : ReadFrame a b) (k : ReadFrame b c) : ReadFrame a c :=
  ⟨k.bw.trans h.bw, k.arg0.trans h.arg0, k.crcx.trans h.crcx, k.enc.trans h.enc, k.host.trans h.host,
    k.observed.trans h.observed, k.sortFaults.trans h.sortFaults, h.past.trans k.past⟩

/-- How a DEC_READ ends (45 R282, R297, R299). -/
def ReadEnd (t : State) : Prop :=
  t.reading = false ∧
  (t.lastCause = none ∧ t.dec.state = .decodingBlock ∧ (∃ c : Byte, t.result = c.setWidth 32) ∨
    t.lastCause = none ∧ t.dec.state = .done ∧ t.result = endResult ∨
    ∃ c, isDecodeFault c = true ∧ t.lastCause = some c ∧ t.result = causeResult ∧ t.dec.state = .faulted ∧
      t.dec.cause = some c)

theorem decFault_end {c : Cause} {s : State} (h : isDecodeFault c = true) : ReadEnd (decFault c s) :=
  ⟨rfl, .inr (.inr ⟨c, h, rfl, rfl, rfl, rfl⟩)⟩

/-- The measure of the loop of DEC_READ: the bits left, and whether a block is being delivered (45 R282). -/
def readMeasure (s : State) : Nat :=
  2 * s.br.bits.length + (if s.dec.state = .decodingBlock then 1 else 0)

/-- The turn of the loop that serves a block. -/
theorem blockStep_spec {s : State} (h : s.Inv) (hr : s.reading = true) (hd : s.dec.state = .decodingBlock) :
    ∃ t, blockStep s = .next t ∧ t.Inv ∧ ReadFrame s t ∧
      (t.reading = true ∧ readMeasure t < readMeasure s ∨ ReadEnd t) := by
  obtain ⟨hw, hrd, he, h1, h2, h3, h4, h5⟩ := h
  obtain ⟨b, hb⟩ := Option.isSome_iff_exists.1 (h3.1.1 hd)
  have hbk := h3.2 b hb
  obtain ⟨⟨byte, b'⟩, hn, hok⟩ := nextByte_ok s.dec.rand hbk
  have hsc : s.dec.scratch = none := by
    cases hc : s.dec.scratch with
    | none => rfl
    | some sc => rw [hc, hd] at h4; exact absurd (h4.1 rfl) (by simp)
  have hcause : s.dec.cause = none := by
    cases hc : s.dec.cause with
    | none => rfl
    | some c => rw [hc, hd] at h5; exact absurd (h5.1.2 rfl) (by simp)
  have hk := h2.2 (.inl hd)
  unfold blockStep
  rw [hb]
  dsimp only
  rw [hn]
  cases byte with
  | some c =>
    refine ⟨_, rfl, ⟨hw, hrd, he, ⟨fun _ => ?_, fun hc => by cases hc⟩, ⟨h2.1, fun _ => hk⟩, ?_, ?_, ?_⟩,
      ⟨rfl, rfl, rfl, rfl, rfl, rfl, rfl, .refl _⟩, .inr ⟨rfl, .inl ⟨rfl, hd, c, rfl⟩⟩⟩
    · simp [hd, DecState.held]
    · simp only [deliver_dec, hd, Option.isSome_some, Option.mem_def, Option.some.injEq, true_and, iff_self]
      rintro _ rfl; exact hok
    · simp [hsc]
    · simp [hd, hcause]
  | none =>
    dsimp only
    unfold endBlock
    split
    · refine ⟨_, rfl, ⟨hw, hrd, he, ⟨fun hc => absurd hc (by simp [hr]), fun _ => rfl⟩, ⟨h2.1, fun _ => hk⟩, ?_, ?_, ?_⟩,
        ⟨rfl, rfl, rfl, rfl, rfl, rfl, rfl, .refl _⟩, .inl ⟨hr, ?_⟩⟩
      · simp
      · simp [hsc]
      · simp [hcause]
      · simp [readMeasure, hd]
    · exact ⟨_, rfl, decFault_inv ⟨hw, hrd, he, h1, h2, h3, h4, h5⟩ rfl, ⟨rfl, rfl, rfl, rfl, rfl, rfl, rfl, .refl _⟩,
        .inr (decFault_end rfl)⟩

/-- One turn of the loop: it gives a next state in order, and goes on nearer the end or ends (45 R282). -/
theorem readStep_spec {s : State} (h : s.Inv) (hr : s.reading = true) :
    ∃ t, readStep s = .next t ∧ t.Inv ∧ ReadFrame s t ∧
      (t.reading = true ∧ readMeasure t < readMeasure s ∨ ReadEnd t) := by
  unfold readStep
  split
  · next hd => exact blockStep_spec h hr hd
  next hd =>
  have hok : s.dec.Ok true := hr ▸ h.2.2.2
  obtain ⟨x, hx⟩ : ∃ x, fetchElement s.dec s.br = some x := by
    have := hok.1.2 rfl
    unfold fetchElement
    cases hc : s.dec.state <;> simp_all [DecState.busy]
    cases s.dec.scratch <;> exact ⟨_, _, rfl⟩
  have hf := fetchElement_fetches hok hx
  rw [hx]
  have hinv : ({ s with br := x.2 } : State).Inv := ⟨h.1, hf.past.ok h.2.1, h.2.2.1, h.2.2.2⟩
  rcases x with ⟨c | i, r⟩
  · exact ⟨_, rfl, decFault_inv hinv (hf.cause c rfl), ⟨rfl, rfl, rfl, rfl, rfl, rfl, rfl, hf.past⟩,
      .inr (decFault_end (hf.cause c rfl))⟩
  · obtain ⟨t, ht⟩ := fetched_next hr hok.2.2.2.1.1 hx
    have hs := execElement_step ht
    refine ⟨t, ht, execElement_inv hinv ht, ⟨hs.bw, hs.arg0, hs.crcx, hs.enc, hs.host, hs.observed, hs.sortFaults, ?_⟩, ?_⟩
    · rw [hs.br]; exact hf.past
    · rcases hs.ends with ⟨e1, e2, e3⟩ | ⟨e1, e2, e3, e4⟩ | ⟨c, e1, e2, e3, e4, e5, e6⟩
      · refine .inl ⟨e1.trans hr, ?_⟩
        have hl : t.br.bits.length < s.br.bits.length := by rw [hs.br]; exact hf.less i rfl
        unfold readMeasure
        rw [if_neg hd]
        split <;> omega
      · exact .inr ⟨e1, .inr (.inl ⟨e2, e4, e3⟩)⟩
      · exact .inr ⟨e1, .inr (.inr ⟨c, e6, e2, e3, e4, e5⟩)⟩

/-- The loop of DEC_READ ends (45 R282): fuel above the measure is enough. -/
theorem readLoop_spec (fuel : Nat) {s : State} (h : s.Inv) (hr : s.reading = true)
    (hm : readMeasure s < fuel) :
    ∃ t, readLoop fuel s = .next t ∧ t.Inv ∧ ReadFrame s t ∧ ReadEnd t := by
  induction fuel generalizing s with
  | zero => omega
  | succ fuel ih =>
    obtain ⟨t, ht, hi, hf, hc⟩ := readStep_spec h hr
    unfold readLoop
    rw [ht]
    rcases hc with ⟨hr', hlt⟩ | he
    · obtain ⟨u, hu, hui, huf, hue⟩ := ih hi hr' (by omega)
      exact ⟨u, by simp [hr', hu], hui, hf.trans huf, hue⟩
    · exact ⟨t, by simp [he.1], hi, hf, he⟩

/-- What a DEC_READ on a stream in progress does. -/
theorem readStream_spec {s : State} (h : s.Inv)
    (hb : s.dec.state = .expectStreamHeader ∨ s.dec.state = .decodingBlock) :
    ∃ t, readLoop (readBound s.br) { s with reading := true } = .next t ∧ t.Inv ∧
      ReadFrame { s with reading := true } t ∧ ReadEnd t := by
  refine readLoop_spec _ ?_ rfl ?_
  · obtain ⟨hw, hrd, he, h1, hd⟩ := h
    refine ⟨hw, hrd, he, ⟨fun hc => (by cases hc), fun _ => ?_⟩, hd⟩
    rcases hb with hb | hb <;> simp [hb, DecState.busy]
  · have := Reader.bits_length s.br
    unfold readMeasure readBound
    dsimp only
    rw [this]
    split <;> omega

end Sys2Proof.Machine
end

