-- ==== Sys2Proof/Tests/Slice0.lean ====
section
/-! SUPPORT. Tests of the model against values the spec writes out (its file and section stand at each), and a
witness for the hypotheses of every statement. -/

open Sys2Proof Sys2Proof.Machine Sys2Proof.Claims

namespace Sys2Proof.Tests

set_option Elab.async false

/-- The state a step leads to. -/
def nextOf (o : Host.Outcome State Fault Refusal) : Option State :=
  match o with
  | .next t => some t
  | .fault _ => none
  | .refused _ => none

/-- A state with one host write to CMD pending. -/
def pending (w : Word) (s : State) : State := { s with host := [cmdWrite w] }

/-- What `f` sees after the host writes a command word. -/
def see {α : Type} (w : Word) (s : State) (f : State → α) : Option α := (nextOf (step (pending w s))).map f

/-- What `f` sees after one instruction. -/
def after {α : Type} (i : Instr) (s : State) (f : State → α) : Option α := (nextOf (exec i s)).map f

/-- STATUS and RESULT. -/
def report (s : State) : Word × Word := (readReg s .status, readReg s .result)

/-- A core with a source, at its start. -/
def withSource (src : List Byte) (s : State) : State := { s with br := { s.br with src := src } }

/-- An encoder opened at block size 1. -/
def opened : State := { State.reset with enc := { Encoder.reset with state := .opened, k := 1 } }

/-- The same with a pending run. -/
def running (c : Byte) (n : Nat) (block : List Byte) : State :=
  { opened with enc := { opened.enc with cur := some c, run := n, block := block } }

/-- A decoder in a control state. -/
def decoderIn (d : DecState) : State := { State.reset with dec := { Decoder.reset with state := d, k := 1 } }

/-- Inside a DEC_READ, in a control state between blocks. -/
def readingIn (d : DecState) : State := { decoderIn d with reading := true }

/-- Inside a DEC_READ, at a place of a block. -/
def inBlock (sc : DecScratch) : State :=
  { readingIn .expectBlockHeader with
    dec := { (decoderIn .expectBlockHeader).dec with scratch := some sc } }

/-- The tables at a place: the in-use bytes 06 and 41, two tables of lengths 2 2 2 2, one selector (95 §1.1). -/
def tablesAt (p : BlockPos) : DecScratch :=
  { DecScratch.start with
    pos := p, origPtr := 4, seqToUnseq := [0x06, 0x41], nGroups := 2, nSelectors := 1, selList := [0, 1],
    selector := [0], tables := [buildDecTable [2, 2, 2, 2], buildDecTable [2, 2, 2, 2]],
    mtfList := [0x06, 0x41] }

/-- The element that is fetched from the first bytes of a source. -/
def fetched (d : Decoder) (src : List Byte) : Option (Except Cause Instr) :=
  (fetchElement d { Reader.reset with src := src }).map Prod.fst

/-- The decoder at a place of a block. -/
def standing (p : BlockPos) : Decoder := (inBlock (tablesAt p)).dec

/-- The 39-byte stream of 95 §1.1. -/
def stream39 : List Byte :=
  [0x42, 0x5A, 0x68, 0x31, 0x31, 0x41, 0x59, 0x26, 0x53, 0x59, 0xA2, 0xF8, 0x4F, 0x0E, 0x00, 0x00, 0x02,
    0x44, 0x00, 0x01, 0x00, 0x20, 0x00, 0x20, 0x00, 0x21, 0x00, 0x82, 0x0B, 0x17, 0x72, 0x45, 0x38, 0x50,
    0x90, 0xA2, 0xF8, 0x4F, 0x0E]

/-- The block of that stream, no byte delivered (95 §1.2). -/
def startedBlock : DecBlock :=
  startBlock 4 [0x41, 0x41, 0x41, 0x41, 0x06] (countBytes [0x41, 0x41, 0x41, 0x41, 0x06])

/-- The block of that stream, with every byte delivered (95 §1.2). -/
def spentBlock : DecBlock :=
  { startedBlock with p := 3, i := 5 }

/-- The core before the eleventh DEC_READ of that stream (95 §1.2). -/
def spent : State :=
  { State.reset with
    br := { acc := [], src := stream39, pos := 29, count := 29 }
    dec :=
      { Decoder.reset with
        state := .decodingBlock, k := 1, stored := 0xA2F84F0E, crc := 0xA2F84F0E ^^^ 0xFFFFFFFF
        blk := some spentBlock } }

/-! ## Well-formedness: an ill-formed term for each check (30_encoding R81..R92, R101, R102) -/

theorem test_illFormed_bwWriteBits : (Instr.wellFormed (.bwWriteBits 33)) = false := by decide

theorem test_illFormed_brReadBits : (Instr.wellFormed (.brReadBits 33)) = false := by decide

theorem test_illFormed_encInit_low : (Instr.wellFormed (.encInit 0)) = false := by decide

theorem test_illFormed_encInit_high : (Instr.wellFormed (.encInit 10)) = false := by decide

theorem test_illFormed_streamHeader_low : (Instr.wellFormed (.streamHeader 0)) = false := by decide

theorem test_illFormed_streamHeader_high : (Instr.wellFormed (.streamHeader 10)) = false := by decide

theorem test_illFormed_origPtr : (Instr.wellFormed (.origPtr 900000)) = false := by decide

theorem test_illFormed_inUse16 : (Instr.wellFormed (.inUse16 0)) = false := by decide

theorem test_illFormed_nGroups_low : (Instr.wellFormed (.nGroups 1)) = false := by decide

theorem test_illFormed_nGroups_high : (Instr.wellFormed (.nGroups 7)) = false := by decide

theorem test_illFormed_nSelectors_low : (Instr.wellFormed (.nSelectors 0)) = false := by decide

theorem test_illFormed_nSelectors_high : (Instr.wellFormed (.nSelectors 18003)) = false := by decide

theorem test_illFormed_selectorMtf : (Instr.wellFormed (.selectorMtf 6)) = false := by decide

theorem test_illFormed_lenStart_low : (Instr.wellFormed (.lenStart 0)) = false := by decide

theorem test_illFormed_lenStart_high : (Instr.wellFormed (.lenStart 21)) = false := by decide

theorem test_illFormed_huffSymbol : (Instr.wellFormed (.huffSymbol 258)) = false := by decide

theorem test_illFormed_pad : (Instr.wellFormed (.pad 8)) = false := by decide

theorem test_wellFormed_limits :
    Instr.wellFormed (.bwWriteBits 32) ∧ Instr.wellFormed (.encInit 9) ∧ Instr.wellFormed (.origPtr 899999) ∧
      Instr.wellFormed (.nSelectors 18002) ∧ Instr.wellFormed (.lenStart 20) := by decide

/-! ## Decoding: command words from 30_encoding R100, R101 -/

theorem test_decode_nop : decodeCmd 0x00000000 = .ok (.nop) := by decide

theorem test_decode_reset : decodeCmd 0x01000000 = .ok (.reset) := by decide

theorem test_decode_bwWriteBits : decodeCmd 0x10030000 = .ok (.bwWriteBits 3) := by decide

theorem test_decode_bwFinish : decodeCmd 0x11000000 = .ok (.bwFinish) := by decide

theorem test_decode_brReadBits : decodeCmd 0x18090000 = .ok (.brReadBits 9) := by decide

theorem test_decode_crcReset : decodeCmd 0x20000000 = .ok (.crcReset) := by decide

theorem test_decode_crcUpdate : decodeCmd 0x21410000 = .ok (.crcUpdate 0x41) := by decide

theorem test_decode_crcValue : decodeCmd 0x22000000 = .ok (.crcValue) := by decide

theorem test_decode_crcCombReset : decodeCmd 0x23000000 = .ok (.crcCombReset) := by decide

theorem test_decode_crcCombine : decodeCmd 0x24000000 = .ok (.crcCombine) := by decide

theorem test_decode_encInit : decodeCmd 0x30010000 = .ok (.encInit 1) := by decide

theorem test_decode_encWrite : decodeCmd 0x31FF0000 = .ok (.encWrite 0xFF) := by decide

theorem test_decode_encClose : decodeCmd 0x32000000 = .ok (.encClose) := by decide

theorem test_decode_decInit : decodeCmd 0x38000000 = .ok (.decInit) := by decide

theorem test_decode_decRead : decodeCmd 0x39000000 = .ok (.decRead) := by decide

/-- 95 §2.7: an undefined opcode, a nonzero Z, a nonzero F. -/
theorem test_decode_illegal :
    decodeCmd 0x02000000 = .error .illegalCommand ∧ decodeCmd 0xFF000000 = .error .illegalCommand ∧
      decodeCmd 0x00000001 = .error .illegalCommand ∧ decodeCmd 0x00010000 = .error .illegalCommand ∧
      decodeCmd 0x32010000 = .error .illegalCommand := by decide

/-- 30_encoding R104: a word written from an instruction. -/
theorem test_encode_word : encodeCmd (.bwWriteBits 32) = some 0x10200000 := by decide

/-! ## Decoding: wire elements from 30_encoding R81..R88, in the bits of 95 §1.1 and §2.4 -/

theorem test_decode_streamHeader : fetched (readingIn .expectStreamHeader).dec [0x42, 0x5A, 0x68, 0x39] = some (.ok (.streamHeader 9)) := by decide +kernel

theorem test_decode_blockMagic : fetched (readingIn .expectBlockHeader).dec [0x31, 0x41, 0x59, 0x26, 0x53, 0x59] = some (.ok (.blockMagic)) := by decide +kernel

theorem test_decode_eosMagic : fetched (readingIn .expectBlockHeader).dec [0x17, 0x72, 0x45, 0x38, 0x50, 0x90] = some (.ok (.eosMagic)) := by decide +kernel

theorem test_decode_combinedCrc : fetched (readingIn .expectStreamTrailer).dec [0xA2, 0xF8, 0x4F, 0x0E] = some (.ok (.combinedCrc 0xA2F84F0E)) := by decide +kernel

theorem test_decode_blockCrc : fetched (standing .blockCrc) [0xA2, 0xF8, 0x4F, 0x0E] = some (.ok (.blockCrc 0xA2F84F0E)) := by decide +kernel

theorem test_decode_rand : fetched (standing .rand) [0x80] = some (.ok (.rand true)) := by decide +kernel

theorem test_decode_origPtr : fetched (standing .origPtr) [0x00, 0x00, 0x04] = some (.ok (.origPtr 4)) := by decide +kernel

theorem test_decode_inUse16 : fetched (standing .inUse16) [0x88, 0x00] = some (.ok (.inUse16 0x8800)) := by decide +kernel

theorem test_decode_inUseWord : fetched (standing .inUseWord) [0x02, 0x00] = some (.ok (.inUseWord 0x0200)) := by decide +kernel

theorem test_decode_nGroups : fetched (standing .nGroups) [0x40] = some (.ok (.nGroups 2)) := by decide +kernel

theorem test_decode_nSelectors : fetched (standing .nSelectors) [0x00, 0x02] = some (.ok (.nSelectors 1)) := by decide +kernel

theorem test_decode_selectorMtf : fetched (standing .selector) [0x80] = some (.ok (.selectorMtf 1)) := by decide +kernel

theorem test_decode_lenStart : fetched (standing .lenStart) [0x10] = some (.ok (.lenStart 2)) := by decide +kernel

theorem test_decode_lenInc : fetched (standing .lenAdjust) [0x80] = some (.ok (.lenInc)) := by decide +kernel

theorem test_decode_lenDec : fetched (standing .lenAdjust) [0xC0] = some (.ok (.lenDec)) := by decide +kernel

theorem test_decode_lenStop : fetched (standing .lenAdjust) [0x40] = some (.ok (.lenStop)) := by decide +kernel

theorem test_decode_huffSymbol : fetched (standing .symbol) [0xA0] = some (.ok (.huffSymbol 2)) := by decide +kernel

/-- 30_encoding R92: causes of the fetch. -/
theorem test_decode_causes :
    fetched (readingIn .expectStreamHeader).dec [0x42, 0x5B] = some (.error .badStreamMagic) ∧
      fetched (readingIn .expectBlockHeader).dec [0x31, 0x41, 0x59, 0x26, 0x53, 0x58] =
        some (.error .badBlockMagic) ∧
      fetched (standing .selector) [0xC0] = some (.error .badSelector) ∧
      fetched (standing .symbol) [] = some (.error .unexpectedEndOfInput) := by decide +kernel

/-- 95 §2.4: decode tables of lengths 2 1 3 3, and symbol 2 from its code 110. -/
theorem test_decodeTable :
    (buildDecTable [2, 1, 3, 3]).perm = [1, 0, 2, 3] ∧ (buildDecTable [2, 1, 3, 3]).minLen = 1 ∧
      (buildDecTable [2, 1, 3, 3]).maxLen = 3 ∧
      ((buildDecTable [2, 1, 3, 3]).limit.drop 1).take 3 = [0, 2, 7] ∧
      ((buildDecTable [2, 1, 3, 3]).base.drop 2).take 2 = [1, 4] ∧
      (decodeSymbol (buildDecTable [2, 1, 3, 3]) { Reader.reset with src := [0xC0] }).1 =
        .ok (.huffSymbol 2) := by decide +kernel

/-- 30_encoding R89: PAD has no bits to fetch; its bits are zeros. -/
theorem test_encode_pad : encode noCodes (.pad 3) = [false, false, false] := by decide

/-! ## Words of the opcode table, placed where the next step fetches them -/

theorem test_table_words :
    decodeTableWord 32 0x31410000 = some (.encWrite 0x41) ∧ decodeTableWord 32 0x425A6831 = some (.streamHeader 1) ∧
      decodeTableWord 48 0x177245385090 = some .eosMagic ∧ decodeTableWord 32 0x02000000 = none := by decide

theorem test_fetchWord_command :
    (nextOf (step (State.reset.withFetchWord 32 0x30010000))).map (fun t => readReg t .status) =
      some 0x08000000 := by decide +kernel

theorem test_fetchWord_element :
    (nextOf (step (State.reset.withFetchWord 48 0x314159265359))).map (fun t => t.dec.scratch) =
      some (some DecScratch.start) := by decide +kernel

/-! ## NOP, RESET, illegal words (95 §2.7, §2.8) -/

theorem test_illegal_word : see 0x02000000 State.reset report = some (0x80000001, 0xFFFFFFFE) := by decide +kernel

theorem test_nop :
    see 0x00000000 (recorded .badOperand State.reset) report = some (0x00000000, 0xFFFFFFFE) := by decide +kernel

theorem test_reset :
    see 0x01000000 (encFaulted .sortStackOverflow { opened with bw := { acc := [true], sink := [7], count := 1 } })
      (fun t => (report t, t.bw)) =
      some ((0, 0), { acc := [], sink := [7], count := 0 }) := by decide +kernel

/-! ## Bit I/O (95 §2.1) -/

theorem test_bwWriteBits :
    see 0x100C0000
      { State.reset with
        arg0 := 0x123, bw := { acc := [true, false, true, false], sink := [0x80, 0xFF], count := 2 } }
      (fun t => t.bw) = some { acc := [], sink := [0x80, 0xFF, 0xA1, 0x23], count := 4 } := by decide +kernel

theorem test_bwWriteBits_causes :
    see 0x10280000 State.reset report = some (0x80000003, 0xFFFFFFFE) ∧
      see 0x10010000 opened report = some (0x88000002, 0xFFFFFFFE) := by decide +kernel

theorem test_bwFinish :
    see 0x11000000 { State.reset with bw := { acc := [true, false, true], sink := [], count := 0 } }
      (fun t => t.bw) = some { acc := [], sink := [0xA0], count := 1 } := by decide +kernel

theorem test_brReadBits :
    see 0x18090000
      { State.reset with br := { acc := [true, false, false, true, true], src := [0xB3, 0x0F], pos := 1, count := 1 } }
      (fun t => (t.result, t.br.acc, readReg t .srcCount)) =
      some (0x130, [true, true, true, true], 2) := by decide +kernel

theorem test_brReadBits_end :
    see 0x180C0000 (withSource [0xAB] State.reset)
      (fun t => (report t, readReg t .info, readReg t .srcCount)) =
      some ((0x80000040, 0xFFFFFFFE), 0x00080000, 1) := by decide +kernel

/-! ## CRC (95 §2.2) -/

theorem test_crcReset :
    see 0x20000000 { State.reset with crcx := { reg := 5, comb := 7 } }
      (fun t => (readReg t .crcx, readReg t .crcxComb)) = some (0, 7) := by decide +kernel

theorem test_crcUpdate : see 0x21410000 State.reset (fun t => readReg t .crcx) = some 0x81B02D8B := by decide +kernel

theorem test_crcValue :
    see 0x22000000 { State.reset with crcx := { reg := 0x81B02D8B ^^^ 0xFFFFFFFF, comb := 0 } } (·.result) =
      some 0x81B02D8B := by decide +kernel

theorem test_crcCombReset :
    see 0x23000000 { State.reset with result := 9, crcx := { reg := 5, comb := 7 } }
      (fun t => (t.result, t.crcx.comb)) = some (9, 0) := by decide +kernel

theorem test_crcCombine :
    see 0x24000000 { State.reset with arg0 := 0x9ABCDEF0, crcx := { reg := 5, comb := 0x12345678 } }
      (fun t => (t.result, readReg t .crcxComb)) = some (0xBED47200, 0xBED47200) := by decide +kernel

/-! ## Block encoder (95 §2.3, §2.4) -/

/-- "banana": the rotations, the last column, the index of the original. -/
theorem test_bwt :
    sortRotations [0x62, 0x61, 0x6E, 0x61, 0x6E, 0x61] = [5, 3, 1, 0, 4, 2] ∧
      lastColumn [0x62, 0x61, 0x6E, 0x61, 0x6E, 0x61] [5, 3, 1, 0, 4, 2] =
        [0x6E, 0x6E, 0x62, 0x61, 0x61, 0x61] ∧
      findOrigPtr [5, 3, 1, 0, 4, 2] = 3 := by decide +kernel

/-- "banana": the MTF and RLE2 symbols before EOB. -/
theorem test_mtf :
    (mtfSymbols [0x6E, 0x6E, 0x62, 0x61, 0x61, 0x61] [0x61, 0x62, 0x6E] 0).1 = [3, 0, 3, 3, 1] := by
  decide +kernel

/-- 45_stream_decoder R291, R292, on the last column of "banana": the counts and the chain of the six positions. -/
theorem test_chain :
    (countBytes [0x6E, 0x6E, 0x62, 0x61, 0x61, 0x61]).getD 0x61 9 = 0 ∧
      (countBytes [0x6E, 0x6E, 0x62, 0x61, 0x61, 0x61]).getD 0x62 9 = 3 ∧
      (countBytes [0x6E, 0x6E, 0x62, 0x61, 0x61, 0x61]).getD 0x6E 9 = 4 ∧
      buildChain [0x6E, 0x6E, 0x62, 0x61, 0x61, 0x61] (countBytes [0x6E, 0x6E, 0x62, 0x61, 0x61, 0x61]) =
        [3, 4, 5, 2, 0, 1] := by decide +kernel

theorem test_emitRun : emitRun 6 = [1, 1] ∧ emitRun 1000 = [1, 0, 0, 1, 0, 1, 1, 1, 1] := by decide +kernel

/-- 42_block_encoder R168: the first mask positions. -/
theorem test_mask :
    ((maskBlock true (List.replicate 1340 0)).zipIdx.filter fun x => x.1 = 1).map Prod.snd = [617, 1337] := by
  decide +kernel

theorem test_codeLengths :
    makeCodeLengths [10, 5, 3, 1] 20 = [1, 2, 3, 3] ∧ makeCodeLengths [1, 2, 4, 8, 16, 32] 20 = [5, 5, 4, 3, 2, 1] ∧
      canonicalCodes [2, 1, 3, 3] = [0b10, 0, 0b110, 0b111] := by decide +kernel

theorem test_selectorMtf : selectorMtfValues 6 [0, 0, 1, 1, 2, 0, 5, 5] = [0, 0, 1, 0, 2, 2, 5, 0] := by
  decide +kernel

/-! ## Encoder commands (95 §1.1, §2.5) -/

theorem test_encInit :
    see 0x30010000 State.reset (fun t => (t.bw.sink, readReg t .status, readReg t .info)) =
      some ([0x42, 0x5A, 0x68, 0x31], 0x08000000, 0x00000001) := by decide +kernel

theorem test_encInit_zero : see 0x30000000 State.reset report = some (0x80000050, 0xFFFFFFFE) := by decide +kernel

/-- 95 §2.3: a run of four ends, with its count byte. -/
theorem test_encWrite :
    see 0x31420000 (running 0x41 4 []) (fun t => (t.enc.block, t.enc.cur, t.enc.run)) =
      some ([0x41, 0x41, 0x41, 0x41, 0x00], some 0x42, 1) := by decide +kernel

theorem test_encWrite_idle : see 0x31410000 State.reset report = some (0x80000002, 0xFFFFFFFE) := by decide +kernel

/-- 95 §1.1: ten times 41 at block size 1. -/
theorem test_encClose :
    see 0x32000000 { running 0x41 10 [] with bw := { acc := [], sink := stream39.take 4, count := 4 } }
      (fun t => (t.bw.sink, readReg t .encComb)) = some (stream39, 0xA2F84F0E) := by decide +kernel

/-- 95 §2.3: SORT_FAULT at the block that closes. -/
theorem test_encClose_sortFault :
    see 0x32000000 { running 0x41 10 [] with sortFaults := [[0x41, 0x41, 0x41, 0x41, 0x06]] } report =
      some (0x98005151, 0xFFFFFFFE) := by decide +kernel

/-! ## Decoder commands (45_stream_decoder R281, R282; 95 §1.2) -/

theorem test_decInit :
    see 0x38000000 State.reset (fun t => (readReg t .status, readReg t .srcCount)) = some (0x01000000, 0) := by
  decide +kernel

theorem test_decRead_first :
    see 0x39000000 (withSource stream39 (decoderIn .expectStreamHeader))
      (fun t => (t.result, readReg t .srcCount, t.dec.blk.map (·.tt))) =
      some (0x41, 29, some [4, 0, 1, 2, 3]) := by decide +kernel

theorem test_decRead_last :
    see 0x39000000 spent (fun t => (t.result, readReg t .srcCount, readReg t .status)) =
      some (0xFFFFFFFF, 39, 0x05000000) := by decide +kernel

/-! ## Wire elements (43_huffman R220..R226, 45_stream_decoder R282..R297) -/

theorem test_streamHeader :
    after (.streamHeader 9) (readingIn .expectStreamHeader) (fun t => (t.dec.k, t.dec.state)) =
      some (9, .expectBlockHeader) ∧
    after (.streamHeader 10) (readingIn .expectStreamHeader) (fun t => (t.dec.cause, t.reading)) =
      some (some .badBlockSizeDigit, false) := by decide

theorem test_blockMagic :
    after .blockMagic (readingIn .expectBlockHeader) (fun t => t.dec.scratch.map (·.pos)) =
      some (some .blockCrc) := by decide

theorem test_blockCrc :
    after (.blockCrc 0xA2F84F0E) (inBlock (tablesAt .blockCrc)) (fun t => readReg t .decStored) =
      some 0xA2F84F0E := by decide +kernel

theorem test_rand :
    after (.rand true) (inBlock (tablesAt .rand)) (fun t => (readReg t .status).getLsbD 30) = some true := by
  decide +kernel

theorem test_origPtr :
    after (.origPtr 7) (inBlock (tablesAt .origPtr)) (fun t => t.dec.scratch.map (·.origPtr)) =
      some (some 7) := by decide +kernel

/-- 95 §1.1: groups 0 and 4. -/
theorem test_inUse16 :
    after (.inUse16 0x8800) (inBlock (tablesAt .inUse16)) (fun t => t.dec.scratch.map (·.mapLeft)) =
      some (some [0, 4]) ∧
    after (.inUse16 0) (inBlock (tablesAt .inUse16)) (fun t => t.dec.cause) = some (some .noSymbolsInUse) := by
  decide +kernel

/-- 95 §1.1: byte 41 from group 4. -/
theorem test_inUseWord :
    after (.inUseWord 0x4000) (inBlock { tablesAt .inUseWord with mapLeft := [4], seqToUnseq := [0x06] })
      (fun t => t.dec.scratch.map (fun sc => (sc.seqToUnseq, sc.pos))) =
      some (some ([0x06, 0x41], .nGroups)) := by decide +kernel

theorem test_nGroups :
    after (.nGroups 6) (inBlock (tablesAt .nGroups)) (fun t => t.dec.scratch.map (·.nGroups)) = some (some 6) ∧
    after (.nGroups 1) (inBlock (tablesAt .nGroups)) (fun t => t.dec.cause) = some (some .badGroupCount) := by
  decide +kernel

theorem test_nSelectors :
    after (.nSelectors 18002) (inBlock (tablesAt .nSelectors)) (fun t => t.dec.scratch.map (·.selList)) =
      some (some [0, 1]) ∧
    after (.nSelectors 18003) (inBlock (tablesAt .nSelectors)) (fun t => t.dec.cause) =
      some (some .badSelectorCount) := by decide +kernel

/-- 43_huffman R224: the second table moves to the front. -/
theorem test_selectorMtf_element :
    after (.selectorMtf 1) (inBlock { tablesAt .selector with selector := [] })
      (fun t => t.dec.scratch.map (fun sc => (sc.selector, sc.selList, sc.pos))) =
      some (some ([1], [1, 0], .lenStart)) := by decide +kernel

theorem test_lenStart :
    after (.lenStart 20) (inBlock (tablesAt .lenStart)) (fun t => t.dec.scratch.map (·.curr)) = some (some 20) ∧
    after (.lenStart 21) (inBlock (tablesAt .lenStart)) (fun t => t.dec.cause) = some (some .badCodeLength) := by
  decide +kernel

theorem test_lenInc :
    after .lenInc (inBlock { tablesAt .lenAdjust with curr := 19 }) (fun t => t.dec.scratch.map (·.curr)) =
      some (some 20) ∧
    after .lenInc (inBlock { tablesAt .lenAdjust with curr := 20 }) (fun t => t.dec.cause) =
      some (some .badCodeLength) := by decide +kernel

theorem test_lenDec :
    after .lenDec (inBlock { tablesAt .lenAdjust with curr := 2 }) (fun t => t.dec.scratch.map (·.curr)) =
      some (some 1) ∧
    after .lenDec (inBlock { tablesAt .lenAdjust with curr := 1 }) (fun t => t.dec.cause) =
      some (some .badCodeLength) := by decide +kernel

/-- The fourth length of the first of two tables. -/
theorem test_lenStop :
    after .lenStop (inBlock { tablesAt .lenAdjust with curr := 3, row := [2, 1, 3], tables := [] })
      (fun t => t.dec.scratch.map (fun sc => (sc.lens, sc.pos))) = some (some ([[2, 1, 3, 3]], .lenStart)) := by
  decide +kernel

/-- 95 §1.1: symbol 2 of `2 0 0 2 3` gives byte 41. -/
theorem test_huffSymbol :
    after (.huffSymbol 2) (inBlock (tablesAt .symbol))
      (fun t => t.dec.scratch.map (fun sc => (sc.out, sc.mtfList, sc.left))) =
      some (some ([0x41], [0x41, 0x06], 49)) := by decide +kernel

/-- 95 §1.1: EOB ends the block. -/
theorem test_huffSymbol_eob :
    after (.huffSymbol 3)
      (inBlock { tablesAt .symbol with out := [0x41, 0x41, 0x41, 0x41, 0x06], groupsUsed := 1, left := 46 })
      (fun t => (t.dec.state, t.dec.blk.map (·.p))) = some (.decodingBlock, some 3) := by decide +kernel

theorem test_eosMagic :
    after .eosMagic (readingIn .expectBlockHeader) (fun t => t.dec.state) = some .expectStreamTrailer := by decide

theorem test_combinedCrc :
    after (.combinedCrc 0) (readingIn .expectStreamTrailer) (fun t => (t.result, t.dec.state)) =
      some (0xFFFFFFFF, .done) ∧
    after (.combinedCrc 1) (readingIn .expectStreamTrailer) (fun t => t.dec.cause) =
      some (some .streamCrcMismatch) := by decide +kernel

theorem test_pad : exec (.pad 7) (readingIn .done) = .next (readingIn .done) := rfl

/-! ## The register window (10_state R22..R30) -/

theorem test_read_unmapped :
    (nextOf (step { State.reset with host := [{ offset := 0x40, bytes := 4, op := .read }] })).map (·.observed) =
      some [0] := by decide +kernel

theorem test_write_arg0 :
    (nextOf (step { State.reset with host := [{ offset := 0x08, bytes := 4, op := .write 5 }] })).map (·.arg0) =
      some 5 := by decide +kernel

theorem test_access_width :
    step { State.reset with host := [{ offset := 0x08, bytes := 2, op := .read }] } = .refused .accessWidth := rfl

/-! ## Witnesses: the hypotheses of each statement are met, at the limits of their ranges -/

theorem witness_reset_inv :
    State.reset.Inv := by decide

theorem witness_StepRunsTheCommandWritten :
    (pending 0x00000000 State.reset).reading = false ∧
      (pending 0x00000000 State.reset).host =
        { offset := 0x00, bytes := 4, op := .write 0x00000000 } :: [] ∧
      decodeCmd 0x00000000 = .ok .nop ∧ decodeCmd 0x02000000 = .error .illegalCommand := by decide

theorem witness_StepRunsTheElementFetched :
    (readingIn .expectStreamHeader).reading = true ∧
      (readingIn .expectStreamHeader).dec.state ≠ .decodingBlock ∧
      (∃ r, fetchElement (readingIn .expectStreamHeader).dec (withSource stream39 State.reset).br =
        some (.ok (.streamHeader 1), r)) ∧
      ∃ r, fetchElement (readingIn .expectStreamHeader).dec State.reset.br =
        some (.error .unexpectedEndOfInput, r) := ⟨rfl, by decide, ⟨_, rfl⟩, ⟨_, rfl⟩⟩

theorem witness_CommandWordsDecodeAndEncodeAgree :
    encodeCmd (.encWrite 0xFF) = some 0x31FF0000 ∧ encodeCmd .blockMagic = none := by decide

theorem witness_ElementsFetchBackFromTheirBits_stream :
    standsFor (readingIn .expectStreamHeader).dec (.streamHeader 15) ∧
      standsFor (readingIn .expectBlockHeader).dec .blockMagic ∧
      standsFor (readingIn .expectBlockHeader).dec .eosMagic ∧
      standsFor (readingIn .expectStreamTrailer).dec (.combinedCrc 0xFFFFFFFF) := ⟨rfl, ⟨rfl, rfl⟩, ⟨rfl, rfl⟩, rfl⟩

theorem witness_ElementsFetchBackFromTheirBits_block :
    standsFor (standing .blockCrc) (.blockCrc 0xFFFFFFFF) ∧ standsFor (standing .rand) (.rand true) ∧
      standsFor (standing .origPtr) (.origPtr 0xFFFFFF) ∧ standsFor (standing .inUse16) (.inUse16 0xFFFF) ∧
      standsFor (standing .inUseWord) (.inUseWord 0) ∧ standsFor (standing .nGroups) (.nGroups 7) ∧
      standsFor (standing .nSelectors) (.nSelectors 0x7FFF) ∧ standsFor (standing .selector) (.selectorMtf 1) ∧
      standsFor (standing .lenStart) (.lenStart 31) ∧ standsFor (standing .lenAdjust) .lenInc ∧
      standsFor (standing .lenAdjust) .lenDec ∧ standsFor (standing .lenAdjust) .lenStop := ⟨⟨rfl, _, rfl, rfl⟩, ⟨rfl, _, rfl, rfl⟩, ⟨rfl, _, rfl, rfl⟩, ⟨rfl, _, rfl, rfl⟩, ⟨rfl, _, rfl, rfl⟩,
    ⟨rfl, _, rfl, rfl⟩, ⟨rfl, _, rfl, rfl⟩, ⟨rfl, _, rfl, rfl, by decide⟩, ⟨rfl, _, rfl, rfl⟩,
    ⟨rfl, _, rfl, rfl⟩, ⟨rfl, _, rfl, rfl⟩, ⟨rfl, _, rfl, rfl⟩⟩

theorem witness_ElementsFetchBackFromTheirBits_bits :
    ({ Reader.reset with src := [0xC0] } : Reader).bits =
      encode noCodes .lenDec ++ [false, false, false, false, false, false] := by decide +kernel

/-- A first symbol of a group, a symbol inside one, and symbol 3 of lengths 2 2 2 2. -/
theorem witness_ElementsFetchBackFromTheirBits_symbol :
    (standing .symbol).state = .expectBlockHeader ∧ (standing .symbol).scratch = some (tablesAt .symbol) ∧
      (tablesAt .symbol).pos = .symbol ∧ inGroup (tablesAt .symbol) 0 ∧
      inGroup { tablesAt .symbol with groupsUsed := 1, left := 49 } 0 ∧ (tablesAt .symbol).selector[0]? = some 0 ∧
      (tablesAt .symbol).tables[0]? = some (buildDecTable [2, 2, 2, 2]) ∧
      (∀ l ∈ [2, 2, 2, 2], 1 ≤ l ∧ l ≤ 20) ∧ ([2, 2, 2, 2].map fun l => 2 ^ (20 - l)).sum ≤ 2 ^ 20 ∧
      ({ Reader.reset with src := [0xC0] } : Reader).bits =
        encode (bookOf [2, 2, 2, 2] (canonicalCodes [2, 2, 2, 2])) (.huffSymbol 3) ++
          [false, false, false, false, false, false] :=
  ⟨rfl, rfl, rfl, ⟨by decide, .inl ⟨rfl, rfl⟩⟩, ⟨by decide, .inr ⟨by decide, rfl⟩⟩, rfl, rfl, by decide, by decide,
    by decide +kernel⟩

/-- An alphabet of two symbols and one of 258. -/
theorem witness_CanonicalCodesDecodeBack_lengths :
    2 ≤ [1, 0].length ∧ [1, 0].length ≤ 258 ∧ (List.replicate 258 0).length = 258 := by
  refine ⟨by decide, by decide, List.length_replicate⟩

theorem witness_CanonicalCodesDecodeBack :
    (∀ l ∈ [2, 1, 3, 3], 1 ≤ l ∧ l ≤ 20) ∧ ([2, 1, 3, 3].map fun l => 2 ^ (20 - l)).sum ≤ 2 ^ 20 ∧
      3 < [2, 1, 3, 3].length ∧
      ({ Reader.reset with src := [0xE0] } : Reader).bits =
        encode (bookOf [2, 1, 3, 3] (canonicalCodes [2, 1, 3, 3])) (.huffSymbol 3) ++
          [false, false, false, false, false] := by decide +kernel

theorem witness_EveryStepKeepsTheInvariant :
    (pending 0x30010000 State.reset).Inv ∧ (∃ t, step (pending 0x30010000 State.reset) = .next t) ∧
      (readingIn .expectStreamHeader).Inv ∧ ∃ t, step (readingIn .expectStreamHeader) = .next t := ⟨by decide, ⟨_, rfl⟩, by decide, ⟨_, rfl⟩⟩

theorem witness_NoStepFaults :
    spent.Inv ∧ (inBlock (tablesAt .blockCrc)).reading = true := by decide +kernel

theorem witness_CommandsRunToCompletion :
    (pending 0x38000000 State.reset).Inv ∧ (pending 0x38000000 State.reset).reading = false ∧
      ∃ t, step (pending 0x38000000 State.reset) = .next t := ⟨by decide, rfl, ⟨_, rfl⟩⟩

theorem witness_SinkOnlyGrowsAndSourceNeverRewinds :
    ∃ t, step (pending 0x30010000 State.reset) = .next t := ⟨_, rfl⟩

theorem witness_WriteBitsAppendsMsbFirst :
    ({ acc := List.replicate 7 true, sink := [], count := 0 } : Writer).acc.length ≤ 7 := by decide

theorem witness_BwWriteBitsFollowsItsRule :
    State.reset.bw.acc.length ≤ 7 ∧ 32 < (33 : BitVec 8).toNat ∧ (32 : BitVec 8).toNat ≤ 32 ∧
      opened.enc.state = .opened ∧ State.reset.enc.state ≠ .opened ∧ opened.bw.acc.length ≤ 7 := by decide

theorem witness_BrReadBitsFollowsItsRule :
    (withSource [0xAB] State.reset).br.pos ≤ (withSource [0xAB] State.reset).br.src.length ∧
      (withSource [0xAB] State.reset).dec.state.busy = false ∧ (decoderIn .decodingBlock).dec.state.busy = true ∧
      (8 : BitVec 8).toNat ≤ (withSource [0xAB] State.reset).br.bits.length ∧
      (withSource [0xAB] State.reset).br.bits.length < (9 : BitVec 8).toNat ∧ (9 : BitVec 8).toNat ≤ 32 ∧
      32 < (33 : BitVec 8).toNat := by decide +kernel

theorem witness_RegisterWindowAccesses :
    ({ State.reset with host := [{ offset := 0x3C, bytes := 4, op := .read }] } : State).reading = false ∧
      0x3C % 4 = 0 ∧ (0x3E % 4 ≠ 0) ∧ (0x08 : Nat) ≠ 0x00 ∧ 0x40 ≤ 0x40 := by decide

theorem witness_NoCommandWritesArg0 :
    ∃ t, exec .crcValue State.reset = .next t ∧ Instr.crcValue ≠ .reset := ⟨_, rfl, by decide⟩

theorem witness_NoCommandWritesArg0_host :
    ({ State.reset with host := [{ offset := 0x08, bytes := 4, op := .write 7 }] } : State).reading = false := rfl

theorem witness_NopOnlyClearsLastCause :
    opField 0x00000001 = 0x00 ∧ zField 0x00000001 ≠ 0 ∧ opField 0x00010000 = 0x00 ∧ fField 0x00010000 ≠ 0 := by
  decide

theorem witness_PowerOnValues : ∃ t, exec .reset State.reset = .next t := ⟨_, rfl⟩

theorem witness_EveryCommandRecordsItsOutcome :
    State.reset.Inv ∧ State.reset.reading = false ∧ Instr.isCommand .encClose = true ∧
      ∃ t, exec .encClose State.reset = .next t ∧ t.lastCause = some .commandStateError := ⟨by decide, rfl, rfl, ⟨_, rfl, rfl⟩⟩

theorem witness_RefusedCommandsHaveNoEffect :
    (0 : BitVec 8).toNat < 1 ∧ 9 < (10 : BitVec 8).toNat ∧ State.reset.enc.state = .idle ∧
      State.reset.dec.state = .idle := by decide

theorem witness_FaultedStreamsReportAgain :
    (encFaulted .sortStackOverflow opened).enc.state = .faulted ∧
      (encFaulted .sortStackOverflow opened).enc.cause = some .sortStackOverflow ∧
      (decFaulted .badOrigPtr State.reset).dec.state = .faulted ∧
      (decFaulted .badOrigPtr State.reset).dec.cause = some .badOrigPtr := by decide

theorem witness_EncoderCommandsLeaveTheDecoderAlone :
    (∃ t, exec (.encInit 1) State.reset = .next t) ∧ (∃ t, exec (.encWrite 0) opened = .next t) ∧
      (∃ t, exec .encClose opened = .next t) ∧ (∃ t, exec (.bwWriteBits 1) State.reset = .next t) ∧
      ∃ t, exec .bwFinish State.reset = .next t := ⟨⟨_, rfl⟩, ⟨_, rfl⟩, ⟨_, rfl⟩, ⟨_, rfl⟩, ⟨_, rfl⟩⟩

theorem witness_DecoderCommandsLeaveTheEncoderAlone :
    (∃ t, exec .decInit State.reset = .next t) ∧ (∃ t, exec .decRead spent = .next t) ∧
      ∃ t, exec (.brReadBits 1) State.reset = .next t := ⟨⟨_, rfl⟩, ⟨_, rfl⟩, ⟨_, rfl⟩⟩

theorem witness_ElementsTouchOnlyTheDecoder :
    Instr.isCommand .lenStop = false ∧ ∃ t, exec .lenStop (inBlock (tablesAt .lenAdjust)) = .next t := ⟨rfl, ⟨_, rfl⟩⟩

theorem witness_LastColumnPermutesTheBlock :
    ([0x61] : List Byte) ≠ [] := by decide

theorem witness_ChainSlotsFollowTheCounts :
    ([0x6E, 0x6E, 0x62, 0x61, 0x61, 0x61] : List Byte)[5]? = some 0x61 := by decide

theorem witness_ChainWalkInvertsTheTransform :
    ([0x61] : List Byte) ≠ [] ∧ ([0x61] : List Byte) = lastColumn [0x61] (sortRotations [0x61]) := by
  decide +kernel

/-- The first entry of RNUMS is 619: position 617 is flipped, 616 is not. -/
theorem witness_WalkIsUnmasked :
    spentBlock.rNToGo = 0 ∧ spentBlock.rTPos = 0 ∧ 617 + 2 = countdown (0 + 1) ∧ ∀ k, 616 + 2 ≠ countdown (k + 1) := by
  refine ⟨by decide, by decide, by decide +kernel, fun k h => ?_⟩
  have h0 : countdown (k + 1) = 619 + ((List.range k).map fun j => rnums.getD ((j + 1) % 512) 0).sum := by
    unfold countdown
    rw [List.range_succ_eq_map, List.map_cons, List.sum_cons, List.map_map]
    rfl
  omega

theorem witness_RunDigitsDecodeToTheRun :
    1 ≤ 1 ∧ DecScratch.start.run = none := by decide

theorem witness_MtfInverseGivesTheSequence :
    ([0x06, 0x41] : List Byte).Nodup ∧ (∀ c ∈ ([0x41, 0x41, 0x06] : List Byte), c ∈ ([0x06, 0x41] : List Byte)) ∧
      (tablesAt .symbol).mtfList = [0x06, 0x41] ∧ (tablesAt .symbol).run = none := by decide

/-- The block `41 41 41 41 06` of 95 §1.1, a run of ten. -/
theorem witness_RunLengthInverseGivesTheRawBytes :
    segmented [((0x41 : Byte), 10)] ∧ (startedBlock).Ok 9 ∧
      walkRaw false 5 (startedBlock) = runBytes 0x41 10 ∧
      (startedBlock).prev = none :=
  ⟨⟨by decide, by decide⟩, by decide +kernel, by decide +kernel, rfl⟩

/-- A run of 255 and another of the same byte, and a run of another byte. -/
theorem witness_segmented : segmented [((0x41 : Byte), 255), (0x41, 4), (0x42, 1)] :=
  ⟨by decide, .inr rfl, by decide, .inl (by decide), by decide, by decide⟩

theorem witness_SelectorMtfInverts :
    ∀ t ∈ [0, 0, 1, 1, 2, 0, 5, 5], t < 6 := by decide

theorem witness_EncInitOpensAStream :
    1 ≤ (1 : BitVec 8).toNat ∧ (9 : BitVec 8).toNat ≤ 9 := by decide

theorem witness_EncWriteBuffersTheByte :
    (running 0x41 253 []).enc.state = .opened ∧ (running 0x41 253 []).enc.cur = some 0x41 ∧
      (running 0x41 253 []).enc.run < 254 ∧ opened.enc.cur = none ∧ opened.enc.state = .opened ∧
      (0x41 : Byte) ≠ 0x42 ∧
      (running 0x41 254 []).enc.block.length + (runBytes 0x41 254).length ≤
        100000 * (running 0x41 254 []).enc.k - 20 := by decide +kernel

/-- A block of CAP_ENC bytes, and a run that no longer fits, of another byte and of the same one. -/
theorem witness_EncWriteClosesAFullBlock :
    (running 0x41 254 (List.replicate 99980 0)).enc.cur = some 0x41 ∧
      100000 * (running 0x41 254 (List.replicate 99980 0)).enc.k - 20 <
        (running 0x41 254 (List.replicate 99980 0)).enc.block.length + (runBytes 0x41 254).length ∧
      100000 * (running 0x41 254 (List.replicate 99980 0)).enc.k - 20 <
        (running 0x41 254 (List.replicate 99980 0)).enc.block.length + (runBytes 0x41 255).length ∧
      (running 0x41 254 (List.replicate 99980 0)).enc.block ∉
        (running 0x41 254 (List.replicate 99980 0)).sortFaults := by
  have h : (running 0x41 254 (List.replicate 99980 0)).enc.block.length = 99980 := List.length_replicate
  refine ⟨rfl, ?_, ?_, List.not_mem_nil⟩ <;> rw [h] <;> decide

theorem witness_SortFaultFaultsTheEncoder :
    ({ running 0x41 1 (List.replicate 99980 0) with sortFaults := [List.replicate 99980 0] } : State).enc.block ∈
      ({ running 0x41 1 (List.replicate 99980 0) with sortFaults := [List.replicate 99980 0] } : State).sortFaults ∧
      100000 * 1 - 20 < (List.replicate 99980 (0 : Byte)).length + (runBytes 0x41 1).length := by
  refine ⟨List.mem_singleton.2 rfl, ?_⟩
  rw [List.length_replicate]
  decide

/-- The 255th equal byte with no room for its five bytes. -/
theorem witness_SortFaultFaultsTheEncoder_write :
    (running 0x41 254 (List.replicate 99976 0)).enc.cur = some 0x41 ∧
      (running 0x41 254 (List.replicate 99976 0)).enc.run = 254 ∧
      100000 * 1 - 20 < (List.replicate 99976 (0 : Byte)).length + 5 := by
  refine ⟨rfl, rfl, ?_⟩
  rw [List.length_replicate]
  decide

/-- ENC_CLOSE: a run that fits, no run, and a run that does not fit in a block that is emitted. -/
theorem witness_SortFaultFaultsTheEncoder_close :
    opened.enc.block.length + (runBytes 0x41 10).length ≤ 100000 * opened.enc.k - 20 ∧
      [0x41, 0x41, 0x41, 0x41, 0x06] = opened.enc.block ++ runBytes 0x41 10 ∧ opened.enc.cur = none ∧
      ({ opened.enc with block := [0x41] } : Encoder).block ≠ [] ∧
      List.replicate 99980 (0 : Byte) ∉ [runBytes 0x41 10] ∧ runBytes 0x41 10 ∈ [runBytes 0x41 10] := by
  refine ⟨by decide, by decide, rfl, by decide, fun h => ?_, List.mem_singleton.2 rfl⟩
  have hl := congrArg List.length (List.mem_singleton.1 h)
  rw [List.length_replicate] at hl
  exact absurd hl (by decide)

theorem witness_EncCloseFinishesTheStream :
    (running 0x41 10 []).enc.state = .opened ∧ (running 0x41 10 []).enc.Ok ∧ (running 0x41 10 []).bw.Ok ∧
      (∀ x ∈ closing (running 0x41 10 []).enc, x.2 ∉ (running 0x41 10 []).sortFaults) ∧
      (closing (running 0x41 10 []).enc).length = 1 ∧ closing opened.enc = [] ∧ opened.enc.Ok := by decide +kernel

theorem witness_DecReadServesTheBlock_byte :
    ∃ b', spent.dec.state = .decodingBlock ∧ spent.dec.scratch = none ∧
      nextByte false (startedBlock) = some { byte := some 0x41, blk := b' } := ⟨_, rfl, rfl, rfl⟩

theorem witness_DecReadServesTheBlock_end :
    spent.dec.blk = some spentBlock ∧ nextByte spent.dec.rand spentBlock = some { byte := none, blk := spentBlock } ∧
      spent.dec.crc ^^^ 0xFFFFFFFF = spent.dec.stored ∧
      spent.br.bits = bitsOf 48 0x177245385090 ++ bitsOf 32 0xA2F84F0E ++ [] ∧
      (closedBlock spent.dec).comb = 0xA2F84F0E ∧
      ({ spent with dec := { spent.dec with stored := 0 } } : State).dec.crc ^^^ 0xFFFFFFFF ≠ 0 := by decide +kernel

/-- After a good block: another block's magic, a value that is no magic, fewer than 48 bits, and a trailer cut short. -/
theorem witness_DecReadServesTheBlock_next :
    ({ Reader.reset with src := [0x31, 0x41, 0x59, 0x26, 0x53, 0x59] } : Reader).bits =
        bitsOf 48 0x314159265359 ++ [] ∧
      ({ Reader.reset with src := [0, 0, 0, 0, 0, 0] } : Reader).bits = bitsOf 48 (0 : BitVec 48).toNat ++ [] ∧
      ({ Reader.reset with src := [0, 0, 0, 0, 0] } : Reader).bits.length < 48 ∧
      ({ Reader.reset with src := [0x17, 0x72, 0x45, 0x38, 0x50, 0x90] } : Reader).bits =
        bitsOf 48 0x177245385090 ++ [] ∧
      spent.br.pos ≤ spent.br.src.length := by decide +kernel

theorem witness_DecReadServesTheBlock_turns :
    spent.Inv ∧ spent.reading = false ∧ spent.dec.state = .decodingBlock ∧
      (decoderIn .expectStreamHeader).Inv ∧ (decoderIn .expectStreamHeader).reading = false :=
  ⟨by decide +kernel, rfl, rfl, by decide +kernel, rfl⟩

theorem witness_DecReadAlwaysEnds :
    spent.Inv ∧ spent.reading = false := by decide +kernel

theorem witness_HeadersAreCheckedAsTheyAreRead :
    ({ Reader.reset with src := [0x43] } : Reader).bits = bitsOf 8 0x43 ++ [] ∧
      ({ Reader.reset with src := [0x42, 0x5B] } : Reader).bits = bitsOf 16 (0x4200 + 0x5B) ++ [] ∧
      ({ Reader.reset with src := [0x42, 0x5A, 0x67] } : Reader).bits = bitsOf 24 (0x425A00 + 0x67) ++ [] ∧
      ({ Reader.reset with src := [0x42, 0x5A, 0x68, 0x40] } : Reader).bits = bitsOf 32 (0x425A6800 + 0x40) ++ [] ∧
      ({ Reader.reset with src := [0, 0, 0, 0, 0, 0] } : Reader).bits = bitsOf 48 0 ++ [] := by decide +kernel

theorem witness_StreamElementsFollowTheirRules :
    (readingIn .expectStreamHeader).reading = true ∧ (readingIn .expectStreamHeader).dec.scratch = none ∧
      (1 ≤ (9 : BitVec 4).toNat ∧ (9 : BitVec 4).toNat ≤ 9) ∧ 9 < (10 : BitVec 4).toNat ∧
      (readingIn .expectStreamTrailer).dec.comb = 0 := by decide

theorem witness_places :
    standsAt .blockCrc (tablesAt .blockCrc) (inBlock (tablesAt .blockCrc)) ∧
      standsAt .rand (tablesAt .rand) (inBlock (tablesAt .rand)) ∧
      standsAt .origPtr (tablesAt .origPtr) (inBlock (tablesAt .origPtr)) ∧
      standsAt .inUse16 (tablesAt .inUse16) (inBlock (tablesAt .inUse16)) ∧
      standsAt .nGroups (tablesAt .nGroups) (inBlock (tablesAt .nGroups)) ∧
      standsAt .nSelectors (tablesAt .nSelectors) (inBlock (tablesAt .nSelectors)) ∧
      standsAt .selector (tablesAt .selector) (inBlock (tablesAt .selector)) ∧
      standsAt .lenStart (tablesAt .lenStart) (inBlock (tablesAt .lenStart)) ∧
      standsAt .symbol (tablesAt .symbol) (inBlock (tablesAt .symbol)) := ⟨⟨rfl, rfl, rfl, rfl⟩, ⟨rfl, rfl, rfl, rfl⟩, ⟨rfl, rfl, rfl, rfl⟩, ⟨rfl, rfl, rfl, rfl⟩, ⟨rfl, rfl, rfl, rfl⟩,
    ⟨rfl, rfl, rfl, rfl⟩, ⟨rfl, rfl, rfl, rfl⟩, ⟨rfl, rfl, rfl, rfl⟩, ⟨rfl, rfl, rfl, rfl⟩⟩

/-- INUSE_WORD: a word with more to come, a last word with bytes in use, a last word with none. -/
theorem witness_MappingElementsFollowTheirRule :
    standsAt .inUseWord { tablesAt .inUseWord with mapLeft := [0, 4] }
        (inBlock { tablesAt .inUseWord with mapLeft := [0, 4] }) ∧
      standsAt .inUseWord { tablesAt .inUseWord with mapLeft := [15], seqToUnseq := [] }
        (inBlock { tablesAt .inUseWord with mapLeft := [15], seqToUnseq := [] }) ∧
      ((List.range 16).filter fun j => (0 : BitVec 16).getLsbD (15 - j)) = [] ∧
      ((List.range 16).filter fun j => (1 : BitVec 16).getLsbD (15 - j)) = [15] :=
  ⟨⟨rfl, rfl, rfl, rfl⟩, ⟨rfl, rfl, rfl, rfl⟩, by decide, by decide⟩

theorem witness_LengthElementsFollowTheirRules :
    standsAt .lenAdjust { tablesAt .lenAdjust with curr := 20, row := [2, 1, 3] }
        (inBlock { tablesAt .lenAdjust with curr := 20, row := [2, 1, 3] }) ∧
      (tablesAt .lenAdjust).seqToUnseq.length + 2 = [2, 1, 3].length + 1 ∧ 1 ≤ 20 :=
  ⟨⟨rfl, rfl, rfl, rfl⟩, by decide, by decide⟩

/-- HUFF_SYMBOL: the tables have in-use bytes, a selector is left or none is, and the limits of CAP_DEC. -/
theorem witness_SymbolElementsFollowTheirRules :
    (tablesAt .symbol).seqToUnseq ≠ [] ∧ (tablesAt .symbol).left = 0 ∧
      (tablesAt .symbol).groupsUsed < (tablesAt .symbol).nSelectors ∧
      ({ tablesAt .symbol with groupsUsed := 1 } : DecScratch).nSelectors ≤
        ({ tablesAt .symbol with groupsUsed := 1 } : DecScratch).groupsUsed ∧
      (flushed { tablesAt .symbol with run := some 99999 }).length + 1 ≤ 100000 * 1 ∧
      100000 * 1 < (flushed { tablesAt .symbol with run := some 100000 }).length + 1 ∧
      (flushed (tablesAt .symbol)).length ≤ (tablesAt .symbol).origPtr ∧
      (tablesAt .symbol).origPtr < (flushed { tablesAt .symbol with run := some 5 }).length := by
  have h : ∀ n, (flushed { tablesAt .symbol with run := some n }).length = n := fun n => by
    unfold flushed
    rw [List.length_append, List.length_replicate]
    exact Nat.zero_add n
  exact ⟨by decide, rfl, by decide, by decide, by rw [h], by rw [h]; decide, by decide, by decide⟩

/-- HUFF_SYMBOL: a symbol whose group's selector names the second of two tables. -/
theorem witness_SymbolElementsFollowTheirRules_fetch :
    inGroup { tablesAt .symbol with selector := [1] } 0 ∧
      ({ tablesAt .symbol with selector := [1] } : DecScratch).selector[0]? = some 1 ∧
      ({ tablesAt .symbol with selector := [1] } : DecScratch).tables[1]? = some (buildDecTable [2, 2, 2, 2]) :=
  ⟨⟨by decide, .inl ⟨rfl, rfl⟩⟩, rfl, rfl⟩

theorem witness_ElementsStopOutOfPlace :
    Instr.isCommand .blockMagic = false ∧ (∀ z, Instr.blockMagic ≠ .pad z) ∧ State.reset.reading = false :=
  ⟨rfl, fun z h => (by cases h), rfl⟩

end Sys2Proof.Tests
end

section
/-! SUPPORT. What every command does from a state between commands that meets the invariant: it completes in a
next state between commands, which meets the invariant again and records how the command ended. -/

namespace Sys2Proof.Machine

/-! ## How a command ends -/

/-- The state a command leaves (10_state R23, R26, 60_exceptions R343): in order, between commands, and either
without a cause or with a cause and its RESULT. -/
structure CommandEnd (t : State) : Prop where
  inv : t.Inv
  reading : t.reading = false
  outcome : t.lastCause = none ∨ (∃ c, t.lastCause = some c) ∧ t.result = causeResult

/-- The command gives a next state, and that state is one a command ends in. -/
def Completes (o : Host.Outcome State Fault Refusal) : Prop := ∃ t, o = .next t ∧ CommandEnd t

theorem succeed_completes {s : State} (h : s.Inv) (hr : s.reading = false) : Completes (.next (succeed s)) :=
  ⟨_, rfl, h, hr, .inl rfl⟩

theorem recordCause_completes {s : State} (c : Cause) (h : s.Inv) (hr : s.reading = false) :
    Completes (.next (recordCause (some c) s)) :=
  ⟨_, rfl, h, hr, .inr ⟨⟨c, rfl⟩, rfl⟩⟩

theorem reject_completes {s : State} (c : Cause) (h : s.Inv) (hr : s.reading = false) : Completes (reject c s) :=
  recordCause_completes c h hr

/-! ## The parts of the invariant a command touches -/

theorem State.Inv.bw {s : State} (h : s.Inv) : s.bw.Ok := h.1

theorem State.Inv.br {s : State} (h : s.Inv) : s.br.Ok := h.2.1

theorem State.Inv.enc {s : State} (h : s.Inv) : s.enc.Ok := h.2.2.1

theorem State.Inv.dec {s : State} (h : s.Inv) : s.dec.Ok s.reading := h.2.2.2

theorem inv_of_writer {s : State} {w : Writer} (h : s.Inv) (hw : w.Ok) : ({ s with bw := w } : State).Inv :=
  ⟨hw, h.2⟩

theorem inv_of_reader {s : State} {r : Reader} (h : s.Inv) (hr : r.Ok) : ({ s with br := r } : State).Inv :=
  ⟨h.1, hr, h.2.2⟩

theorem fresh_ok {k : Nat} (h1 : 1 ≤ k) (h9 : k ≤ 9) : (Encoder.fresh k).Ok := by
  simp [Encoder.Ok, Encoder.fresh, Encoder.reset, h1, h9]

/-- The decoder right after DEC_INIT (45 R281). -/
theorem openedDecoder_ok : ({ Decoder.reset with state := .expectStreamHeader } : Decoder).Ok false := by
  decide

theorem resetCore_inv {s : State} (h : s.Inv) : (resetCore s).Inv := by
  obtain ⟨-, hpos⟩ := h.br
  exact ⟨Nat.zero_le _, ⟨Nat.zero_le _, hpos⟩, show Encoder.reset.Ok by decide, show Decoder.reset.Ok false by decide⟩

/-! ### The encoder inside a command, and at its end -/

/-- Between commands, an Open encoder is one its procedures can start from, with a run short of 255. -/
theorem Encoder.Ok.mid {e : Encoder} (h : e.Ok) (hst : e.state = .opened) : EncMid e ∧ e.run ≤ 254 := by
  obtain ⟨k9, k1, hcur, hrun, hopen, hblock, -, hcause, hscratch⟩ := h
  refine ⟨⟨k9, k1 (by simp [hst, EncState.started]), hcur, hrun, hblock, ?_, hscratch, hst⟩, hopen hst⟩
  simpa [hst] using hcause

theorem EncMid.ok {e : Encoder} (h : EncMid e) (hr : e.run ≤ 254) : e.Ok :=
  ⟨h.k9, fun _ => h.k1, h.cur, h.run, fun _ => hr, h.block, fun hst => absurd h.st hst.1, by simp [h.st, h.cause],
    h.scratch⟩

/-- The encoder after a fault is in order (44 R258). -/
theorem EncMid.faulted_ok {e : Encoder} (h : EncMid e) :
    ({ e with state := .faulted, cause := some .sortStackOverflow, scratch := none } : Encoder).Ok :=
  ⟨h.k9, fun _ => h.k1, h.cur, h.run, by simp, h.block, by simp, by simp, rfl⟩

/-- An encoder whose run and block are flushed is in order when it closes (44 R256). -/
theorem EncMid.closed_ok {e : Encoder} (h : EncMid { e with state := .opened }) (hst : e.state = .closed)
    (hcur : e.cur = none) (hblock : e.block = []) : e.Ok := by
  obtain ⟨k9, k1, hrun, hle, hlen, hcause, hscratch, -⟩ := h
  exact ⟨k9, fun _ => k1, hrun, hle, by simp [hst], hlen, fun _ => ⟨hcur, hblock⟩, by simpa [hst] using hcause, hscratch⟩

/-- What the encoder's procedures keep of the invariant, where the encoder they leave is in order. -/
theorem EncKeeps.inv {s t : State} (h : EncKeeps s t) (hs : s.Inv) (ht : t.enc.Ok) : t.Inv := by
  exact ⟨h.ok hs.bw, h.br ▸ hs.br, ht, by rw [h.dec, h.reading]; exact hs.dec⟩

theorem finishEnc_raised_completes {s t : State} (h : s.Inv) (hr : s.reading = false) (hk : EncKeeps s t)
    (hm : EncMid t.enc) : Completes (finishEnc (.raised .sortStackOverflow t)) :=
  recordCause_completes _ (EncKeeps.inv (t := { t with enc := _ }) { hk with } h hm.faulted_ok) (hk.reading.trans hr)

/-- In Faulted, a command of the encoder reports the sticky cause again (44 R258). -/
theorem encSticky_completes {s : State} (h : s.Inv) (hr : s.reading = false) (hst : s.enc.state = .faulted) :
    Completes (.next (recordCause s.enc.cause s)) := by
  obtain ⟨-, -, -, -, -, -, -, hcause, -⟩ := h.enc
  rw [if_pos hst] at hcause
  rw [hcause]
  exact recordCause_completes _ h hr

/-! ## The commands, one by one -/

theorem execBwWriteBits_completes {s : State} (n : BitVec 8) (h : s.Inv) (hr : s.reading = false) :
    Completes (execBwWriteBits n s) := by
  unfold execBwWriteBits
  split
  · exact reject_completes _ h hr
  split
  · exact reject_completes _ h hr
  · exact succeed_completes (inv_of_writer h (writeBitList_acc_le _ _ h.bw)) hr

theorem execBwFinish_completes {s : State} (h : s.Inv) (hr : s.reading = false) : Completes (execBwFinish s) := by
  unfold execBwFinish
  split
  · exact reject_completes _ h hr
  · exact succeed_completes (inv_of_writer h ((writeFinish_facts _).2 h.bw)) hr

theorem execBrReadBits_completes {s : State} (n : BitVec 8) (h : s.Inv) (hr : s.reading = false) :
    Completes (execBrReadBits n s) := by
  unfold execBrReadBits
  split
  · exact reject_completes _ h hr
  next hn =>
  split
  · exact reject_completes _ h hr
  have hpast := readBits_past (n := n.toNat) (by omega) s.br
  rcases hread : readBits n.toNat s.br with ⟨c | v, r⟩ <;> rw [hread] at hpast <;>
    have hinv := inv_of_reader h (hpast.ok h.br)
  · exact recordCause_completes c hinv hr
  · exact succeed_completes (s := setResult _ { s with br := r }) hinv hr

theorem execEncInit_completes {s : State} (k : BitVec 8) (h : s.Inv) (hr : s.reading = false) :
    Completes (execEncInit k s) := by
  unfold execEncInit
  split
  · exact reject_completes _ h hr
  · next hk =>
    exact succeed_completes
      ⟨writeBitList_acc_le _ _ (Nat.zero_le _), h.br, fresh_ok (by omega) (by omega), h.dec⟩ hr

theorem execEncWrite_completes {s : State} (b : Byte) (h : s.Inv) (hr : s.reading = false) :
    Completes (execEncWrite b s) := by
  unfold execEncWrite
  cases hst : s.enc.state with
  | faulted => exact encSticky_completes h hr hst
  | idle => exact reject_completes _ h hr
  | closed => exact reject_completes _ h hr
  | opened =>
    obtain ⟨hm, hle⟩ := h.enc.mid hst
    obtain ⟨hrun, hshort⟩ := writeRaw_run b hm hle
    rcases hw : writeRaw b s with ⟨_, t⟩ | ⟨c, t⟩ | f <;> rw [hw] at hrun
    · obtain ⟨hk, hm'⟩ := hrun
      exact succeed_completes (hk.inv h (hm'.ok (hshort t hw))) (hk.reading.trans hr)
    · obtain ⟨rfl, hk, hm'⟩ := hrun
      exact finishEnc_raised_completes h hr hk hm'
    · exact hrun.elim

theorem execEncClose_completes {s : State} (h : s.Inv) (hr : s.reading = false) : Completes (execEncClose s) := by
  unfold execEncClose
  cases hst : s.enc.state with
  | faulted => exact encSticky_completes h hr hst
  | idle => exact reject_completes _ h hr
  | closed => exact succeed_completes h hr
  | opened =>
    have hrun := closeStream_run (h.enc.mid hst).1
    rcases hc : closeStream s with ⟨_, t⟩ | ⟨c, t⟩ | f <;> rw [hc] at hrun
    · obtain ⟨hk, hclosed, hcur, hblock, hm⟩ := hrun
      exact succeed_completes (hk.inv h (hm.closed_ok hclosed hcur hblock)) (hk.reading.trans hr)
    · obtain ⟨rfl, hk, hm⟩ := hrun
      exact finishEnc_raised_completes h hr hk hm
    · exact hrun.elim

theorem execDecInit_completes {s : State} (h : s.Inv) (hr : s.reading = false) : Completes (execDecInit s) := by
  obtain ⟨-, hpos⟩ := h.br
  exact succeed_completes ⟨h.bw, ⟨Nat.zero_le _, hpos⟩, h.enc, by rw [hr]; exact openedDecoder_ok⟩ hr

/-- A DEC_READ on a stream in progress runs its loop to the end (45 R282). -/
theorem readStream_completes {s : State} (h : s.Inv)
    (hst : s.dec.state = .expectStreamHeader ∨ s.dec.state = .decodingBlock) :
    Completes (readLoop (readBound s.br) { s with reading := true }) := by
  obtain ⟨t, ht, hinv, -, hend, hout⟩ := readStream_spec h hst
  refine ⟨t, ht, hinv, hend, ?_⟩
  rcases hout with ⟨hc, -⟩ | ⟨hc, -⟩ | ⟨c, -, hc, hres, -⟩
  · exact .inl hc
  · exact .inl hc
  · exact .inr ⟨⟨c, hc⟩, hres⟩

theorem execDecRead_completes {s : State} (h : s.Inv) (hr : s.reading = false) : Completes (execDecRead s) := by
  obtain ⟨⟨hheld, -⟩, -, -, -, hcause, -⟩ := h.dec
  unfold execDecRead
  cases hst : s.dec.state with
  | idle => exact reject_completes _ h hr
  | faulted =>
    obtain ⟨c, hc⟩ := Option.isSome_iff_exists.1 (hcause.1 hst)
    rw [hc]
    exact recordCause_completes c h hr
  | done => exact succeed_completes (s := setResult endResult s) h hr
  | expectStreamHeader => exact readStream_completes h (.inl hst)
  | decodingBlock => exact readStream_completes h (.inr hst)
  | expectBlockHeader | expectStreamTrailer =>
    have := hheld hr
    rw [hst] at this
    cases this

/-- From a state between commands that meets the invariant, every command completes (10_state R23). -/
theorem exec_completes {i : Instr} {s : State} (hi : i.isCommand = true) (h : s.Inv) (hr : s.reading = false) :
    Completes (exec i s) := by
  cases i with
  | nop => exact succeed_completes h hr
  | reset => exact ⟨_, rfl, resetCore_inv h, rfl, .inl rfl⟩
  | bwWriteBits n => exact execBwWriteBits_completes n h hr
  | bwFinish => exact execBwFinish_completes h hr
  | brReadBits n => exact execBrReadBits_completes n h hr
  | crcReset | crcUpdate | crcCombReset => exact succeed_completes (s := { s with crcx := _ }) h hr
  | crcValue => exact succeed_completes (s := setResult _ s) h hr
  | crcCombine => exact succeed_completes (s := setResult _ { s with crcx := _ }) h hr
  | encInit k => exact execEncInit_completes k h hr
  | encWrite b => exact execEncWrite_completes b h hr
  | encClose => exact execEncClose_completes h hr
  | decInit => exact execDecInit_completes h hr
  | decRead => exact execDecRead_completes h hr
  | _ => cases hi

end Sys2Proof.Machine
end

section
/-! SUPPORT. What a step can do from a state that meets the invariant: serve the host's next access, or take one turn
of a DEC_READ in progress. -/

namespace Sys2Proof.Machine

theorem plainCommand_ok {i j : Instr} {w : Word} (h : plainCommand j w = .ok i) : i = j := by
  unfold plainCommand at h
  split at h
  · split at h
    · cases h; rfl
    · cases h
  · cases h

theorem operandCommand_ok {i : Instr} {j : BitVec 8 → Instr} {w : Word} (h : operandCommand j w = .ok i) :
    i = j (fField w) := by
  unfold operandCommand at h
  split at h
  · cases h; rfl
  · cases h

/-- A word that decodes is a command, never a wire element (30_encoding R101). -/
theorem decodeCmd_isCommand {w : Word} {i : Instr} (h : decodeCmd w = .ok i) : i.isCommand = true := by
  unfold decodeCmd at h
  split at h
  any_goals (rw [plainCommand_ok h]; rfl)
  any_goals (rw [operandCommand_ok h]; rfl)
  cases h

theorem runCommand_completes {s : State} (w : Word) (h : s.Inv) (hr : s.reading = false) :
    Completes (runCommand w s) := by
  unfold runCommand
  cases hd : decodeCmd w with
  | ok i => exact exec_completes (decodeCmd_isCommand hd) h hr
  | error c => exact reject_completes c h hr

/-- The step gives a next state that is in order, and between commands if it started there. -/
def StepsOn (s : State) (o : Host.Outcome State Fault Refusal) : Prop :=
  ∃ t, o = .next t ∧ t.Inv ∧ (s.reading = false → t.reading = false)

theorem Completes.stepsOn {s : State} {o : Host.Outcome State Fault Refusal} (h : Completes o) : StepsOn s o := by
  obtain ⟨t, ht, hend⟩ := h
  exact ⟨t, ht, hend.inv, fun _ => hend.reading⟩

theorem writeOffset_stepsOn {s : State} (off : Nat) (v : Word) (h : s.Inv) (hr : s.reading = false) :
    StepsOn s (writeOffset off v s) := by
  unfold writeOffset
  split
  · exact (runCommand_completes v h hr).stepsOn
  · exact ⟨_, rfl, h, fun _ => hr⟩
  · exact ⟨_, rfl, h, fun _ => hr⟩

/-- An aligned access is served (10_state R30). -/
theorem hostAccess_stepsOn {s : State} {a : HostAccess} (ha : a.Aligned) (h : s.Inv) (hr : s.reading = false) :
    StepsOn s (hostAccess a s) := by
  unfold hostAccess
  rw [if_pos ha]
  cases a.op with
  | read => exact ⟨_, rfl, h, fun _ => hr⟩
  | write v => exact writeOffset_stepsOn a.offset v h hr

/-- Any other access is refused (10_state R30, 93 Part 1 row 8). -/
theorem hostAccess_unaligned {s : State} {a : HostAccess} (ha : ¬ a.Aligned) :
    hostAccess a s = .refused .accessWidth := if_neg ha

/-- From a state that meets the invariant, a step goes on to a state in order, or refuses the host's next access
because that is not an aligned word. -/
theorem step_spec {s : State} (h : s.Inv) :
    StepsOn s (step s) ∨ step s = .refused .accessWidth ∧ ∃ a rest, s.host = a :: rest ∧ ¬ a.Aligned := by
  unfold step
  cases hr : s.reading with
  | true =>
    obtain ⟨t, ht, hinv, -⟩ := readStep_spec h hr
    exact .inl ⟨t, ht, hinv, fun hc => by simp [hr] at hc⟩
  | false =>
    rw [if_neg (by simp)]
    unfold hostStep
    cases hh : s.host with
    | nil => exact .inl ⟨s, rfl, h, id⟩
    | cons a rest =>
      by_cases ha : a.Aligned
      · exact .inl (hostAccess_stepsOn (s := { s with host := rest }) ha h hr)
      · exact .inr ⟨hostAccess_unaligned ha, a, rest, rfl, ha⟩

/-- Where the step gives a next state, that state is in order, and between commands if the step started there. -/
theorem step_next_spec {s t : State} (h : s.Inv) (ht : step s = .next t) :
    t.Inv ∧ (s.reading = false → t.reading = false) := by
  rcases step_spec h with ⟨u, hu, hinv, hread⟩ | ⟨href, -⟩
  · rw [hu] at ht
    cases ht
    exact ⟨hinv, hread⟩
  · rw [href] at ht
    cases ht

/-- Settles O10: every command completes in order, and so does every turn of DEC_READ. -/
theorem everyStepKeepsTheInvariant : Obligations.EveryStepKeepsTheInvariant :=
  fun _ _ h ht => (step_next_spec h ht).1

/-- Settles O11: from a state in order the step goes on, or refuses an access that is not an aligned word. -/
theorem noStepFaults : Obligations.NoStepFaults := by
  intro s h
  rcases step_spec h with ⟨t, ht, -⟩ | ⟨href, hacc⟩
  · rw [ht]; trivial
  · rw [href]; exact ⟨rfl, hacc⟩

/-- Settles O12: the next state is in order with no DEC_READ in progress, and in such a state the decoder is in none of
the states inside DEC_READ and no scratch is alive. -/
theorem commandsRunToCompletion : Obligations.CommandsRunToCompletion := by
  intro s t h hr ht
  obtain ⟨hinv, hread⟩ := step_next_spec h ht
  obtain ⟨-, -, -, -, -, -, -, -, hencScratch⟩ := hinv.enc
  obtain ⟨⟨hheld, -⟩, -, -, ⟨hscratch, -⟩, -⟩ := hinv.dec
  have hheld := hheld (hread hr)
  have hblock : t.dec.state ≠ .expectBlockHeader := by intro hc; rw [hc] at hheld; cases hheld
  have htrailer : t.dec.state ≠ .expectStreamTrailer := by intro hc; rw [hc] at hheld; cases hheld
  refine ⟨hread hr, hblock, htrailer, hencScratch, ?_⟩
  exact Option.eq_none_iff_forall_ne_some.2 fun sc hsc => hblock (hscratch (by simp [hsc]))

/-- Settles O28: a command completes, and what it completes in records its outcome. -/
theorem everyCommandRecordsItsOutcome : Obligations.EveryCommandRecordsItsOutcome := by
  intro i s t h hr hi ht
  obtain ⟨u, hu, hend⟩ := exec_completes hi h hr
  rw [hu] at ht
  cases ht
  exact hend.outcome

end Sys2Proof.Machine
end

section
/-! SUPPORT. Frames, in every state: what the encoder's commands, the decoder's commands and the wire elements leave
unchanged (10_state R21, 60_exceptions R347). The frame relations are the statements' own, `onlyEncoder` and
`onlyDecoder`. -/

open Sys2Proof.Claims

namespace Sys2Proof.Machine

/-! ## The encoder's side -/

theorem onlyEncoder_refl (s : State) : onlyEncoder s s := ⟨rfl, rfl, rfl, rfl, rfl, rfl, rfl, rfl⟩

theorem onlyEncoder_trans {a b c : State} (h : onlyEncoder a b) (k : onlyEncoder b c) : onlyEncoder a c := by
  obtain ⟨h1, h2, h3, h4, h5, h6, h7, h8⟩ := h
  obtain ⟨k1, k2, k3, k4, k5, k6, k7, k8⟩ := k
  exact ⟨k1.trans h1, k2.trans h2, k3.trans h3, k4.trans h4, k5.trans h5, k6.trans h6, k7.trans h7, k8.trans h8⟩

/-- A new writer and encoder, an outcome recorded: that is all a command of the encoder does. -/
theorem onlyEncoder_update (s : State) (w : Writer) (e : Encoder) (r : Word) (c : Option Cause) :
    onlyEncoder s { s with bw := w, enc := e, result := r, lastCause := c } :=
  ⟨rfl, rfl, rfl, rfl, rfl, rfl, rfl, rfl⟩

theorem arg0_of_onlyEncoder {s t : State} (h : onlyEncoder s t) : t.arg0 = s.arg0 := h.1

/-- Whatever state a procedure of the encoder answers, it changed the encoder's side only. -/
def OnlyEncoderRun (s : State) : Run Unit → Prop
  | .done _ t => onlyEncoder s t
  | .raised _ t => onlyEncoder s t
  | .broke _ => True

theorem OnlyEncoderRun.andThen {s : State} {x : Run Unit} {f : Unit → State → Run Unit} (h : OnlyEncoderRun s x)
    (hf : ∀ t, OnlyEncoderRun t (f () t)) : OnlyEncoderRun s (x.andThen f) := by
  cases x with
  | done a t =>
    have ht := hf t
    rw [andThen_done]
    cases hft : f () t with
    | done _ u => rw [hft] at ht; exact onlyEncoder_trans h ht
    | raised _ u => rw [hft] at ht; exact onlyEncoder_trans h ht
    | broke _ => trivial
  | raised c t => exact h
  | broke e => trivial

theorem closeBlock_onlyEncoder (s : State) : OnlyEncoderRun s (closeBlock s) := by
  rw [closeBlock_eq]
  split
  · exact onlyEncoder_refl s
  · exact onlyEncoder_update s _ _ _ _

theorem flushRun_onlyEncoder (c : Byte) (s : State) : OnlyEncoderRun s (flushRun c s) := by
  unfold flushRun
  split
  · exact (closeBlock_onlyEncoder s).andThen fun t => onlyEncoder_update t _ _ _ _
  · exact onlyEncoder_update s _ _ _ _

theorem flushPending_onlyEncoder (s : State) : OnlyEncoderRun s (flushPending s) := by
  unfold flushPending
  split
  · exact flushRun_onlyEncoder _ s
  · exact onlyEncoder_refl s

theorem takeByte_onlyEncoder (b : Byte) (s : State) : OnlyEncoderRun s (takeByte b s) := by
  unfold takeByte
  split
  · exact onlyEncoder_update s _ _ _ _
  · exact (flushPending_onlyEncoder s).andThen fun t => onlyEncoder_update t _ _ _ _

theorem writeRaw_onlyEncoder (b : Byte) (s : State) : OnlyEncoderRun s (writeRaw b s) := by
  refine (takeByte_onlyEncoder b s).andThen fun t => ?_
  split
  · exact flushRun_onlyEncoder b t
  · exact onlyEncoder_refl t

theorem closeNonEmpty_onlyEncoder (s : State) : OnlyEncoderRun s (closeNonEmpty s) := by
  unfold closeNonEmpty
  split
  · exact onlyEncoder_refl s
  · exact closeBlock_onlyEncoder s

theorem closeStream_onlyEncoder (s : State) : OnlyEncoderRun s (closeStream s) :=
  (flushPending_onlyEncoder s).andThen fun t =>
    (closeNonEmpty_onlyEncoder t).andThen fun u => onlyEncoder_update u _ _ _ _

theorem finishEnc_onlyEncoder {s t : State} {x : Run Unit} (hx : OnlyEncoderRun s x) (h : finishEnc x = .next t) :
    onlyEncoder s t := by
  cases x with
  | done _ u => cases h; exact onlyEncoder_trans hx (onlyEncoder_update u _ _ _ _)
  | raised c u => cases h; exact onlyEncoder_trans hx (onlyEncoder_update u _ _ _ _)
  | broke f => cases h

theorem execEncInit_onlyEncoder {k : BitVec 8} {s t : State} (h : execEncInit k s = .next t) : onlyEncoder s t := by
  unfold execEncInit at h
  split at h
  · cases h; exact onlyEncoder_update s _ _ _ _
  · cases h; exact onlyEncoder_update s _ _ _ _

theorem execEncWrite_onlyEncoder {b : Byte} {s t : State} (h : execEncWrite b s = .next t) : onlyEncoder s t := by
  unfold execEncWrite at h
  cases hst : s.enc.state with
  | opened => rw [hst] at h; exact finishEnc_onlyEncoder (writeRaw_onlyEncoder b s) h
  | idle | closed | faulted => rw [hst] at h; cases h; exact onlyEncoder_update s _ _ _ _

theorem execEncClose_onlyEncoder {s t : State} (h : execEncClose s = .next t) : onlyEncoder s t := by
  unfold execEncClose at h
  cases hst : s.enc.state with
  | opened => rw [hst] at h; exact finishEnc_onlyEncoder (closeStream_onlyEncoder s) h
  | idle | closed | faulted => rw [hst] at h; cases h; exact onlyEncoder_update s _ _ _ _

theorem execBwWriteBits_frame {n : BitVec 8} {s t : State} (h : execBwWriteBits n s = .next t) :
    onlyEncoder s t ∧ t.enc = s.enc := by
  unfold execBwWriteBits at h
  split at h
  · cases h; exact ⟨onlyEncoder_update s _ _ _ _, rfl⟩
  split at h
  · cases h; exact ⟨onlyEncoder_update s _ _ _ _, rfl⟩
  · cases h; exact ⟨onlyEncoder_update s _ _ _ _, rfl⟩

theorem execBwFinish_frame {s t : State} (h : execBwFinish s = .next t) : onlyEncoder s t ∧ t.enc = s.enc := by
  unfold execBwFinish at h
  split at h
  · cases h; exact ⟨onlyEncoder_update s _ _ _ _, rfl⟩
  · cases h; exact ⟨onlyEncoder_update s _ _ _ _, rfl⟩

/-- Settles O32: each procedure of the encoder changes the encoder's side only, and so do the commands made of them. -/
theorem encoderCommandsLeaveTheDecoderAlone : Obligations.EncoderCommandsLeaveTheDecoderAlone := fun _ _ =>
  ⟨fun _ => execEncInit_onlyEncoder, fun _ => execEncWrite_onlyEncoder, execEncClose_onlyEncoder,
    fun _ => execBwWriteBits_frame, execBwFinish_frame⟩

/-! ## The decoder's side -/

theorem onlyDecoder_trans {a b c : State} (h : onlyDecoder a b) (k : onlyDecoder b c) : onlyDecoder a c := by
  obtain ⟨h1, h2, h3, h4, h5, h6, h7⟩ := h
  obtain ⟨k1, k2, k3, k4, k5, k6, k7⟩ := k
  exact ⟨k1.trans h1, k2.trans h2, k3.trans h3, k4.trans h4, k5.trans h5, k6.trans h6, k7.trans h7⟩

/-- A new reader and decoder, progress of DEC_READ, an outcome recorded: that is all a command of the decoder does. -/
theorem onlyDecoder_update (s : State) (r : Reader) (d : Decoder) (p : Bool) (v : Word) (c : Option Cause) :
    onlyDecoder s { s with br := r, dec := d, reading := p, result := v, lastCause := c } :=
  ⟨rfl, rfl, rfl, rfl, rfl, rfl, rfl⟩

theorem arg0_of_onlyDecoder {s t : State} (h : onlyDecoder s t) : t.arg0 = s.arg0 := h.1

theorem ElementStep.onlyDecoder {s t : State} (h : ElementStep s t) : onlyDecoder s t :=
  ⟨h.arg0, h.bw, h.crcx, h.enc, h.host, h.observed, h.sortFaults⟩

theorem endBlock_onlyDecoder (s : State) : onlyDecoder s (endBlock s) := by
  unfold endBlock
  split
  · exact onlyDecoder_update s _ _ _ _ _
  · exact onlyDecoder_update s _ _ _ _ _

theorem blockStep_onlyDecoder {s t : State} (h : blockStep s = .next t) : onlyDecoder s t := by
  unfold blockStep at h
  split at h
  · cases h
  split at h
  · cases h; exact onlyDecoder_update s _ _ _ _ _
  · cases h; exact endBlock_onlyDecoder s
  · cases h

theorem readStep_onlyDecoder {s t : State} (h : readStep s = .next t) : onlyDecoder s t := by
  unfold readStep at h
  split at h
  · exact blockStep_onlyDecoder h
  split at h
  · next i r _ => exact onlyDecoder_trans (onlyDecoder_update s r _ _ _ _) (execElement_step h).onlyDecoder
  · cases h; exact onlyDecoder_update s _ _ _ _ _
  · cases h

theorem readLoop_onlyDecoder {fuel : Nat} {s t : State} (h : readLoop fuel s = .next t) : onlyDecoder s t := by
  induction fuel generalizing s with
  | zero => cases h
  | succ fuel ih =>
    unfold readLoop at h
    cases hstep : readStep s with
    | fault f => rw [hstep] at h; cases h
    | refused r => rw [hstep] at h; cases h
    | next u =>
      rw [hstep] at h
      dsimp only at h
      have hu := readStep_onlyDecoder hstep
      split at h
      · exact onlyDecoder_trans hu (ih h)
      · cases h; exact hu

theorem execDecInit_onlyDecoder {s t : State} (h : execDecInit s = .next t) : onlyDecoder s t := by
  cases h; exact onlyDecoder_update s _ _ _ _ _

theorem execDecRead_onlyDecoder {s t : State} (h : execDecRead s = .next t) : onlyDecoder s t := by
  unfold execDecRead at h
  cases hst : s.dec.state with
  | idle | faulted | done => rw [hst] at h; cases h; exact onlyDecoder_update s _ _ _ _ _
  | expectStreamHeader | expectBlockHeader | decodingBlock | expectStreamTrailer =>
    rw [hst] at h
    exact onlyDecoder_trans (onlyDecoder_update s _ _ true _ _) (readLoop_onlyDecoder h)

theorem execBrReadBits_frame {n : BitVec 8} {s t : State} (h : execBrReadBits n s = .next t) :
    onlyDecoder s t ∧ t.dec = s.dec ∧ t.reading = s.reading := by
  unfold execBrReadBits at h
  split at h
  · cases h; exact ⟨onlyDecoder_update s _ _ _ _ _, rfl, rfl⟩
  split at h
  · cases h; exact ⟨onlyDecoder_update s _ _ _ _ _, rfl, rfl⟩
  split at h
  · cases h; exact ⟨onlyDecoder_update s _ _ _ _ _, rfl, rfl⟩
  · cases h; exact ⟨onlyDecoder_update s _ _ _ _ _, rfl, rfl⟩

/-- Settles O33: every turn of DEC_READ changes the decoder's side only, hence the whole loop does. -/
theorem decoderCommandsLeaveTheEncoderAlone : Obligations.DecoderCommandsLeaveTheEncoderAlone := fun _ _ =>
  ⟨execDecInit_onlyDecoder, execDecRead_onlyDecoder, fun _ => execBrReadBits_frame⟩

/-- Settles O34: the next state of an element has the frame of `ElementStep`. -/
theorem elementsTouchOnlyTheDecoder : Obligations.ElementsTouchOnlyTheDecoder := by
  intro i s t hi ht
  rw [← execElement_eq_exec hi] at ht
  have hstep := execElement_step ht
  exact ⟨hstep.onlyDecoder, hstep.br⟩

end Sys2Proof.Machine
end

section
/-! SUPPORT. The register window: what a step does with the host's next access, and what the fields of STATUS and INFO
show (10_state R22..R30). -/

open Sys2Proof.Claims

namespace Sys2Proof.Machine

/-! ## The host's next access -/

/-- Between commands a step serves the next access (20_memory R69, R72). -/
theorem step_host {s : State} {a : HostAccess} {rest : List HostAccess} (hr : s.reading = false)
    (hh : s.host = a :: rest) : step s = hostAccess a { s with host := rest } := by
  rw [step, if_neg (by simp [hr]), hostStep, hh]

theorem step_aligned_read {s : State} {off : Nat} {rest : List HostAccess} (hr : s.reading = false)
    (hh : s.host = { offset := off, bytes := 4, op := .read } :: rest) (ha : off % 4 = 0) :
    step s = .next { s with host := rest, observed := s.observed ++ [readOffset s off] } := by
  rw [step_host hr hh, hostAccess, if_pos ⟨rfl, ha⟩]
  rfl

theorem step_aligned_write {s : State} {off : Nat} {v : Word} {rest : List HostAccess} (hr : s.reading = false)
    (hh : s.host = { offset := off, bytes := 4, op := .write v } :: rest) (ha : off % 4 = 0) :
    step s = writeOffset off v { s with host := rest } := by
  rw [step_host hr hh, hostAccess, if_pos ⟨rfl, ha⟩]

/-- Past the window no register stands (10_state R22, log 10). -/
theorem regAt_past {off : Nat} (h : 0x40 ≤ off) : regAt off = none := by
  unfold regAt
  repeat rw [if_neg (by omega)]

/-- CMD and ARG0 stand at their offsets only (10_state R22). -/
theorem regAt_ne_cmd_arg0 {off : Nat} (h0 : off ≠ 0x00) (h8 : off ≠ 0x08) :
    regAt off ≠ some .cmd ∧ regAt off ≠ some .arg0 := by
  have window : ∀ n < 0x40, n ≠ 0x00 → n ≠ 0x08 → regAt n ≠ some .cmd ∧ regAt n ≠ some .arg0 := by decide
  by_cases h : off < 0x40
  · exact window off h h0 h8
  · rw [regAt_past (by omega)]
    simp

theorem writeOffset_ignored {off : Nat} (v : Word) (s : State) (h8 : off ≠ 0x08) (h0 : off ≠ 0x00) :
    writeOffset off v s = .next s := by
  obtain ⟨hcmd, harg⟩ := regAt_ne_cmd_arg0 h0 h8
  unfold writeOffset
  split
  · next hreg => exact absurd hreg hcmd
  · next hreg => exact absurd hreg harg
  · rfl

theorem readOffset_past {off : Nat} (s : State) (h : 0x40 ≤ off) : readOffset s off = 0 := by
  rw [readOffset, regAt_past h]

/-- Settles O1: the write is served by `runCommand`, which runs the decoded command or rejects the word. -/
theorem stepRunsTheCommandWritten : Obligations.StepRunsTheCommandWritten := by
  intro s w rest hr hh
  have hrun : step s = runCommand w { s with host := rest } := step_aligned_write hr hh rfl
  constructor
  · intro i hd
    rw [hrun, runCommand, hd]
  · intro c hd
    rw [hrun, runCommand, hd]
    rfl

/-- Settles O23: one case for each kind of access, then the window offset by offset. -/
theorem registerWindowAccesses : Obligations.RegisterWindowAccesses := by
  refine ⟨fun s off bytes op rest hr hh => ⟨fun hbad => ?_, ?_⟩, fun s => ?_, fun s off => readOffset_past s⟩
  · rw [step_host hr hh]
    exact hostAccess_unaligned (by rintro ⟨hb, ho⟩; exact hbad.elim (· hb) (· ho))
  · rintro rfl ha
    refine ⟨?_, ?_, ?_⟩
    · rintro rfl
      exact step_aligned_read hr hh ha
    · rintro v rfl rfl
      exact step_aligned_write hr hh ha
    · rintro v rfl h8 h0
      rw [step_aligned_write hr hh ha, writeOffset_ignored v _ h8 h0]
  · exact ⟨rfl, rfl, rfl, rfl, rfl, rfl, rfl, rfl, rfl, rfl, rfl, rfl, rfl, rfl, rfl, rfl⟩

/-! ## ARG0 -/

/-- No instruction but RESET writes ARG0 (10_state R25). -/
theorem exec_arg0 {i : Instr} {s t : State} (hi : i ≠ .reset) (h : exec i s = .next t) : t.arg0 = s.arg0 := by
  by_cases hc : i.isCommand = true
  · cases i with
    | reset => exact absurd rfl hi
    | nop | crcReset | crcUpdate | crcValue | crcCombReset | crcCombine => cases h; rfl
    | bwWriteBits n => exact arg0_of_onlyEncoder (execBwWriteBits_frame h).1
    | bwFinish => exact arg0_of_onlyEncoder (execBwFinish_frame h).1
    | encInit k => exact arg0_of_onlyEncoder (execEncInit_onlyEncoder h)
    | encWrite b => exact arg0_of_onlyEncoder (execEncWrite_onlyEncoder h)
    | encClose => exact arg0_of_onlyEncoder (execEncClose_onlyEncoder h)
    | brReadBits n => exact arg0_of_onlyDecoder (execBrReadBits_frame h).1
    | decInit => exact arg0_of_onlyDecoder (execDecInit_onlyDecoder h)
    | decRead => exact arg0_of_onlyDecoder (execDecRead_onlyDecoder h)
    | _ => cases hc
  · rw [← execElement_eq_exec (by simpa using hc)] at h
    exact (execElement_step h).arg0

/-- Settles O27: reset and the write by the window's rules, the rest by the frames of the instructions. -/
theorem noCommandWritesArg0 : Obligations.NoCommandWritesArg0 :=
  ⟨rfl, fun _ _ _ hr hh => ⟨_, step_aligned_write hr hh rfl, rfl⟩, fun _ _ _ hi h => exec_arg0 hi h⟩

/-! ## STATUS and INFO -/

theorem causeField_shows (c : Option Cause) : showsCause (causeField c) c := by
  have codes : ∀ x ∈ causeCodes, causeCode x.1 = x.2 := by decide
  refine ⟨fun h => h ▸ rfl, fun x hx h => ?_⟩
  rw [h]
  exact codes x hx

theorem causeField_eq_zero_iff (c : Option Cause) : causeField c = 0 ↔ c = none := by
  have nonzero : ∀ x, causeCode x ≠ 0 := by intro x; cases x <;> decide
  cases c with
  | none => exact ⟨fun _ => rfl, fun _ => rfl⟩
  | some x => exact ⟨fun h => absurd h (nonzero x), fun h => by cases h⟩

theorem decStateCode_codes : ∀ x ∈ decStateCodes, decStateCode x.1 = x.2 := by decide

theorem encStateCode_codes : ∀ x ∈ encStateCodes, encStateCode x.1 = x.2 := by decide

/-- The fields of STATUS, by their bits (10_state R24). -/
theorem statusWord_fields (s : State) :
    (statusWord s).extractLsb' 0 8 = causeField s.lastCause ∧
    (statusWord s).extractLsb' 8 8 = causeField s.enc.cause ∧
    (statusWord s).extractLsb' 16 8 = causeField s.dec.cause ∧
    (statusWord s).extractLsb' 24 3 = decStateCode s.dec.state ∧
    (statusWord s).extractLsb' 27 2 = encStateCode s.enc.state ∧
    (statusWord s).getLsbD 29 = s.enc.rand ∧ (statusWord s).getLsbD 30 = s.dec.rand ∧
    (statusWord s).getLsbD 31 = errBit s := by
  simp (disch := decide) only [statusWord, BitVec.extractLsb'_append_eq_of_le,
    BitVec.extractLsb'_append_eq_of_add_le, BitVec.getLsbD_append]
  simp

/-- Settles O21: STATUS is the concatenation of its fields, and each field's code is the table's. -/
theorem statusFieldsStandInTheirBits : Obligations.StatusFieldsStandInTheirBits := by
  intro s
  have hstatus : readOffset s 0x04 = statusWord s := rfl
  obtain ⟨hlast, henc, hdec, hdst, hest, hencRand, hdecRand, herr⟩ := statusWord_fields s
  rw [hstatus, hlast, henc, hdec, hdst, hest, hencRand, hdecRand, herr]
  refine ⟨causeField_shows _, causeField_shows _, causeField_shows _, ?_, ?_, rfl, rfl, ?_⟩
  · intro x hx h
    rw [h, decStateCode_codes x hx]
  · intro x hx h
    rw [h, encStateCode_codes x hx]
  · rw [errBit, decide_eq_true_iff, ne_eq, causeField_eq_zero_iff]

/-- A concatenation as a number: the upper part stands above the lower part's bits. -/
theorem toNat_append_eq {m n : Nat} (x : BitVec m) (y : BitVec n) : (x ++ y).toNat = x.toNat * 2 ^ n + y.toNat := by
  rw [BitVec.toNat_append, ← Nat.shiftLeft_add_eq_or_of_lt y.isLt, Nat.shiftLeft_eq]

/-- Settles O22: in a state in order every field of INFO fits its bits. -/
theorem infoHoldsItsFields : Obligations.InfoHoldsItsFields := by
  rintro s ⟨hbw, ⟨hbr, -⟩, ⟨hek, -⟩, -, ⟨hdk, -⟩, -⟩
  have hinfo : readOffset s 0x3C = infoWord s := rfl
  rw [hinfo, infoWord]
  simp only [toNat_append_eq, BitVec.toNat_ofNat, show ∀ n, (0 : BitVec n).toNat = 0 from fun _ => rfl]
  omega

end Sys2Proof.Machine
end

section
/-! SUPPORT. Bit strings as values, bit by bit (20_memory R63, R64). -/

namespace Sys2Proof

/-- The bits of a field stand in its bit string most significant first (20_memory R63). -/
theorem bitsOf_getElem? {n i : Nat} (v : Nat) (h : i < n) : (bitsOf n v)[i]? = some (v.testBit (n - 1 - i)) := by
  induction n generalizing i with
  | zero => omega
  | succ n ih =>
    rw [bitsOf]
    cases i with
    | zero => simp
    | succ i => rw [List.getElem?_cons_succ, ih (by omega), show n + 1 - 1 - (i + 1) = n - 1 - i by omega]

/-- The value of a bit string, bit by bit (20_memory R64). -/
theorem valueOf_eq_sum (bs : List Bool) :
    valueOf bs = ((List.range bs.length).map fun i => (bs.getD i false).toNat * 2 ^ (bs.length - 1 - i)).sum := by
  induction bs with
  | nil => rfl
  | cons b bs ih =>
    have shift : ∀ i, bs.length - 1 - i = bs.length - (i + 1) := by omega
    rw [valueOf_cons, ih, List.length_cons, List.range_succ_eq_map, List.map_cons, List.sum_cons, List.map_map]
    simp [Function.comp_def, shift]

/-- Settles O6: the value is the sum of its weighted bits, and a field's bits are read back. -/
theorem fieldsAreBigEndian : Obligations.FieldsAreBigEndian :=
  ⟨valueOf_eq_sum, fun _ v _ => bitsOf_getElem? v, fun n v => ⟨bitsOf_length n v, valueOf_bitsOf n v⟩⟩

end Sys2Proof
end

section
/-! SUPPORT. The two streams in every state, in order or not: the sink only grows, the source stays and its position
never goes back (20_memory R61, R62). -/

namespace Sys2Proof.Machine

/-! ## The reader -/

/-- `q` is `r` after pulling some bytes of the same source; of its bits nothing is said (`Reader.Past` says more, of
reads as long as a field can be). -/
structure Reader.Onward (r q : Reader) : Prop where
  src : q.src = r.src
  pos : r.pos ≤ q.pos

theorem Reader.Onward.refl (r : Reader) : r.Onward r := ⟨rfl, le_rfl⟩

theorem Reader.Onward.trans {a b c : Reader} (h : a.Onward b) (k : b.Onward c) : a.Onward c :=
  ⟨k.src.trans h.src, h.pos.trans k.pos⟩

theorem Reader.Past.onward {r q : Reader} (h : r.Past q) : r.Onward q := ⟨h.src, h.pos⟩

theorem readBits_onward (n : Nat) (r : Reader) : r.Onward (readBits n r).2 := by
  rcases h : readBits n r with ⟨c | v, q⟩
  · obtain ⟨-, -, -, hsrc, -, hpos, -⟩ := readBits_error h
    exact ⟨hsrc, hpos⟩
  · obtain ⟨-, -, -, hsrc, hpos, -⟩ := readBits_ok h
    exact ⟨hsrc, hpos⟩

theorem andThen_onward {α β : Type} {r : Reader} {x : Fetched α} {f : α → Reader → Fetched β}
    (hx : r.Onward x.2) (hf : ∀ a (q : Reader), q.Onward (f a q).2) : r.Onward (x.andThen f).2 := by
  rcases x with ⟨c | a, q⟩
  · exact hx
  · exact hx.trans (hf a q)

theorem fetchField_onward (n : Nat) (f : Nat → Instr) (r : Reader) : r.Onward (fetchField n f r).2 :=
  andThen_onward (readBits_onward n r) fun _ q => .refl q

/-- Also under a decode table that is not in order, whose shortest length may be any number. -/
theorem decodeSymbol_onward (t : DecTable) (r : Reader) : r.Onward (decodeSymbol t r).2 :=
  andThen_onward (readBits_onward t.minLen r) fun _ q => (extendCode_goes t _ _ _ q).past.onward

theorem fetchSymbol_onward (sc : DecScratch) (r : Reader) : r.Onward (fetchSymbol sc r).2 := by
  unfold fetchSymbol
  split
  · exact .refl r
  split
  · exact decodeSymbol_onward _ r
  · exact .refl r

theorem fetchBlock_onward (sc : DecScratch) (r : Reader) : r.Onward (fetchBlock sc r).2 := by
  unfold fetchBlock
  cases sc.pos with
  | blockCrc | rand | origPtr | inUse16 | inUseWord | nGroups | nSelectors | lenStart =>
    exact fetchField_onward _ _ r
  | selector => exact (fetchUnary_fetches _ _ r).past.onward
  | lenAdjust => exact (fetchAdjust_fetches r).past.onward
  | symbol => exact fetchSymbol_onward sc r

theorem fetchElement_onward {d : Decoder} {x : Fetched Instr} {r : Reader} (h : fetchElement d r = some x) :
    r.Onward x.2 := by
  unfold fetchElement at h
  split at h
  · cases h; exact (fetchHeader_fetches r).past.onward
  · split at h
    · cases h; exact (fetchMagic_fetches r).past.onward
    · cases h; exact fetchBlock_onward _ r
  · cases h; exact (fetchTrailer_fetches r).past.onward
  all_goals cases h

/-! ## The streams of a state -/

/-- From `s` to `t` the two streams only went on (20_memory R61, R62). -/
structure StreamsAdvance (s t : State) : Prop where
  sink : s.bw.sink <+: t.bw.sink
  src : t.br.src = s.br.src
  pos : s.br.pos ≤ t.br.pos

theorem StreamsAdvance.of_writer {s t : State} (hbr : t.br = s.br) (hsink : s.bw.sink <+: t.bw.sink) :
    StreamsAdvance s t := ⟨hsink, by rw [hbr], by rw [hbr]⟩

theorem StreamsAdvance.of_reader {s t : State} (hbw : t.bw = s.bw) (hbr : s.br.Onward t.br) :
    StreamsAdvance s t := ⟨by rw [hbw], hbr.src, hbr.pos⟩

theorem StreamsAdvance.of_same {s t : State} (hbw : t.bw = s.bw) (hbr : t.br = s.br) : StreamsAdvance s t :=
  .of_writer hbr (by rw [hbw])

/-! ## The encoder's procedures -/

/-- Whatever state a procedure of the encoder answers, the sink only grew. -/
def SinkGrowsRun (s : State) : Run Unit → Prop
  | .done _ t => s.bw.sink <+: t.bw.sink
  | .raised _ t => s.bw.sink <+: t.bw.sink
  | .broke _ => True

theorem SinkGrowsRun.andThen {s : State} {x : Run Unit} {f : Unit → State → Run Unit} (h : SinkGrowsRun s x)
    (hf : ∀ t, SinkGrowsRun t (f () t)) : SinkGrowsRun s (x.andThen f) := by
  cases x with
  | done a t =>
    have ht := hf t
    rw [andThen_done]
    cases hft : f () t with
    | done _ u => rw [hft] at ht; exact List.IsPrefix.trans h ht
    | raised _ u => rw [hft] at ht; exact List.IsPrefix.trans h ht
    | broke _ => trivial
  | raised c t => exact h
  | broke e => trivial

theorem closeBlock_sink (s : State) : SinkGrowsRun s (closeBlock s) := by
  rw [closeBlock_eq]
  split
  · exact List.prefix_rfl
  · exact writeBitList_sink_prefix _ s.bw

theorem flushRun_sink (c : Byte) (s : State) : SinkGrowsRun s (flushRun c s) := by
  unfold flushRun
  split
  · exact (closeBlock_sink s).andThen fun _ => List.prefix_rfl
  · exact List.prefix_rfl

theorem flushPending_sink (s : State) : SinkGrowsRun s (flushPending s) := by
  unfold flushPending
  split
  · exact flushRun_sink _ s
  · exact List.prefix_rfl

theorem takeByte_sink (b : Byte) (s : State) : SinkGrowsRun s (takeByte b s) := by
  unfold takeByte
  split
  · exact List.prefix_rfl
  · exact (flushPending_sink s).andThen fun _ => List.prefix_rfl

theorem writeRaw_sink (b : Byte) (s : State) : SinkGrowsRun s (writeRaw b s) := by
  refine (takeByte_sink b s).andThen fun t => ?_
  split
  · exact flushRun_sink b t
  · exact List.prefix_rfl

theorem closeNonEmpty_sink (s : State) : SinkGrowsRun s (closeNonEmpty s) := by
  unfold closeNonEmpty
  split
  · exact List.prefix_rfl
  · exact closeBlock_sink s

theorem closeStream_sink (s : State) : SinkGrowsRun s (closeStream s) :=
  (flushPending_sink s).andThen fun t =>
    (closeNonEmpty_sink t).andThen fun u => (writeTrailer_facts u.enc.comb u.bw).1

theorem finishEnc_sink {s t : State} {x : Run Unit} (hx : SinkGrowsRun s x) (h : finishEnc x = .next t) :
    s.bw.sink <+: t.bw.sink := by
  cases x with
  | done _ u => cases h; exact hx
  | raised c u => cases h; exact hx
  | broke f => cases h

/-! ## The commands of the encoder and of the writer -/

theorem execEncInit_sink {k : BitVec 8} {s t : State} (h : execEncInit k s = .next t) :
    s.bw.sink <+: t.bw.sink := by
  unfold execEncInit at h
  split at h
  · cases h; exact List.prefix_rfl
  · cases h; exact writeBitList_sink_prefix _ { s.bw with acc := [] }

theorem execEncWrite_sink {b : Byte} {s t : State} (h : execEncWrite b s = .next t) : s.bw.sink <+: t.bw.sink := by
  unfold execEncWrite at h
  cases hst : s.enc.state with
  | opened => rw [hst] at h; exact finishEnc_sink (writeRaw_sink b s) h
  | idle | closed | faulted => rw [hst] at h; cases h; exact List.prefix_rfl

theorem execEncClose_sink {s t : State} (h : execEncClose s = .next t) : s.bw.sink <+: t.bw.sink := by
  unfold execEncClose at h
  cases hst : s.enc.state with
  | opened => rw [hst] at h; exact finishEnc_sink (closeStream_sink s) h
  | idle | closed | faulted => rw [hst] at h; cases h; exact List.prefix_rfl

theorem execBwWriteBits_sink {n : BitVec 8} {s t : State} (h : execBwWriteBits n s = .next t) :
    s.bw.sink <+: t.bw.sink := by
  unfold execBwWriteBits at h
  split at h
  · cases h; exact List.prefix_rfl
  split at h
  · cases h; exact List.prefix_rfl
  · cases h; exact writeBitList_sink_prefix _ s.bw

theorem execBwFinish_sink {s t : State} (h : execBwFinish s = .next t) : s.bw.sink <+: t.bw.sink := by
  unfold execBwFinish at h
  split at h
  · cases h; exact List.prefix_rfl
  · cases h; exact (writeFinish_facts s.bw).1

theorem streamsAdvance_of_onlyEncoder {s t : State} (h : Claims.onlyEncoder s t)
    (hsink : s.bw.sink <+: t.bw.sink) : StreamsAdvance s t := by
  obtain ⟨-, hbr, -⟩ := h
  exact .of_writer hbr hsink

/-! ## The commands of the decoder and of the reader -/

theorem endBlock_br (s : State) : (endBlock s).br = s.br := by
  unfold endBlock
  split <;> rfl

theorem blockStep_br {s t : State} (h : blockStep s = .next t) : t.br = s.br := by
  unfold blockStep at h
  split at h
  · cases h
  split at h
  · cases h; rfl
  · cases h; exact endBlock_br s
  · cases h

theorem readStep_onward {s t : State} (h : readStep s = .next t) : s.br.Onward t.br := by
  unfold readStep at h
  split at h
  · rw [blockStep_br h]; exact .refl s.br
  split at h
  · next i r hf => rw [(execElement_step h).br]; exact fetchElement_onward hf
  · next c r hf => cases h; exact fetchElement_onward hf
  · cases h

theorem readLoop_onward {fuel : Nat} {s t : State} (h : readLoop fuel s = .next t) : s.br.Onward t.br := by
  induction fuel generalizing s with
  | zero => cases h
  | succ fuel ih =>
    unfold readLoop at h
    cases hstep : readStep s with
    | fault f => rw [hstep] at h; cases h
    | refused r => rw [hstep] at h; cases h
    | next u =>
      rw [hstep] at h
      dsimp only at h
      have hu := readStep_onward hstep
      split at h
      · exact hu.trans (ih h)
      · cases h; exact hu

theorem execDecRead_onward {s t : State} (h : execDecRead s = .next t) : s.br.Onward t.br := by
  unfold execDecRead at h
  cases hst : s.dec.state with
  | idle | faulted | done => rw [hst] at h; cases h; exact .refl s.br
  | expectStreamHeader | expectBlockHeader | decodingBlock | expectStreamTrailer =>
    rw [hst] at h
    exact readLoop_onward (s := { s with reading := true }) h

/-- DEC_INIT drops bits, but the source stays where it is (45 R281). -/
theorem execDecInit_onward {s t : State} (h : execDecInit s = .next t) : s.br.Onward t.br := by
  cases h; exact ⟨rfl, le_rfl⟩

theorem execBrReadBits_onward {n : BitVec 8} {s t : State} (h : execBrReadBits n s = .next t) :
    s.br.Onward t.br := by
  unfold execBrReadBits at h
  split at h
  · cases h; exact .refl s.br
  split at h
  · cases h; exact .refl s.br
  have hread := readBits_onward n.toNat s.br
  split at h
  · next hr => rw [hr] at hread; cases h; exact hread
  · next hr => rw [hr] at hread; cases h; exact hread

theorem streamsAdvance_of_onlyDecoder {s t : State} (h : Claims.onlyDecoder s t) (hbr : s.br.Onward t.br) :
    StreamsAdvance s t := by
  obtain ⟨-, hbw, -⟩ := h
  exact .of_reader hbw hbr

/-! ## Every instruction, every step -/

/-- RESET keeps the bytes of the sink and the place in the source (70 R370). -/
theorem resetCore_streamsAdvance (s : State) : StreamsAdvance s (resetCore s) := ⟨List.prefix_rfl, rfl, le_rfl⟩

theorem exec_streamsAdvance {i : Instr} {s t : State} (h : exec i s = .next t) : StreamsAdvance s t := by
  by_cases hc : i.isCommand = true
  · cases i with
    | reset => cases h; exact resetCore_streamsAdvance s
    | nop | crcReset | crcUpdate | crcValue | crcCombReset | crcCombine => cases h; exact .of_same rfl rfl
    | bwWriteBits n => exact streamsAdvance_of_onlyEncoder (execBwWriteBits_frame h).1 (execBwWriteBits_sink h)
    | bwFinish => exact streamsAdvance_of_onlyEncoder (execBwFinish_frame h).1 (execBwFinish_sink h)
    | encInit k => exact streamsAdvance_of_onlyEncoder (execEncInit_onlyEncoder h) (execEncInit_sink h)
    | encWrite b => exact streamsAdvance_of_onlyEncoder (execEncWrite_onlyEncoder h) (execEncWrite_sink h)
    | encClose => exact streamsAdvance_of_onlyEncoder (execEncClose_onlyEncoder h) (execEncClose_sink h)
    | brReadBits n => exact streamsAdvance_of_onlyDecoder (execBrReadBits_frame h).1 (execBrReadBits_onward h)
    | decInit => exact streamsAdvance_of_onlyDecoder (execDecInit_onlyDecoder h) (execDecInit_onward h)
    | decRead => exact streamsAdvance_of_onlyDecoder (execDecRead_onlyDecoder h) (execDecRead_onward h)
    | _ => cases hc
  · rw [← execElement_eq_exec (by simpa using hc)] at h
    exact .of_same (execElement_step h).bw (execElement_step h).br

theorem runCommand_streamsAdvance {w : Word} {s t : State} (h : runCommand w s = .next t) :
    StreamsAdvance s t := by
  unfold runCommand at h
  split at h
  · exact exec_streamsAdvance h
  · cases h; exact .of_same rfl rfl

theorem writeOffset_streamsAdvance {off : Nat} {v : Word} {s t : State} (h : writeOffset off v s = .next t) :
    StreamsAdvance s t := by
  unfold writeOffset at h
  split at h
  · exact runCommand_streamsAdvance h
  · cases h; exact .of_same rfl rfl
  · cases h; exact .of_same rfl rfl

theorem hostAccess_streamsAdvance {a : HostAccess} {s t : State} (h : hostAccess a s = .next t) :
    StreamsAdvance s t := by
  unfold hostAccess at h
  split at h
  · split at h
    · cases h; exact .of_same rfl rfl
    · exact writeOffset_streamsAdvance h
  · cases h

theorem hostStep_streamsAdvance {s t : State} (h : hostStep s = .next t) : StreamsAdvance s t := by
  unfold hostStep at h
  split at h
  · cases h; exact .of_same rfl rfl
  · next a rest _ =>
    obtain ⟨hsink, hsrc, hpos⟩ := hostAccess_streamsAdvance (s := { s with host := rest }) h
    exact ⟨hsink, hsrc, hpos⟩

theorem step_streamsAdvance {s t : State} (h : step s = .next t) : StreamsAdvance s t := by
  unfold step at h
  split at h
  · exact streamsAdvance_of_onlyDecoder (readStep_onlyDecoder h) (readStep_onward h)
  · exact hostStep_streamsAdvance h

/-- Settles O13: the encoder's side only appends to the sink, and the decoder's side only pulls from the source. -/
theorem sinkOnlyGrowsAndSourceNeverRewinds : Obligations.SinkOnlyGrowsAndSourceNeverRewinds := by
  intro s t h
  obtain ⟨hsink, hsrc, hpos⟩ := step_streamsAdvance h
  exact ⟨hsink, hsrc, hpos⟩

end Sys2Proof.Machine
end

section
/-! SUPPORT. Encode then fetch, element by element: where the reader's bits begin with an element's encoding, the read
of that element answers it and consumes exactly those bits (30_encoding R80..R88). -/

namespace Sys2Proof.Machine

/-- The fetch `x` answers the element `i` and leaves the bits `rest` of the source `src`. -/
def Answers (x : Fetched Instr) (i : Instr) (rest : List Bool) (src : List Byte) : Prop :=
  ∃ q, x = (.ok i, q) ∧ q.bits = rest ∧ q.src = src

theorem answers_ok (i : Instr) {q : Reader} {rest : List Bool} (h : q.bits = rest) : Answers (.ok i, q) i rest q.src :=
  ⟨q, rfl, h, rfl⟩

/-! ## Reads of bits that are there -/

/-- A read of bits that are there goes on with their value, on the bits after them. -/
theorem answers_read {r : Reader} {n : Nat} {f : Nat → Reader → Fetched Instr} {i : Instr} {bs tail rest : List Bool}
    (hb : r.bits = bs ++ tail) (hn : bs.length = n)
    (hf : ∀ q : Reader, q.bits = tail → Answers (f (valueOf bs) q) i rest q.src) :
    Answers ((readBits n r).andThen f) i rest r.src := by
  obtain ⟨q, hq, htail⟩ := readBits_append hb hn
  obtain ⟨-, -, -, hsrc, -⟩ := readBits_ok hq
  rw [hq, fetched_ok, ← hsrc]
  exact hf q htail

theorem answers_readField {r : Reader} {n v : Nat} {f : Nat → Reader → Fetched Instr} {i : Instr} {tail rest : List Bool}
    (hb : r.bits = bitsOf n v ++ tail) (hv : v < 2 ^ n)
    (hf : ∀ q : Reader, q.bits = tail → Answers (f v q) i rest q.src) :
    Answers ((readBits n r).andThen f) i rest r.src :=
  answers_read hb (bitsOf_length n v) fun q hq => by rw [valueOf_bitsOf_of_lt hv]; exact hf q hq

theorem answers_readBit {r : Reader} {b : Bool} {f : Nat → Reader → Fetched Instr} {i : Instr} {tail rest : List Bool}
    (hb : r.bits = b :: tail) (hf : ∀ q : Reader, q.bits = tail → Answers (f b.toNat q) i rest q.src) :
    Answers ((readBits 1 r).andThen f) i rest r.src :=
  answers_read (bs := [b]) hb rfl fun q hq => by rw [valueOf_cons]; simpa using hf q hq

theorem answers_expect {r : Reader} {want : Nat} {c : Cause} {f : Unit → Reader → Fetched Instr} {i : Instr}
    {tail rest : List Bool} (hb : r.bits = bitsOf 8 want ++ tail) (hw : want < 2 ^ 8)
    (hf : ∀ q : Reader, q.bits = tail → Answers (f () q) i rest q.src) :
    Answers ((expectByte want c r).andThen f) i rest r.src := by
  rw [expectByte_read]
  exact answers_readField hb hw fun q hq => by rw [if_pos rfl]; exact hf q hq

/-! ## The elements -/

theorem fetchField_answers {r : Reader} {n v : Nat} (f : Nat → Instr) {rest : List Bool}
    (hb : r.bits = bitsOf n v ++ rest) (hv : v < 2 ^ n) : Answers (fetchField n f r) (f v) rest r.src :=
  answers_readField hb hv fun _ hq => answers_ok _ hq

theorem fetchHeader_answers {r : Reader} {k : BitVec 4} {rest : List Bool}
    (hb : r.bits = encode noCodes (.streamHeader k) ++ rest) : Answers (fetchHeader r) (.streamHeader k) rest r.src := by
  have hk : k.toNat < 2 ^ 4 := k.isLt
  simp only [encode, List.append_assoc] at hb
  refine answers_expect hb (by decide) fun q hq => answers_expect hq (by decide) fun q hq =>
    answers_expect hq (by decide) fun q hq => answers_readField hq (by omega) fun q hq => ?_
  have hfield : streamHeaderField (0x30 + k.toNat - 0x30) = .streamHeader k := by simp [streamHeaderField]
  rw [if_pos ⟨by omega, by omega⟩, hfield]
  exact answers_ok _ hq

theorem fetchMagic_answers_block {r : Reader} {rest : List Bool} (hb : r.bits = encode noCodes .blockMagic ++ rest) :
    Answers (fetchMagic r) .blockMagic rest r.src := by
  simp only [encode, List.append_assoc] at hb
  exact answers_readField hb (by decide) fun q hq => answers_readField hq (by decide) fun q hq => answers_ok _ hq

theorem fetchMagic_answers_eos {r : Reader} {rest : List Bool} (hb : r.bits = encode noCodes .eosMagic ++ rest) :
    Answers (fetchMagic r) .eosMagic rest r.src := by
  simp only [encode, List.append_assoc] at hb
  exact answers_readField hb (by decide) fun q hq => answers_readField hq (by decide) fun q hq => answers_ok _ hq

/-- A unary rank is read back where that many one-bits are legal (43 R223). -/
theorem fetchUnary_answers {m fuel : Nat} (j : Nat) {r : Reader} {rest : List Bool} (hm : m < fuel)
    (hb : r.bits = encode noCodes (.selectorMtf m) ++ rest) :
    Answers (fetchUnary fuel j r) (.selectorMtf (j + m)) rest r.src := by
  induction m generalizing fuel j r with
  | zero =>
    obtain ⟨fuel, rfl⟩ := Nat.exists_eq_succ_of_ne_zero (by omega : fuel ≠ 0)
    exact answers_readBit hb fun q hq => answers_ok _ hq
  | succ m ih =>
    obtain ⟨fuel, rfl⟩ := Nat.exists_eq_succ_of_ne_zero (by omega : fuel ≠ 0)
    refine answers_readBit hb fun q hq => ?_
    have h := ih (j + 1) (by omega : m < fuel) hq
    rwa [Nat.add_right_comm] at h

theorem fetchAdjust_answers_stop {r : Reader} {rest : List Bool} (hb : r.bits = encode noCodes .lenStop ++ rest) :
    Answers (fetchAdjust r) .lenStop rest r.src :=
  answers_readBit hb fun _ hq => answers_ok _ hq

theorem fetchAdjust_answers_inc {r : Reader} {rest : List Bool} (hb : r.bits = encode noCodes .lenInc ++ rest) :
    Answers (fetchAdjust r) .lenInc rest r.src :=
  answers_readBit hb fun _ hq => answers_readBit hq fun _ hq => answers_ok _ hq

theorem fetchAdjust_answers_dec {r : Reader} {rest : List Bool} (hb : r.bits = encode noCodes .lenDec ++ rest) :
    Answers (fetchAdjust r) .lenDec rest r.src :=
  answers_readBit hb fun _ hq => answers_readBit hq fun _ hq => answers_ok _ hq

/-! ## The places -/

/-- Where the decoder stands and with the reader at `r`, the element `i` is fetched, and the bits `rest` stay. -/
def FetchesBack (d : Decoder) (r : Reader) (i : Instr) (rest : List Bool) : Prop :=
  ∃ r', fetchElement d r = some (.ok i, r') ∧ r'.bits = rest ∧ r'.src = r.src

theorem Answers.fetchesBack {d : Decoder} {r : Reader} {x : Fetched Instr} {i : Instr} {rest : List Bool}
    (h : Answers x i rest r.src) (hx : fetchElement d r = some x) : FetchesBack d r i rest := by
  obtain ⟨q, rfl, hrest, hsrc⟩ := h
  exact ⟨q, hx, hrest, hsrc⟩

theorem fetchElement_betweenBlocks {d : Decoder} (r : Reader) (hd : d.state = .expectBlockHeader)
    (hs : d.scratch = none) : fetchElement d r = some (fetchMagic r) := by
  simp only [fetchElement, hd, hs]

theorem fetchElement_inBlock {d : Decoder} {sc : DecScratch} (r : Reader) (hd : d.state = .expectBlockHeader)
    (hs : d.scratch = some sc) : fetchElement d r = some (fetchBlock sc r) := by
  simp only [fetchElement, hd, hs]

/-- A field of fixed width inside a block is fetched back. -/
theorem fetchesBack_field {d : Decoder} {r : Reader} {p : BlockPos} {n v : Nat} {f : Nat → Instr} {i : Instr}
    {rest : List Bool} (hat : d.state = .expectBlockHeader ∧ ∃ sc, d.scratch = some sc ∧ sc.pos = p)
    (hp : ∀ sc : DecScratch, sc.pos = p → fetchBlock sc r = fetchField n f r) (hi : f v = i)
    (hb : r.bits = bitsOf n v ++ rest) (hv : v < 2 ^ n) : FetchesBack d r i rest := by
  obtain ⟨hd, sc, hs, hpos⟩ := hat
  rw [← hi]
  exact (fetchField_answers f hb hv).fetchesBack (by rw [fetchElement_inBlock r hd hs, hp sc hpos])

/-- A step of a table's lengths is fetched back. -/
theorem fetchesBack_adjust {d : Decoder} {r : Reader} {i : Instr} {rest : List Bool}
    (hat : d.state = .expectBlockHeader ∧ ∃ sc, d.scratch = some sc ∧ sc.pos = .lenAdjust)
    (h : Answers (fetchAdjust r) i rest r.src) : FetchesBack d r i rest := by
  obtain ⟨hd, sc, hs, hpos⟩ := hat
  exact h.fetchesBack (by rw [fetchElement_inBlock r hd hs, fetchBlock, hpos])

/-- Every element but HUFF_SYMBOL is fetched back from its bits where the decoder stands at it (30_encoding R80). -/
theorem fetchesBack_of_standsFor {d : Decoder} {r : Reader} {i : Instr} {rest : List Bool} {book : CodeBook}
    (h : Claims.standsFor d i) (hb : r.bits = encode book i ++ rest) : FetchesBack d r i rest := by
  cases i with
  | streamHeader k =>
    have hd : d.state = .expectStreamHeader := h
    exact (fetchHeader_answers hb).fetchesBack (by simp only [fetchElement, hd])
  | blockMagic => exact (fetchMagic_answers_block hb).fetchesBack (fetchElement_betweenBlocks r h.1 h.2)
  | eosMagic => exact (fetchMagic_answers_eos hb).fetchesBack (fetchElement_betweenBlocks r h.1 h.2)
  | combinedCrc c =>
    have hd : d.state = .expectStreamTrailer := h
    have hf : combinedCrcField c.toNat = .combinedCrc c := by simp [combinedCrcField]
    have ha := fetchField_answers combinedCrcField hb c.isLt
    rw [hf] at ha
    exact ha.fetchesBack (by simp only [fetchElement, hd]; rfl)
  | blockCrc c => exact fetchesBack_field h (fun _ hp => by rw [fetchBlock, hp]) (by simp [blockCrcField]) hb c.isLt
  | rand b =>
    refine fetchesBack_field (v := b.toNat) h (fun _ hp => by rw [fetchBlock, hp]) ?_ ?_ b.toNat_lt
    · cases b <;> rfl
    · cases b <;> exact hb
  | origPtr p => exact fetchesBack_field h (fun _ hp => by rw [fetchBlock, hp]) (by simp [origPtrField]) hb p.isLt
  | inUse16 g => exact fetchesBack_field h (fun _ hp => by rw [fetchBlock, hp]) (by simp [inUse16Field]) hb g.isLt
  | inUseWord u => exact fetchesBack_field h (fun _ hp => by rw [fetchBlock, hp]) (by simp [inUseWordField]) hb u.isLt
  | nGroups n => exact fetchesBack_field h (fun _ hp => by rw [fetchBlock, hp]) (by simp [nGroupsField]) hb n.isLt
  | nSelectors n => exact fetchesBack_field h (fun _ hp => by rw [fetchBlock, hp]) (by simp [nSelectorsField]) hb n.isLt
  | lenStart l => exact fetchesBack_field h (fun _ hp => by rw [fetchBlock, hp]) (by simp [lenStartField]) hb l.isLt
  | selectorMtf j =>
    obtain ⟨hd, sc, hs, hpos, hj⟩ := h
    have ha := fetchUnary_answers 0 hj hb
    rw [Nat.zero_add] at ha
    exact ha.fetchesBack (by rw [fetchElement_inBlock r hd hs, fetchBlock, hpos])
  | lenInc => exact fetchesBack_adjust h (fetchAdjust_answers_inc hb)
  | lenDec => exact fetchesBack_adjust h (fetchAdjust_answers_dec hb)
  | lenStop => exact fetchesBack_adjust h (fetchAdjust_answers_stop hb)
  | _ => exact h.elim

end Sys2Proof.Machine
end
section
/-! SUPPORT. Canonical codes under their decode tables (43_huffman R211, R226, R227): codes in their length's range, no
code the start of another, and each symbol's code decoded to the symbol. -/

namespace Sys2Proof.Machine

/-! ## The codes of each length -/

/-- The room taken by the lengths up to `k + 1`: that of the lengths up to `k`, and that of the length `k + 1`. -/
theorem sum_upTo_succ (f : Nat → Nat) (lens : List Nat) (k : Nat) :
    ((lens.filter fun l => decide (l ≤ k + 1)).map f).sum =
      ((lens.filter fun l => decide (l ≤ k)).map f).sum + lens.count (k + 1) * f (k + 1) := by
  induction lens with
  | nil => simp
  | cons l ls ih =>
    rcases Nat.lt_trichotomy l (k + 1) with h | rfl | h
    · rw [List.filter_cons_of_pos (by simpa using h.le), List.filter_cons_of_pos (by simpa using Nat.le_of_lt_succ h),
        List.count_cons_of_ne (by omega), List.map_cons, List.map_cons, List.sum_cons, List.sum_cons, ih, Nat.add_assoc]
    · rw [List.filter_cons_of_pos (by simp), List.filter_cons_of_neg (by simp), List.count_cons_self, List.map_cons,
        List.sum_cons, ih]
      ring
    · rw [List.filter_cons_of_neg (by simpa using h), List.filter_cons_of_neg (by simp; omega),
        List.count_cons_of_ne (by omega), ih]

/-- The codes up to the last of length `k` take up the room of the lengths up to `k`. -/
theorem firstCode_room (lens : List Nat) {n k : Nat} (hk : k ≤ n) :
    (firstCode lens k + lens.count k) * 2 ^ (n - k) =
      ((lens.filter fun l => decide (l ≤ k)).map fun l => 2 ^ (n - l)).sum := by
  induction k with
  | zero =>
    simp only [Nat.le_zero, List.filter_eq, List.map_replicate, List.sum_replicate, smul_eq_mul, firstCode, Nat.zero_add]
  | succ k ih =>
    rw [sum_upTo_succ, ← ih (by omega), firstCode, show n - k = n - (k + 1) + 1 by omega, pow_succ]
    ring

/-- A set of lengths that leaves room for every code has no code past the last of its length. -/
theorem codes_fit {lens : List Nat} {n k : Nat} (hroom : (lens.map fun l => 2 ^ (n - l)).sum ≤ 2 ^ n) (hk : k ≤ n) :
    firstCode lens k + lens.count k ≤ 2 ^ k := by
  have hsub : ((lens.filter fun l => decide (l ≤ k)).map fun l => 2 ^ (n - l)).sum ≤ 2 ^ n :=
    (List.Sublist.sum_le_sum (List.filter_sublist.map _) fun _ _ => Nat.zero_le _).trans hroom
  rw [← firstCode_room lens hk, show n = k + (n - k) by omega, pow_add, Nat.add_sub_cancel_left] at hsub
  exact Nat.le_of_mul_le_mul_right hsub (Nat.two_pow_pos _)

/-- The codes of a longer length come after those of a shorter one, extended. -/
theorem codes_before_firstCode (lens : List Nat) {k l : Nat} (h : k < l) :
    (firstCode lens k + lens.count k) * 2 ^ (l - k) ≤ firstCode lens l := by
  induction l, h using Nat.le_induction with
  | base => simp [firstCode, Nat.mul_comm]
  | succ l h ih =>
    have e : l + 1 - k = l - k + 1 := by omega
    rw [e, pow_succ, ← Nat.mul_assoc, firstCode, Nat.mul_comm 2]
    exact Nat.mul_le_mul_right 2 (ih.trans (Nat.le_add_right _ _))

/-- No code is shorter than the shortest length. -/
theorem firstCode_eq_zero {lens : List Nat} {k : Nat} (h : ∀ l ∈ lens, k ≤ l) : firstCode lens k = 0 := by
  induction k with
  | zero => rfl
  | succ k ih =>
    have hc : lens.count k = 0 := List.count_eq_zero.2 fun hm => by have := h k hm; omega
    rw [firstCode, ih fun l hl => (Nat.le_succ k).trans (h l hl), hc]

theorem shorterCount_eq_zero {lens : List Nat} {k : Nat} (h : ∀ l ∈ lens, k ≤ l) : shorterCount lens k = 0 :=
  List.countP_eq_zero.2 fun l hl => by simpa using h l hl

/-! ## The place of a symbol in `perm` -/

theorem map_range_getD {lens : List Nat} {v : Nat} (h : v ≤ lens.length) :
    ((List.range v).map fun i => lens.getD i 0) = lens.take v := by
  refine List.ext_getElem (by simp [h]) fun i hi _ => ?_
  have hv : i < v := by simpa using hi
  rw [List.getElem_map, List.getElem_range, List.getElem_take, List.getD_eq_getElem _ _ (hv.trans_le h)]

/-- A symbol stands among those of its length after the lower ones. -/
theorem sameLength_getElem? {lens : List Nat} {v : Nat} (hv : v < lens.length) :
    ((List.range lens.length).filter fun i => lens.getD i 0 = lens.getD v 0)[(lens.take v).count (lens.getD v 0)]? =
      some v := by
  have hlow : ((List.range v).filter fun i => lens.getD i 0 = lens.getD v 0).length =
      (lens.take v).count (lens.getD v 0) := by
    rw [← map_range_getD hv.le, List.count, List.countP_map, List.countP_eq_length_filter]
    congr 2
  obtain ⟨k, hk⟩ := Nat.exists_eq_add_of_lt hv
  rw [hk, Nat.add_assoc, List.range_add, Nat.add_comm k 1, List.range_add, List.filter_append,
    List.getElem?_append_right hlow.le, hlow, Nat.sub_self]
  simp

/-- In `perm`, the symbols of the lengths below `l` are as many as are shorter. -/
theorem shorter_length {lens : List Nat} {lo l : Nat} (hlo : ∀ x ∈ lens, lo ≤ x) :
    ((List.range' lo (l - lo)).flatMap fun k => (List.range lens.length).filter fun i => lens.getD i 0 = k).length =
      shorterCount lens l := by
  have hfull := map_range_getD (le_refl lens.length)
  rw [List.take_length] at hfull
  have hmem : ∀ x ∈ lens, (x ∈ List.range' lo (l - lo) ↔ x < l) := fun x hx => by
    have := hlo x hx
    rw [List.mem_range'_1]; omega
  calc _ = ((List.range lens.length).filter fun i => decide (lens.getD i 0 ∈ List.range' lo (l - lo))).length :=
        (byKey_perm (fun i => lens.getD i 0) _ _ List.nodup_range').length_eq
    _ = lens.countP fun x => decide (x ∈ List.range' lo (l - lo)) := by
        rw [← List.countP_eq_length_filter]
        conv_rhs => rw [← hfull, List.countP_map]
        rfl
    _ = shorterCount lens l := List.countP_congr fun x hx => by simpa using hmem x hx

/-- The symbols of a length stand in `perm` after all of shorter lengths. -/
theorem permOf_getElem? {lens : List Nat} {lo hi v : Nat} (hlens : ∀ l ∈ lens, lo ≤ l ∧ l ≤ hi) (hv : v < lens.length) :
    (permOf lens lo hi)[shorterCount lens (lens.getD v 0) + (lens.take v).count (lens.getD v 0)]? = some v := by
  have hsame := sameLength_getElem? hv
  obtain ⟨hlo, hhi⟩ := hlens (lens.getD v 0) (by rw [List.getD_eq_getElem _ _ hv]; exact List.getElem_mem hv)
  generalize hl : lens.getD v 0 = l at hsame hlo hhi ⊢
  have hsplit : (List.range (hi + 1)).drop lo = List.range' lo (l - lo) ++ l :: List.range' (l + 1) (hi - l) := by
    obtain ⟨d, rfl⟩ := Nat.exists_eq_add_of_le hlo
    obtain ⟨e, rfl⟩ := Nat.exists_eq_add_of_le hhi
    rw [← List.range'_succ, Nat.add_sub_cancel_left, Nat.add_sub_cancel_left, List.range'_append_1,
      List.range_eq_range', List.drop_range']
    congr 1 <;> omega
  have hshort := shorter_length (l := l) fun x hx => (hlens x hx).1
  rw [permOf, hsplit, List.flatMap_append, List.flatMap_cons, List.getElem?_append_right (by omega), hshort,
    Nat.add_sub_cancel_left, List.getElem?_append_left (List.getElem?_eq_some_iff.1 hsame).1, hsame]

/-! ## The decode tables -/

theorem codeOf_lt {lens : List Nat} {v : Nat} (hv : v < lens.length) :
    codeOf lens v < firstCode lens (lens.getD v 0) + lens.count (lens.getD v 0) := by
  have hc : lens.count (lens.getD v 0) = (lens.take v).count (lens.getD v 0) + (lens.drop v).count (lens.getD v 0) := by
    rw [← List.count_append, List.take_append_drop]
  rw [List.drop_eq_getElem_cons hv, List.getD_eq_getElem _ _ hv, List.count_cons_self] at hc
  rw [codeOf, List.getD_eq_getElem _ _ hv]
  omega

theorem canonicalCodes_getD {lens : List Nat} {v : Nat} (hv : v < lens.length) :
    (canonicalCodes lens).getD v 0 = codeOf lens v := by
  rw [canonicalCodes, List.getD_eq_getElem _ _ (by simpa using hv)]
  simp

theorem limit_getD {lens : List Nat} {l : Nat} (hlo : minLength lens ≤ l) (hhi : l ≤ maxLength lens) (h : l < 22) :
    (buildDecTable lens).limit.getD l 0 = firstCode lens l + lens.count l - 1 := by
  rw [buildDecTable, List.getD_eq_getElem _ _ (by simpa using h)]
  simp [limitOf, hlo, hhi]

theorem base_getD {lens : List Nat} {l : Nat} (hlo : minLength lens ≤ l) (hhi : l ≤ maxLength lens) (h : l < 22)
    (hmin : ∀ x ∈ lens, minLength lens ≤ x) :
    (buildDecTable lens).base.getD l 0 = firstCode lens l - shorterCount lens l := by
  rw [buildDecTable, List.getD_eq_getElem _ _ (by simpa using h), List.getElem_map, List.getElem_range, baseOf]
  rcases hlo.eq_or_lt with rfl | hlt
  · rw [if_neg (by omega), firstCode_eq_zero hmin, shorterCount_eq_zero hmin]; rfl
  · obtain ⟨l, rfl⟩ := Nat.exists_eq_succ_of_ne_zero (by omega : l ≠ 0)
    rw [if_pos ⟨hlt, hhi⟩, Nat.succ_sub_one, limitOf, if_pos ⟨by omega, by omega⟩, firstCode]
    push_cast
    ring

/-! ## Decoding a code (43 R227) -/

/-- The first `a` bits of a field, and the others. -/
theorem bitsOf_add (a b v : Nat) : bitsOf (a + b) v = bitsOf a (v / 2 ^ b) ++ bitsOf b v := by
  induction a with
  | zero => rw [Nat.zero_add]; rfl
  | succ a ih =>
    rw [Nat.add_right_comm, bitsOf, ih, bitsOf, Nat.testBit_div_two_pow, List.cons_append]

section
variable {lens : List Nat} {v : Nat} {r : Reader} {rest : List Bool} (hlens : ∀ l ∈ lens, 1 ≤ l ∧ l ≤ 20)
  (hv : v < lens.length)
include hlens hv

theorem length_bounds : minLength lens ≤ lens.getD v 0 ∧ lens.getD v 0 ≤ maxLength lens ∧ lens.getD v 0 ≤ 20 := by
  have hne : lens ≠ [] := List.ne_nil_of_length_pos (by omega)
  have hmem : lens.getD v 0 ∈ lens := by rw [List.getD_eq_getElem _ _ hv]; exact List.getElem_mem hv
  exact ⟨(minLength_spec hne).2 _ hmem, (maxLength_spec hne).2 _ hmem, (hlens _ hmem).2⟩

/-- A whole code is looked up to its symbol. -/
theorem symbolAt_codeOf (r : Reader) :
    symbolAt (buildDecTable lens) (lens.getD v 0) (codeOf lens v) r = (.ok (.huffSymbol v), r) := by
  have hne : lens ≠ [] := List.ne_nil_of_length_pos (by omega)
  obtain ⟨hlo, hhi, h20⟩ := length_bounds hlens hv
  have hidx : (codeOf lens v : Int) - (buildDecTable lens).base.getD (lens.getD v 0) 0 =
      (shorterCount lens (lens.getD v 0) + (lens.take v).count (lens.getD v 0) : Nat) := by
    rw [base_getD hlo hhi (by omega) (minLength_spec hne).2, codeOf]
    push_cast
    ring
  have hperm := permOf_getElem? (fun l hl => ⟨(minLength_spec hne).2 l hl, (maxLength_spec hne).2 l hl⟩) hv
  simp only [symbolAt, hidx, Int.toNat_natCast]
  rw [if_neg (by omega), buildDecTable, hperm]

/-- With the code's first bits read and its last `m` to come, the loop reads those and finds the symbol. -/
theorem extendCode_answers {m zn fuel : Nat} (hzn : zn + m = lens.getD v 0) (hlo : minLength lens ≤ zn) (hf : m < fuel)
    (hb : r.bits = bitsOf m (codeOf lens v) ++ rest) :
    Answers (extendCode (buildDecTable lens) fuel zn (codeOf lens v / 2 ^ m) r) (.huffSymbol v) rest r.src := by
  obtain ⟨-, hhi, h20⟩ := length_bounds hlens hv
  induction m generalizing zn fuel r with
  | zero =>
    obtain ⟨fuel, rfl⟩ := Nat.exists_eq_succ_of_ne_zero (by omega : fuel ≠ 0)
    have hlimit := limit_getD (lens := lens) hlo (by omega) (by omega)
    have hlt := codeOf_lt hv
    rw [Nat.add_zero] at hzn
    subst hzn
    rw [extendCode, if_neg (by rw [hlimit, pow_zero, Nat.div_one]; omega), pow_zero, Nat.div_one,
      symbolAt_codeOf hlens hv]
    exact answers_ok _ hb
  | succ m ih =>
    obtain ⟨fuel, rfl⟩ := Nat.exists_eq_succ_of_ne_zero (by omega : fuel ≠ 0)
    have hlimit := limit_getD (lens := lens) hlo (by omega) (by omega)
    have hpast : firstCode lens zn + lens.count zn ≤ codeOf lens v / 2 ^ (m + 1) := by
      have := codes_before_firstCode lens (show zn < lens.getD v 0 by omega)
      rw [Nat.le_div_iff_mul_le (Nat.two_pow_pos _), ← show lens.getD v 0 - zn = m + 1 by omega]
      exact this.trans (Nat.le_add_right _ _)
    have hnext : 2 * (codeOf lens v / 2 ^ (m + 1)) + ((codeOf lens v).testBit m).toNat = codeOf lens v / 2 ^ m := by
      rw [Nat.toNat_testBit, pow_succ, ← Nat.div_div_eq_div_mul]
      omega
    rw [extendCode, if_pos (by rw [hlimit]; omega), if_neg (by rw [maxCodeLen]; omega)]
    refine answers_readBit hb fun q hq => ?_
    rw [hnext]
    exact ih (by omega) (by omega) (by omega) hq

/-- A symbol's canonical code is decoded to the symbol, and exactly its bits are consumed (43 R227, R229). -/
theorem decodeSymbol_answers (hroom : (lens.map fun l => 2 ^ (20 - l)).sum ≤ 2 ^ 20)
    (hb : r.bits = encode (bookOf lens (canonicalCodes lens)) (.huffSymbol v) ++ rest) :
    Answers (decodeSymbol (buildDecTable lens) r) (.huffSymbol v) rest r.src := by
  obtain ⟨hlo, -, h20⟩ := length_bounds hlens hv
  obtain ⟨m, hm⟩ := Nat.exists_eq_add_of_le hlo
  have hcode : codeOf lens v / 2 ^ m < 2 ^ minLength lens := by
    rw [Nat.div_lt_iff_lt_mul (Nat.two_pow_pos _), ← pow_add, ← hm]
    exact (codeOf_lt hv).trans_le (codes_fit hroom h20)
  rw [encode, bookOf, canonicalCodes_getD hv, hm, bitsOf_add, List.append_assoc] at hb
  exact answers_readField hb hcode fun q hq =>
    extendCode_answers hlens hv hm.symm le_rfl (by rw [maxCodeLen]; omega) hq

end

/-! ## The symbol of a group -/

theorem nextGroup_of_inGroup {sc : DecScratch} {g : Nat} (h : Claims.inGroup sc g) :
    g < sc.nSelectors ∧ (nextGroup sc).1 = g + 1 := by
  obtain ⟨hg, ⟨hl, rfl⟩ | ⟨hl, hu⟩⟩ := h
  · exact ⟨hg, by rw [nextGroup, if_pos hl]⟩
  · exact ⟨hg, by rw [nextGroup, if_neg hl, hu]⟩

/-- A symbol is decoded under the table its group's selector names (43 R228). -/
theorem fetchSymbol_inGroup {sc : DecScratch} {g t : Nat} {table : DecTable} (r : Reader) (hg : Claims.inGroup sc g)
    (hsel : sc.selector[g]? = some t) (ht : sc.tables[t]? = some table) : fetchSymbol sc r = decodeSymbol table r := by
  obtain ⟨hlt, hnext⟩ := nextGroup_of_inGroup hg
  have hsel : sc.selector.getD g 0 = t := by rw [List.getD_eq_getElem?_getD, hsel, Option.getD_some]
  rw [fetchSymbol, hnext, if_neg (by omega), Nat.add_sub_cancel, hsel, ht]

/-- Settles O7: every element at its place by its own read; a symbol by its canonical code. -/
theorem elementsFetchBackFromTheirBits : Obligations.ElementsFetchBackFromTheirBits := by
  refine ⟨fun d r i rest book h hb => fetchesBack_of_standsFor h hb, ?_⟩
  intro d sc r rest g t v lens hd hs hpos hg hsel ht hlens hroom hv hb
  exact (decodeSymbol_answers hlens hv hroom hb).fetchesBack
    (by rw [fetchElement_inBlock r hd hs, fetchBlock, hpos]; exact congrArg some (fetchSymbol_inGroup r hg hsel ht))

end Sys2Proof.Machine
end

section
/-! SUPPORT. Command words: the fields of a word, which words decode, and what each decodes to (30_encoding R100..R103). -/

namespace Sys2Proof

open Claims

/-! ## The fields of a word -/

theorem fields_append (op f : BitVec 8) (z : BitVec 16) :
    opField (op ++ f ++ z) = op ∧ fField (op ++ f ++ z) = f ∧ zField (op ++ f ++ z) = z := by
  refine ⟨?_, ?_, BitVec.extractLsb'_append_eq_right⟩
  · rw [opField, BitVec.extractLsb'_append_eq_of_le (by decide)]; exact BitVec.extractLsb'_append_eq_left
  · rw [fField, BitVec.extractLsb'_append_eq_of_le (by decide)]; exact BitVec.extractLsb'_append_eq_right

theorem append_fields (w : Word) : opField w ++ fField w ++ zField w = w := by
  have hhigh : opField w ++ fField w = w.extractLsb' 16 16 :=
    BitVec.extractLsb'_append_extractLsb'_eq_extractLsb' rfl
  rw [hhigh]
  exact BitVec.extractLsb'_append_extractLsb'

/-- The word has the instruction's opcode and operand, and its `Z` is 0 (30_encoding R100). -/
def IsWordOf (i : Instr) (w : Word) : Prop :=
  opcodeOf i = some (opField w) ∧ operandOf i = fField w ∧ zField w = 0

theorem encodeCmd_eq_some_iff {i : Instr} {w : Word} : encodeCmd i = some w ↔ IsWordOf i w := by
  rw [encodeCmd, Option.map_eq_some_iff]
  constructor
  · rintro ⟨op, hop, rfl⟩
    obtain ⟨h1, h2, h3⟩ := fields_append op (operandOf i) 0
    exact ⟨hop.trans (congrArg some h1.symm), h2.symm, h3⟩
  · rintro ⟨hop, hf, hz⟩
    exact ⟨opField w, hop, by rw [hf, ← hz, append_fields]⟩

/-! ## Words that decode -/

theorem plainCommand_ok_iff {i j : Instr} {w : Word} :
    plainCommand j w = .ok i ↔ j = i ∧ fField w = 0 ∧ zField w = 0 := by
  by_cases hz : zField w = 0
  · by_cases hf : fField w = 0
    · rw [plainCommand, if_pos hz, if_pos hf]; simp only [Except.ok.injEq, hf, hz, and_true]
    · rw [plainCommand, if_pos hz, if_neg hf]; simp only [reduceCtorEq, hf, false_and, and_false]
  · rw [plainCommand, if_neg hz]; simp only [reduceCtorEq, hz, and_false]

theorem operandCommand_ok_iff {i : Instr} {j : BitVec 8 → Instr} {w : Word} :
    operandCommand j w = .ok i ↔ j (fField w) = i ∧ zField w = 0 := by
  by_cases hz : zField w = 0
  · rw [operandCommand, if_pos hz]; simp only [Except.ok.injEq, hz, and_true]
  · rw [operandCommand, if_neg hz]; simp only [reduceCtorEq, hz, and_false]

theorem isWordOf_of_plain {i j : Instr} {w : Word} {op : Nat} (hop : (opField w).toNat = op)
    (hj : opcodeOf j = some (BitVec.ofNat 8 op)) (h0 : operandOf j = 0) (h : plainCommand j w = .ok i) : IsWordOf i w := by
  obtain ⟨rfl, hf, hz⟩ := plainCommand_ok_iff.1 h
  exact ⟨by rw [hj, ← hop, BitVec.ofNat_toNat, BitVec.setWidth_eq], by rw [h0, hf], hz⟩

theorem isWordOf_of_operand {i : Instr} {j : BitVec 8 → Instr} {w : Word} {op : Nat} (hop : (opField w).toNat = op)
    (hj : ∀ f, opcodeOf (j f) = some (BitVec.ofNat 8 op)) (h0 : ∀ f, operandOf (j f) = f)
    (h : operandCommand j w = .ok i) : IsWordOf i w := by
  obtain ⟨rfl, hz⟩ := operandCommand_ok_iff.1 h
  exact ⟨by rw [hj, ← hop, BitVec.ofNat_toNat, BitVec.setWidth_eq], h0 _, hz⟩

/-- Row by row of the opcode map; five rows take an operand. -/
theorem isWordOf_of_decodeCmd {i : Instr} {w : Word} (h : decodeCmd w = .ok i) : IsWordOf i w := by
  unfold decodeCmd at h
  split at h
  case h_16 => cases h
  case h_3 hop | h_5 hop | h_7 hop | h_11 hop | h_12 hop =>
    exact isWordOf_of_operand hop (fun _ => rfl) (fun _ => rfl) h
  all_goals next hop => exact isWordOf_of_plain hop rfl rfl h

theorem decodeCmd_of_isWordOf {i : Instr} {w : Word} (h : IsWordOf i w) : decodeCmd w = .ok i := by
  obtain ⟨hop, hf, hz⟩ := h
  cases i with
  | bwWriteBits _ | brReadBits _ | crcUpdate _ | encInit _ | encWrite _ =>
    rw [decodeCmd, ← Option.some.inj hop]
    exact operandCommand_ok_iff.2 ⟨congrArg _ hf.symm, hz⟩
  | nop | reset | bwFinish | crcReset | crcValue | crcCombReset | crcCombine | encClose | decInit | decRead =>
    rw [decodeCmd, ← Option.some.inj hop]
    exact plainCommand_ok_iff.2 ⟨rfl, hf.symm, hz⟩
  | _ => cases hop

/-- Settles O4: both sides say that the word has the instruction's opcode and operand, and `Z` 0. -/
theorem commandWordsDecodeAndEncodeAgree : Obligations.CommandWordsDecodeAndEncodeAgree := fun _ _ =>
  encodeCmd_eq_some_iff.trans ⟨decodeCmd_of_isWordOf, isWordOf_of_decodeCmd⟩

/-- Settles O3: the fifteen words, each decoded. -/
theorem opcodeMapWordsDecode : Obligations.OpcodeMapWordsDecode := by
  unfold Obligations.OpcodeMapWordsDecode
  decide

/-! ## Words that do not -/

theorem plainCommand_error_iff {i : Instr} {c : Cause} {w : Word} :
    plainCommand i w = .error c ↔ (zField w ≠ 0 ∨ fField w ≠ 0) ∧ c = .illegalCommand := by
  unfold plainCommand
  split_ifs with hz hf
  · simp [hz, hf]
  · exact ⟨fun h => ⟨.inr hf, (Except.error.inj h).symm⟩, fun h => congrArg _ h.2.symm⟩
  · exact ⟨fun h => ⟨.inl hz, (Except.error.inj h).symm⟩, fun h => congrArg _ h.2.symm⟩

theorem operandCommand_error_iff {i : BitVec 8 → Instr} {c : Cause} {w : Word} :
    operandCommand i w = .error c ↔ zField w ≠ 0 ∧ c = .illegalCommand := by
  unfold operandCommand
  split_ifs with hz
  · simp [hz]
  · exact ⟨fun h => ⟨hz, (Except.error.inj h).symm⟩, fun h => congrArg _ h.2.symm⟩

/-- An opcode is of a command without operand, of one with an operand, or outside the map (30_encoding R101). -/
theorem decodeCmd_cases (w : Word) :
    ((opField w).toNat ∈ plainOps ∧ ∃ i, decodeCmd w = plainCommand i w) ∨
    ((opField w).toNat ∈ operandOps ∧ ∃ i, decodeCmd w = operandCommand i w) ∨
    ((opField w).toNat ∉ operandOps ++ plainOps ∧ decodeCmd w = .error .illegalCommand) := by
  unfold decodeCmd
  split
  case h_16 =>
    refine .inr (.inr ⟨fun hmem => ?_, rfl⟩)
    simp only [operandOps, plainOps, List.cons_append, List.nil_append, List.mem_cons, List.not_mem_nil, or_false] at hmem
    grind
  case h_3 hop | h_5 hop | h_7 hop | h_11 hop | h_12 hop =>
    exact .inr (.inl ⟨by rw [hop]; decide, _, rfl⟩)
  all_goals next hop => exact .inl ⟨by rw [hop]; decide, _, rfl⟩

theorem not_mem_plainOps_of_operand : ∀ op ∈ operandOps, op ∉ plainOps := by decide

/-- A word does not decode exactly when it breaks one of checks 1 to 3, and then the cause is IllegalCommand. -/
theorem decodeCmd_error_iff {w : Word} {c : Cause} :
    decodeCmd w = .error c ↔
      ((opField w).toNat ∉ operandOps ++ plainOps ∨ zField w ≠ 0 ∨ ((opField w).toNat ∈ plainOps ∧ fField w ≠ 0)) ∧
        c = .illegalCommand := by
  obtain ⟨hop, i, hi⟩ | ⟨hop, i, hi⟩ | ⟨hop, hi⟩ := decodeCmd_cases w
  · rw [hi, plainCommand_error_iff]
    simp [hop]
  · have hplain : (opField w).toNat ∉ plainOps := not_mem_plainOps_of_operand _ hop
    rw [hi, operandCommand_error_iff]
    simp [hop, hplain]
  · rw [hi]
    simp [hop, eq_comm (b := c)]

/-- Settles O5: the words that break checks 1 to 3, with their one cause. -/
theorem illegalWordsAreExactlyTheUndefined : Obligations.IllegalWordsAreExactlyTheUndefined := by
  intro w
  constructor
  · simp only [decodeCmd_error_iff, exists_and_left, exists_eq, and_true]
  · intro c h
    exact (decodeCmd_error_iff.1 h).2

end Sys2Proof
end

section
/-! SUPPORT. Commands the state or the operand refuses (44_stream_encoder R251, R252, R256, 45_stream_decoder R282), and
wire elements where the decoder does not stand (log 1). -/

namespace Sys2Proof.Machine

/-- Refusing a command is recording its cause (60_exceptions R343). -/
theorem reject_eq_recorded (c : Cause) (s : State) : reject c s = .next (Claims.recorded c s) := rfl

theorem execEncInit_refused {k : BitVec 8} (s : State) (h : k.toNat < 1 ∨ 9 < k.toNat) :
    execEncInit k s = reject .badBlockSize s := if_pos h

theorem execEncWrite_refused {s : State} (b : Byte) (h : s.enc.state = .idle ∨ s.enc.state = .closed) :
    execEncWrite b s = reject .commandStateError s := by
  rcases h with h | h <;> rw [execEncWrite, h]

theorem execEncClose_refused {s : State} (h : s.enc.state = .idle) : execEncClose s = reject .commandStateError s := by
  rw [execEncClose, h]

theorem execDecRead_refused {s : State} (h : s.dec.state = .idle) : execDecRead s = reject .commandStateError s := by
  rw [execDecRead, h]

/-- Settles O30: each of the four is refused, and a refusal only records. -/
theorem refusedCommandsHaveNoEffect : Obligations.RefusedCommandsHaveNoEffect := fun s =>
  ⟨fun _ h => (execEncInit_refused s h).trans (reject_eq_recorded _ s),
    fun h b => (execEncWrite_refused b h).trans (reject_eq_recorded _ s),
    fun h => (execEncClose_refused h).trans (reject_eq_recorded _ s),
    fun h => (execDecRead_refused h).trans (reject_eq_recorded _ s)⟩

/-! ## Elements out of place -/

theorem atStream_elsewhere {d : DecState} {s : State} (k : Host.Outcome State Fault Refusal)
    (h : s.reading = true → s.dec.state ≠ d) : atStream d s k = .fault .elementOutOfPlace :=
  if_neg fun hat => h hat.1 hat.2.1

theorem atBlock_elsewhere {s : State} (p : BlockPos) (k : DecScratch → Host.Outcome State Fault Refusal)
    (h : s.reading = true → s.dec.state ≠ .expectBlockHeader) : atBlock p s k = .fault .elementOutOfPlace := by
  unfold atBlock
  split
  · exact if_neg fun hat => h hat.1 hat.2.1
  · rfl

/-- Settles O60: each element asks for a DEC_READ in progress and for one of three places, and none is there. -/
theorem elementsStopOutOfPlace : Obligations.ElementsStopOutOfPlace := by
  intro i s hi hpad hs
  have elsewhere : ∀ d ∈ [DecState.expectStreamHeader, .expectBlockHeader, .expectStreamTrailer],
      s.reading = true → s.dec.state ≠ d := by
    rintro d hd hr rfl
    rcases hs with hs | hs | hs | hs | hs
    · exact absurd (hr.symm.trans hs) (by decide)
    all_goals exact absurd hd (by rw [hs]; decide)
  cases i with
  | streamHeader | blockMagic | eosMagic | combinedCrc => exact atStream_elsewhere _ (elsewhere _ (by decide))
  | blockCrc | rand | origPtr | inUse16 | inUseWord | nGroups | nSelectors | selectorMtf | lenStart | lenInc | lenDec
  | lenStop | huffSymbol => exact atBlock_elsewhere _ _ (elsewhere _ (by decide))
  | pad z => exact absurd rfl (hpad z)
  | _ => cases hi

end Sys2Proof.Machine
end

section
/-! SUPPORT. Bit input and output: what WriteBits, Finish and ReadBits push and pull (40_bitio R120..R124), and the three
commands over them (40_bitio R125..R127). -/

namespace Sys2Proof.Machine

/-! ## What a write pushes -/

theorem bitsOf_eq_map_range (n v : Nat) : bitsOf n v = (List.range n).map fun i => v.testBit (n - 1 - i) := by
  refine List.ext_getElem (by simp) fun i hi _ => ?_
  rw [bitsOf_length] at hi
  obtain ⟨_, hbit⟩ := List.getElem?_eq_some_iff.1 (bitsOf_getElem? v hi)
  rw [hbit, List.getElem_map, List.getElem_range]

theorem Writer.bits_length (w : Writer) : w.bits.length = 8 * w.sink.length + w.acc.length := by
  rw [Writer.bits, List.length_append, List.length_flatMap]
  simp [Nat.mul_comm]

/-- Fewer than 8 bits wait before and after, so the number of bits written says how many bytes were pushed (40_bitio R121). -/
theorem writeBitList_lengths (bs : List Bool) {w : Writer} (h : w.acc.length ≤ 7) :
    (writeBitList bs w).acc.length = (w.acc.length + bs.length) % 8 ∧
    (writeBitList bs w).sink.length = w.sink.length + (w.acc.length + bs.length) / 8 ∧
    (writeBitList bs w).count = w.count + (w.acc.length + bs.length) / 8 := by
  have hle := writeBitList_acc_le bs w h
  have hcount := writeBitList_count bs w
  have hbits := congrArg List.length (writeBitList_bits bs w)
  rw [List.length_append, Writer.bits_length, Writer.bits_length] at hbits
  omega

theorem writeBits_lengths (n v : Nat) {w : Writer} (h : w.acc.length ≤ 7) :
    (writeBits n v w).acc.length = (w.acc.length + n) % 8 ∧
    (writeBits n v w).sink.length = w.sink.length + (w.acc.length + n) / 8 ∧
    (writeBits n v w).count = w.count + (w.acc.length + n) / 8 := by
  have hlen := writeBitList_lengths (bitsOf n v) h
  rwa [bitsOf_length] at hlen

/-- Settles O14: the bits are appended one by one, and the bytes pushed follow from their number. -/
theorem writeBitsAppendsMsbFirst : Obligations.WriteBitsAppendsMsbFirst := fun n v w h =>
  ⟨bitsOf_eq_map_range n v ▸ writeBitList_bits _ w, writeBits_lengths n v h⟩

/-- Settles O15: the word is the instruction's own, each check refuses in its turn, and the write is WriteBits. -/
theorem bwWriteBitsFollowsItsRule : Obligations.BwWriteBitsFollowsItsRule := by
  intro s n h
  refine ⟨(commandWordsDecodeAndEncodeAgree _ _).1 rfl, fun hn => if_pos hn, fun hn ho => ?_, fun hn ho => ?_⟩
  · exact (if_neg (Nat.not_lt.2 hn)).trans (if_pos ho)
  · obtain ⟨hacc, -, hcount⟩ := writeBits_lengths n.toNat s.arg0.toNat h
    exact ⟨writeBits n.toNat s.arg0.toNat s.bw, (if_neg (Nat.not_lt.2 hn)).trans (if_neg ho), writeBitList_bits _ _,
      hacc, hcount⟩

/-- Finish pads the partial byte to its 8 bits, which pushes it, and does nothing where there is none (40_bitio R122). -/
theorem writeFinish_spec {w : Writer} (h : w.acc.length ≤ 7) :
    (writeFinish w).bits = w.bits ++ List.replicate ((8 - w.acc.length) % 8) false ∧ (writeFinish w).acc = [] ∧
    (writeFinish w).count = w.count + (if w.acc = [] then 0 else 1) := by
  by_cases he : w.acc = []
  · simp [writeFinish, he]
  · have hpos : 0 < w.acc.length := List.length_pos_iff.2 he
    have hf : writeFinish w = writeBitList (List.replicate (8 - w.acc.length) false) w := if_neg hpos.ne'
    obtain ⟨hacc, -, hcount⟩ := writeBitList_lengths (List.replicate (8 - w.acc.length) false) h
    rw [List.length_replicate, Nat.add_sub_cancel' (by omega)] at hacc hcount
    rw [hf, Nat.mod_eq_of_lt (by omega), if_neg he]
    exact ⟨writeBitList_bits _ w, List.length_eq_zero_iff.1 hacc, hcount⟩

/-- Settles O16: an Open encoder is refused; else the writer is finished. -/
theorem bwFinishFollowsItsRule : Obligations.BwFinishFollowsItsRule := fun s h =>
  ⟨(commandWordsDecodeAndEncodeAgree _ _).1 rfl, fun ho => if_pos ho,
    fun ho => ⟨writeFinish s.bw, if_neg ho, writeFinish_spec h⟩⟩

/-! ## What a read pulls -/

/-- Each byte pulled is counted (20_memory R61). -/
theorem fillBits_count (fuel n : Nat) (r : Reader) :
    (fillBits fuel n r).2.count + r.pos = r.count + (fillBits fuel n r).2.pos := by
  induction fuel generalizing r with
  | zero => rfl
  | succ fuel ih =>
    unfold fillBits
    split
    · rfl
    · unfold srcRead
      cases r.src[r.pos]? with
      | none => rfl
      | some b =>
        have hi := ih { r with acc := r.acc ++ bitsOf 8 b.toNat, pos := r.pos + 1, count := r.count + 1 }
        simp only at hi ⊢
        omega

/-- A fill that finds its bits stops at the first byte that is enough (40_bitio R123): the bits pulled are fewer than 8
past those asked for. -/
theorem fillBits_pos {n : Nat} {r : Reader} (hp : r.pos ≤ r.src.length) (h : (fillBits n n r).1 = true) :
    (fillBits n n r).2.pos = r.pos + (n - r.acc.length + 7) / 8 := by
  obtain ⟨hbits, hsrc, hle, henough, -, hend, hmax⟩ := fillBits_spec n n r (by omega)
  have hn := henough h
  have hq := hend hp
  have hlen := congrArg List.length hbits
  rw [Reader.bits_length, Reader.bits_length, hsrc] at hlen
  omega

theorem readBits_count {n : Nat} {a : Except Cause Nat} {r q : Reader} (h : readBits n r = (a, q)) :
    q.count + r.pos = r.count + q.pos := by
  have hcount := fillBits_count n n r
  unfold readBits at h
  split at h <;> next hf => cases h; rwa [hf] at hcount

/-- A read that succeeds pulls only the bytes it needs (40_bitio R123). -/
theorem readBits_ok_pos {n v : Nat} {r q : Reader} (hp : r.pos ≤ r.src.length) (h : readBits n r = (.ok v, q)) :
    q.pos = r.pos + (n - r.acc.length + 7) / 8 := by
  unfold readBits at h
  split at h
  · next hf =>
    cases h
    have hpos := fillBits_pos hp (congrArg Prod.fst hf)
    rwa [hf] at hpos
  · cases h

/-- Once the source is at its end, every bit left is in the accumulator. -/
theorem Reader.acc_eq_bits {r : Reader} (h : r.pos = r.src.length) : r.acc = r.bits := by
  rw [Reader.bits, h, List.drop_length, List.flatMap_nil, List.append_nil]

/-- A read that fails leaves every bit in the accumulator and the source at its end (40_bitio R124). -/
theorem readBits_error_reader {n : Nat} {c : Cause} {r q : Reader} (hp : r.pos ≤ r.src.length)
    (h : readBits n r = (.error c, q)) :
    q = { acc := r.bits, src := r.src, pos := r.src.length, count := r.count + (r.src.length - r.pos) } := by
  obtain ⟨-, -, hbits, hsrc, -, -, hpos⟩ := readBits_error h
  have hend := hpos hp
  have hacc : q.acc = r.bits := hbits ▸ Reader.acc_eq_bits (hsrc ▸ hend)
  have hcount : q.count = r.count + (q.pos - r.pos) := by have := readBits_count h; omega
  rw [← hacc, ← hend, ← hcount, ← hsrc]

/-! ## BR_READBITS -/

theorem decoderOwnsReader_eq_busy (d : DecState) : decoderOwnsReader d = d.busy := by cases d <;> rfl

/-! Past both checks BR_READBITS is ReadBits (40_bitio R127). -/

theorem execBrReadBits_of_ok {n : BitVec 8} {s : State} {v : Nat} {r : Reader} (hn : n.toNat ≤ 32)
    (hd : s.dec.state.busy = false) (h : readBits n.toNat s.br = (.ok v, r)) :
    execBrReadBits n s = .next { s with br := r, lastCause := none, result := BitVec.ofNat 32 v } := by
  rw [execBrReadBits, if_neg (Nat.not_lt.2 hn), decoderOwnsReader_eq_busy, hd, h]
  rfl

theorem execBrReadBits_of_error {n : BitVec 8} {s : State} {c : Cause} {r : Reader} (hn : n.toNat ≤ 32)
    (hd : s.dec.state.busy = false) (h : readBits n.toNat s.br = (.error c, r)) :
    execBrReadBits n s = .next (Claims.recorded c { s with br := r }) := by
  rw [execBrReadBits, if_neg (Nat.not_lt.2 hn), decoderOwnsReader_eq_busy, hd, h]
  rfl

/-- Settles O17: each check refuses in its turn; then ReadBits finds its bits exactly where there are enough. -/
theorem brReadBitsFollowsItsRule : Obligations.BrReadBitsFollowsItsRule := by
  intro s n hp
  refine ⟨(commandWordsDecodeAndEncodeAgree _ _).1 rfl, fun hn => if_pos hn, fun hn hd => ?_, fun hn hd hl => ?_,
    fun hn hd hl => ?_⟩
  · rw [← decoderOwnsReader_eq_busy] at hd
    exact (if_neg (Nat.not_lt.2 hn)).trans (if_pos hd)
  · rcases hr : readBits n.toNat s.br with ⟨c | v, q⟩
    · have := readBits_error hr
      omega
    · obtain ⟨-, hv, hbits, hsrc, -⟩ := readBits_ok hr
      have hpos := readBits_ok_pos hp hr
      have hcount := readBits_count hr
      exact ⟨q, hv ▸ execBrReadBits_of_ok hn hd hr, hbits, hsrc, hpos, by omega⟩
  · rcases hr : readBits n.toNat s.br with ⟨c | v, q⟩
    · obtain ⟨rfl, -⟩ := readBits_error hr
      exact readBits_error_reader hp hr ▸ execBrReadBits_of_error hn hd hr
    · have := readBits_ok hr
      omega

end Sys2Proof.Machine
end

section
/-! SUPPORT. The CRC: the bit-serial step is linear over XOR, so the table update is eight of them (41_crc R140..R142), and the
commands of the standalone unit (41_crc R148..R152). -/

namespace Sys2Proof.Machine

/-! ## The step -/

/-- The polynomial enters by the top bit alone, and twice is not at all (41_crc R141). -/
theorem crcStep_xor : Function.Semiconj₂ crcStep (· ^^^ ·) (· ^^^ ·) := by
  intro x y
  have hshift : (x ^^^ y) <<< 1 = x <<< 1 ^^^ y <<< 1 := BitVec.shiftLeft_xor_distrib ..
  simp only [crcStep, BitVec.getLsbD_xor, hshift]
  generalize (0x04C11DB7 : Word) = p
  cases x.getLsbD 31 <;> cases y.getLsbD 31
  case false.false => rfl
  case false.true => exact BitVec.xor_assoc ..
  case true.false =>
    change x <<< 1 ^^^ y <<< 1 ^^^ p = x <<< 1 ^^^ p ^^^ y <<< 1
    ac_rfl
  case true.true =>
    calc x <<< 1 ^^^ y <<< 1
      _ = x <<< 1 ^^^ y <<< 1 ^^^ (p ^^^ p) := by rw [BitVec.xor_self, BitVec.xor_zero]
      _ = (x <<< 1 ^^^ p) ^^^ (y <<< 1 ^^^ p) := by ac_rfl

/-- While no set bit comes to the top, stepping only shifts. -/
theorem crcStep_iterate_of_clear {n : Nat} {x : Word} (h : ∀ i < n, x.getLsbD (31 - i) = false) :
    crcStep^[n] x = x <<< n := by
  induction n with
  | zero => rw [Function.iterate_zero, id, BitVec.shiftLeft_zero]
  | succ n ih =>
    have htop : (x <<< n).getLsbD 31 = false := by
      rw [BitVec.getLsbD_shiftLeft, h n n.lt_succ_self, Bool.and_false]
    rw [Function.iterate_succ_apply', ih fun i hi => h i (Nat.lt_succ_of_lt hi), crcStep, htop,
      if_neg Bool.false_ne_true, BitVec.shiftLeft_add]

/-! ## The register's top byte and the 24 bits below it -/

theorem shiftLeft_and_mask {m : Word} {n : Nat} (h : m <<< n = BitVec.allOnes 32 <<< n) (x : Word) :
    (x &&& m) <<< n = x <<< n := by
  rw [BitVec.shiftLeft_and_distrib, h, ← BitVec.shiftLeft_and_distrib, BitVec.and_allOnes]

theorem and_xor_distrib_left (x y z : Word) : x &&& (y ^^^ z) = (x &&& y) ^^^ (x &&& z) :=
  BitVec.eq_of_getElem_eq (by simp [Bool.and_xor_distrib_left])

theorem low_xor_top (c : Word) : (c &&& 0xFFFFFF#32) ^^^ ((c >>> 24) <<< 24) = c := by
  have hmask : 0xFFFFFF#32 ^^^ BitVec.allOnes 32 <<< 24 = BitVec.allOnes 32 := rfl
  rw [BitVec.shiftLeft_ushiftRight, ← and_xor_distrib_left, hmask, BitVec.and_allOnes]

/-- The low 24 bits meet no polynomial in eight steps. -/
theorem crcStep_iterate_low (c : Word) : crcStep^[8] (c &&& 0xFFFFFF#32) = c <<< 8 := by
  have hmask : ∀ i < 8, (0xFFFFFF#32).getLsbD (31 - i) = false := by decide
  have hclear : ∀ i < 8, (c &&& 0xFFFFFF#32).getLsbD (31 - i) = false := fun i hi => by
    rw [BitVec.getLsbD_and, hmask i hi, Bool.and_false]
  rw [crcStep_iterate_of_clear hclear, shiftLeft_and_mask (by rfl)]

/-! ## The update -/

/-- Eight steps take the top byte, with the byte XORed in, to its table entry, and shift the rest of the register past it. -/
theorem crcUpdate_eq_iterate (c : Word) (b : Byte) :
    crcUpdate c b = crcStep^[8] (c ^^^ (b.setWidth 32 <<< 24)) := by
  have hsplit : c ^^^ (b.setWidth 32 <<< 24) = (c &&& 0xFFFFFF#32) ^^^ (((c >>> 24) ^^^ b.setWidth 32) <<< 24) := by
    rw [BitVec.shiftLeft_xor_distrib, ← BitVec.xor_assoc, low_xor_top]
  rw [hsplit, crcStep_xor.iterate 8, crcStep_iterate_low, crcUpdate, crcTable, shiftLeft_and_mask (by rfl)]

/-- Settles O18: the update is the table step by definition, and the table step is eight bit-serial ones. -/
theorem crcUpdateIsBitSerial : Obligations.CrcUpdateIsBitSerial := fun c b => ⟨rfl, crcUpdate_eq_iterate c b⟩

/-- Settles O19: the nine bytes and the five entries, each evaluated. -/
theorem crcCheckValues : Obligations.CrcCheckValues := by
  unfold Obligations.CrcCheckValues
  decide

/-! ## The standalone unit -/

/-- The fold is the library's rotation, then the XOR (41_crc R145). -/
theorem crcCombine_eq (comb crc : Word) : crcCombine comb crc = comb.rotateLeft 1 ^^^ crc := by
  rw [crcCombine, rotl1_eq]

/-- Settles O20: each word is its instruction's own, and each command is its one update of the unit, where CRC_COMBINE's is
the fold of ARG0. -/
theorem crcCommandsFollowTheirRules : Obligations.CrcCommandsFollowTheirRules := by
  have hword {i : Instr} {w : Word} : encodeCmd i = some w → decodeCmd w = .ok i :=
    (commandWordsDecodeAndEncodeAgree i w).1
  refine ⟨hword rfl, fun _ => hword rfl, hword rfl, hword rfl, hword rfl, fun s => ⟨rfl, fun _ => rfl, rfl, rfl, ?_⟩⟩
  rw [← crcCombine_eq]
  rfl

end Sys2Proof.Machine
end

section
/-! SUPPORT. The Burrows-Wheeler Transform (42_block_encoder R170..R172): the comparison is the lexicographic order of the
rotations, so `zptr` is in order, and `L` and `origPtr` are what R172 says. -/

open Sys2Proof.Claims

namespace Sys2Proof.Machine

/-! ## The sort of mapped elements -/

theorem mergeFuel_map {α β : Type} (le : β → β → Bool) (f : α → β) (n : Nat) (xs ys : List α) :
    mergeFuel le n (xs.map f) (ys.map f) = (mergeFuel (fun a b => le (f a) (f b)) n xs ys).map f := by
  induction n generalizing xs ys with
  | zero => exact List.map_append.symm
  | succ n ih =>
    match xs, ys with
    | [], _ => rfl
    | _ :: _, [] => rfl
    | x :: xs, y :: ys =>
      simp only [List.map_cons, mergeFuel]
      rw [← List.map_cons, ← List.map_cons, ih, ih]
      split <;> rfl

theorem mergePairs_map {α β : Type} (le : β → β → Bool) (f : α → β) :
    ∀ ls : List (List α),
      mergePairs le (ls.map (List.map f)) = (mergePairs (fun a b => le (f a) (f b)) ls).map (List.map f)
  | [] => rfl
  | [_] => rfl
  | a :: b :: rest => by simp only [List.map_cons, mergePairs, mergeFuel_map, mergePairs_map le f rest, List.length_map]

theorem mergeAll_map {α β : Type} (le : β → β → Bool) (f : α → β) (n : Nat) (ls : List (List α)) :
    mergeAll le n (ls.map (List.map f)) = (mergeAll (fun a b => le (f a) (f b)) n ls).map f := by
  induction n generalizing ls with
  | zero => exact List.map_flatten.symm
  | succ n ih =>
    match ls with
    | [] => rfl
    | [_] => rfl
    | a :: b :: rest =>
      have hpairs := mergePairs_map le f (a :: b :: rest)
      simp only [List.map_cons, mergeAll] at hpairs ⊢
      rw [hpairs, ih]

/-- Sorting mapped elements is sorting the elements by their images. -/
theorem sortBy_map {α β : Type} (le : β → β → Bool) (f : α → β) (l : List α) :
    sortBy le (l.map f) = (sortBy (fun a b => le (f a) (f b)) l).map f := by
  rw [sortBy, sortBy, ← mergeAll_map, List.length_map, List.map_map, List.map_map]
  rfl

/-! ## The order of the rotations -/

/-- The answer of the comparison, in the lexicographic order of the first `n` bytes (42 R170). -/
def ComparesTo (a b : List Byte) : Ordering → Prop
  | .lt => a < b
  | .eq => a = b
  | .gt => b < a

theorem compareBytes_spec {n : Nat} {xs ys : List Byte} (hx : n ≤ xs.length) (hy : n ≤ ys.length) :
    ComparesTo (xs.take n) (ys.take n) (compareBytes n xs ys) := by
  induction n generalizing xs ys with
  | zero => rfl
  | succ n ih =>
    obtain ⟨a, as, rfl⟩ := List.exists_cons_of_length_pos (Nat.zero_lt_of_lt hx)
    obtain ⟨b, bs, rfl⟩ := List.exists_cons_of_length_pos (Nat.zero_lt_of_lt hy)
    rw [List.take_succ_cons, List.take_succ_cons, compareBytes]
    split
    · next h => exact List.cons_lt_cons_iff.2 (.inl h)
    split
    · next h => exact List.cons_lt_cons_iff.2 (.inl h)
    · next h1 h2 =>
      obtain rfl : a = b := BitVec.eq_of_toNat_eq (by omega)
      have ih := ih (Nat.le_of_succ_le_succ hx) (Nat.le_of_succ_le_succ hy)
      cases hc : compareBytes n as bs <;> rw [hc] at ih
      case lt => exact List.cons_lt_cons_iff.2 (.inr ⟨rfl, ih⟩)
      case eq => exact congrArg (a :: ·) ih
      case gt => exact List.cons_lt_cons_iff.2 (.inr ⟨rfl, ih⟩)

/-- The order of R171 on a pair of an offset and its rotation. -/
theorem rotationLe_iff {n : Nat} {x y : Nat × List Byte} (hx : n ≤ x.2.length) (hy : n ≤ y.2.length) :
    rotationLe n x y = true ↔ x.2.take n < y.2.take n ∨ x.2.take n = y.2.take n ∧ x.1 ≤ y.1 := by
  have hc := compareBytes_spec hx hy
  unfold rotationLe
  cases h : compareBytes n x.2 y.2 <;> rw [h] at hc
  case lt => exact iff_of_true rfl (.inl hc)
  case eq =>
    have heq : x.2.take n = y.2.take n := hc
    simp [heq, List.lt_irrefl]
  case gt =>
    refine iff_of_false (by simp) ?_
    rintro (hlt | ⟨heq, -⟩)
    · exact List.lt_asymm hlt hc
    · exact List.lt_irrefl _ (heq ▸ hc)

/-! ## `zptr` -/

/-- An offset of the block with the doubled block from it on: what the sort compares. -/
def offsetRotation (block : List Byte) (i : Fin block.length) : Nat × List Byte := (i, (block ++ block).drop i)

theorem rotationsFrom_eq (k z : Nat) (bs : List Byte) :
    rotationsFrom k z bs = (List.range k).map fun i => (z + i, bs.drop i) := by
  induction k generalizing z bs with
  | zero => rfl
  | succ k ih =>
    rw [rotationsFrom, ih, List.range_succ_eq_map, List.map_cons, List.map_map]
    congr 1
    refine List.map_congr_left fun i _ => ?_
    simp [Nat.add_assoc, Nat.add_comm 1 i]

theorem rotationsFrom_zero (block : List Byte) :
    rotationsFrom block.length 0 (block ++ block) = (List.finRange block.length).map (offsetRotation block) := by
  rw [rotationsFrom_eq, ← List.map_coe_finRange_eq_range, List.map_map]
  exact List.map_congr_left fun i _ => by simp [offsetRotation]

/-- The order of R171 on the offsets of a block. -/
def offsetLe (block : List Byte) (i j : Fin block.length) : Bool :=
  rotationLe block.length (offsetRotation block i) (offsetRotation block j)

theorem sortRotations_eq (block : List Byte) :
    sortRotations block = (sortBy (offsetLe block) (List.finRange block.length)).map Fin.val := by
  rw [sortRotations, rotationsFrom_zero, sortBy_map, List.map_map]
  rfl

theorem rotation_eq_take_drop (block : List Byte) {z : Nat} (hz : z ≤ block.length) :
    ((block ++ block).drop z).take block.length = rotation block z := by
  rw [List.drop_append_of_le_length hz, List.take_append, List.take_of_length_le (by simp), List.length_drop,
    Nat.sub_sub_self hz, Claims.rotation]

theorem offsetLe_iff {block : List Byte} {i j : Fin block.length} :
    offsetLe block i j = true ↔
      rotation block i < rotation block j ∨ rotation block i = rotation block j ∧ i ≤ j := by
  have hlen : ∀ i : Fin block.length, block.length ≤ (offsetRotation block i).2.length := fun i => by
    simp only [offsetRotation, List.length_drop, List.length_append]; omega
  have hrot : ∀ i : Fin block.length, (offsetRotation block i).2.take block.length = rotation block i := fun i =>
    rotation_eq_take_drop block i.isLt.le
  rw [offsetLe, rotationLe_iff (hlen i) (hlen j), hrot, hrot]
  rfl

theorem offsetLe_total (block : List Byte) (i j : Fin block.length) :
    offsetLe block i j = true ∨ offsetLe block j i = true := by
  rw [offsetLe_iff, offsetLe_iff]
  rcases List.le_total (rotation block i) (rotation block j) with h | h <;>
    rcases List.le_iff_lt_or_eq.1 h with h | h
  · exact .inl (.inl h)
  · exact (le_total i j).imp (fun hij => .inr ⟨h, hij⟩) fun hji => .inr ⟨h.symm, hji⟩
  · exact .inr (.inl h)
  · exact (le_total i j).imp (fun hij => .inr ⟨h.symm, hij⟩) fun hji => .inr ⟨h, hji⟩

theorem offsetLe_trans (block : List Byte) (i j k : Fin block.length) (hij : offsetLe block i j = true)
    (hjk : offsetLe block j k = true) : offsetLe block i k = true := by
  rw [offsetLe_iff] at hij hjk ⊢
  rcases hij with hij | ⟨hij, hij'⟩ <;> rcases hjk with hjk | ⟨hjk, hjk'⟩
  · exact .inl (List.lt_trans hij hjk)
  · exact .inl (hjk ▸ hij)
  · exact .inl (hij ▸ hjk)
  · exact .inr ⟨hij.trans hjk, hij'.trans hjk'⟩

/-- `zptr` is a permutation of the offsets (42 R171). -/
theorem sortRotations_perm (block : List Byte) : (sortRotations block).Perm (List.range block.length) := by
  rw [sortRotations_eq, ← List.map_coe_finRange_eq_range]
  exact (sortBy_perm _ _).map _

/-- `zptr` lists the rotations in order, equal ones by offset (42 R171). -/
theorem sortRotations_pairwise (block : List Byte) :
    (sortRotations block).Pairwise fun a b =>
      rotation block a < rotation block b ∨ (rotation block a = rotation block b ∧ a < b) := by
  rw [sortRotations_eq, List.pairwise_map]
  have hsorted := sortBy_pairwise (offsetLe_total block) (offsetLe_trans block) (List.finRange block.length)
  have hdistinct : (sortBy (offsetLe block) (List.finRange block.length)).Nodup :=
    (sortBy_perm _ _).nodup_iff.2 (List.nodup_finRange _)
  refine (hsorted.and hdistinct).imp fun ⟨hle, hne⟩ => ?_
  exact (offsetLe_iff.1 hle).imp_right fun ⟨heq, hij⟩ => ⟨heq, lt_of_le_of_ne hij (Fin.val_ne_of_ne hne)⟩

/-- Settles O35: the sort is a permutation, and its output is in the order it compares by. -/
theorem rotationsAreSorted : Obligations.RotationsAreSorted := fun block =>
  ⟨sortRotations_perm block, sortRotations_pairwise block⟩

/-! ## `L` and `origPtr` -/

theorem mem_sortRotations {block : List Byte} {z : Nat} : z ∈ sortRotations block ↔ z < block.length :=
  (sortRotations_perm block).mem_iff.trans List.mem_range

theorem sortRotations_nodup (block : List Byte) : (sortRotations block).Nodup :=
  (sortRotations_perm block).nodup_iff.2 List.nodup_range

@[simp] theorem sortRotations_length (block : List Byte) : (sortRotations block).length = block.length := by
  simpa using (sortRotations_perm block).length_eq

@[simp] theorem lastColumn_length (block : List Byte) (zptr : List Nat) :
    (lastColumn block zptr).length = zptr.length := List.length_map _

/-- The byte before an offset is the first byte of the block turned back by one. -/
theorem getD_before_eq_rotate {block : List Byte} {z : Nat} (hz : z < block.length) :
    block.getD ((z + block.length - 1) % block.length) 0 =
      (block.rotate (block.length - 1))[z]'(by rwa [List.length_rotate]) := by
  rw [List.getElem_rotate, ← Nat.add_sub_assoc (by omega)]
  exact List.getD_eq_getElem _ _ _

/-- The byte before an offset, in the block (42 R172). -/
theorem getD_before {block : List Byte} {z : Nat} (hz : z < block.length) :
    some (block.getD ((z + block.length - 1) % block.length) 0) =
      block[if z = 0 then block.length - 1 else z - 1]? := by
  have hpos : (z + block.length - 1) % block.length = if z = 0 then block.length - 1 else z - 1 := by
    split
    · next h => rw [h, Nat.zero_add, Nat.mod_eq_of_lt (by omega)]
    · rw [show z + block.length - 1 = z - 1 + block.length by omega, Nat.add_mod_right, Nat.mod_eq_of_lt (by omega)]
  have hlt : (z + block.length - 1) % block.length < block.length := Nat.mod_lt _ (by omega)
  rw [List.getD_eq_getElem _ _ hlt, ← hpos, List.getElem?_eq_getElem hlt]

/-- `L` has the bytes of the block (42 R172). -/
theorem lastColumn_perm (block : List Byte) : (lastColumn block (sortRotations block)).Perm block := by
  refine ((sortRotations_perm block).map _).trans ?_
  have hturn : ((List.range block.length).map fun z => block.getD ((z + block.length - 1) % block.length) 0) =
      block.rotate (block.length - 1) :=
    List.ext_getElem (by simp) fun z hz _ => by
      rw [List.getElem_map, List.getElem_range, getD_before_eq_rotate (by simpa using hz)]
  rw [hturn]
  exact List.rotate_perm _ _

theorem findOrigPtr_lt {block : List Byte} (h : block ≠ []) :
    findOrigPtr (sortRotations block) < (sortRotations block).length :=
  List.idxOf_lt_length_of_mem (mem_sortRotations.2 (List.length_pos_iff.2 h))

theorem getElem?_findOrigPtr {block : List Byte} (h : block ≠ []) :
    (sortRotations block)[findOrigPtr (sortRotations block)]? = some 0 := by
  rw [List.getElem?_eq_getElem (findOrigPtr_lt h)]
  exact congrArg some (List.getElem_idxOf _)

/-- Settles O36: `L` is read off offset by offset, and 0 is one of the offsets, which are distinct. -/
theorem lastColumnPermutesTheBlock : Obligations.LastColumnPermutesTheBlock := by
  refine fun block hne => ⟨fun i z hz => ?_, lastColumn_perm block, ?_, fun i => ⟨fun hi => ?_, ?_⟩⟩
  · rw [lastColumn, List.getElem?_map, hz, Option.map_some, getD_before (mem_sortRotations.1 (List.mem_of_getElem? hz))]
  · exact (findOrigPtr_lt hne).trans_eq (sortRotations_length block)
  · exact (List.getElem?_inj (List.getElem?_eq_some_iff.1 hi).1 (sortRotations_nodup block)).1
      (hi.trans (getElem?_findOrigPtr hne).symm)
  · rintro rfl
    exact getElem?_findOrigPtr hne

end Sys2Proof.Machine
end

section
/-! SUPPORT. The chain walk inverts the Burrows-Wheeler Transform (42_block_encoder R171, R172, 45_stream_decoder R291,
R292). The chain lists the positions of `L` by their byte, equal bytes by position. Turned back by one, the rotations in
this order are again all the rotations in ascending order: so they are the rotations as they were sorted, and a chain step
turns a rotation on by one. Equal rotations need no care, since the argument is about rotations, not about offsets. -/

open Sys2Proof.Claims

namespace Sys2Proof.Machine

/-! ## Slots of the chain -/

/-- The slot that position `i` of a block takes in the chain, where its byte is `c` (45 R291, R292). -/
def chainSlot (last : List Byte) (c : Byte) (i : Nat) : Nat := (last.countP fun b => b < c) + (last.take i).count c

theorem countP_lt_add_count (last : List Byte) (c : Byte) :
    (last.countP fun b => b < c) + last.count c = last.countP fun b => b ≤ c := by
  induction last with
  | nil => rfl
  | cons b bs ih =>
    have hsplit : (if b < c then 1 else 0) + (if b = c then 1 else 0) = if b ≤ c then 1 else 0 := by
      simp only [BitVec.lt_def, BitVec.le_def, ← BitVec.toNat_inj]
      split_ifs <;> omega
    simp only [List.countP_cons, List.count_cons, decide_eq_true_eq, beq_iff_eq]
    omega

theorem count_take_succ {last : List Byte} {i : Nat} {c : Byte} (h : last[i]? = some c) (d : Byte) :
    (last.take (i + 1)).count d = (last.take i).count d + if c = d then 1 else 0 := by
  rw [List.take_add_one, h, List.count_append, Option.toList_some, List.count_singleton]
  simp only [beq_iff_eq]

theorem chainSlot_succ {last : List Byte} {i : Nat} {c : Byte} (h : last[i]? = some c) (d : Byte) :
    chainSlot last d (i + 1) = chainSlot last d i + if c = d then 1 else 0 := by
  rw [chainSlot, count_take_succ h, ← Nat.add_assoc, chainSlot]

/-- The slots of a byte end where the bytes up to it do. -/
theorem chainSlot_lt_countP {last : List Byte} {i : Nat} {c : Byte} (h : last[i]? = some c) :
    chainSlot last c i < last.countP fun b => b ≤ c := by
  have hsucc := count_take_succ h c
  have hle : (last.take (i + 1)).count c ≤ last.count c := (List.take_sublist _ _).count_le _
  rw [if_pos rfl] at hsucc
  rw [← countP_lt_add_count, chainSlot]
  omega

theorem chainSlot_lt_length {last : List Byte} {i : Nat} {c : Byte} (h : last[i]? = some c) :
    chainSlot last c i < last.length :=
  (chainSlot_lt_countP h).trans_le List.countP_le_length

/-- The slots are ordered by byte, those of a byte by position. -/
theorem chainSlot_lt_chainSlot {last : List Byte} {i j : Nat} {c d : Byte} (hi : last[i]? = some c)
    (hcd : c < d ∨ c = d ∧ i < j) : chainSlot last c i < chainSlot last d j := by
  rcases hcd with hlt | ⟨rfl, hij⟩
  · have hle : (last.countP fun b => b ≤ c) ≤ last.countP fun b => b < d :=
      List.countP_mono_left fun b _ hb => by
        simp only [decide_eq_true_eq, BitVec.le_def, BitVec.lt_def] at hb hlt ⊢
        omega
    exact (chainSlot_lt_countP hi).trans_le (hle.trans (Nat.le_add_right _ _))
  · have hle : (last.take (i + 1)).count c ≤ (last.take j).count c :=
      (List.take_sublist_take_left hij).count_le _
    have hsucc := count_take_succ hi c
    rw [if_pos rfl] at hsucc
    unfold chainSlot
    omega

theorem byte_lt_trichotomy (c d : Byte) : c < d ∨ c = d ∨ d < c := by
  simp only [BitVec.lt_def, ← BitVec.toNat_inj]
  exact Nat.lt_trichotomy _ _

/-- Of two positions, the one with the lower slot has the lower byte, or the same one and the lower position. -/
theorem byte_lt_of_chainSlot_lt {last : List Byte} {i j : Nat} {c d : Byte} (hj : last[j]? = some d)
    (h : chainSlot last c i < chainSlot last d j) : c < d ∨ c = d ∧ i < j := by
  rcases byte_lt_trichotomy c d with hcd | rfl | hdc
  · exact .inl hcd
  · refine .inr ⟨rfl, ?_⟩
    rcases Nat.lt_trichotomy i j with hij | rfl | hji
    · exact hij
    · exact absurd h (Nat.lt_irrefl _)
    · exact absurd (chainSlot_lt_chainSlot hj (.inr ⟨rfl, hji⟩)) (Nat.lt_asymm h)
  · exact absurd (chainSlot_lt_chainSlot hj (.inl hdc)) (Nat.lt_asymm h)

/-- Positions written earlier keep their slots. -/
theorem chainSlot_ne {last : List Byte} {i j : Nat} {c d : Byte} (hi : last[i]? = some c) (hj : last[j]? = some d)
    (hij : i < j) : chainSlot last d j ≠ chainSlot last c i := by
  rcases byte_lt_trichotomy c d with hcd | rfl | hdc
  · exact (chainSlot_lt_chainSlot hi (.inl hcd)).ne'
  · exact (chainSlot_lt_chainSlot hi (.inr ⟨rfl, hij⟩)).ne'
  · exact (chainSlot_lt_chainSlot hj (.inl hdc)).ne

/-! ## The chain -/

/-- From position `i` on the loop keeps what it wrote, where `cftab` holds every byte's next slot (45 R292). -/
theorem fillChain_slots {last rest : List Byte} {i : Nat} {cftab : List Nat} {tt : Array Nat}
    (hrest : last.drop i = rest) (htab : cftab.length = 257) (hsize : tt.size = last.length)
    (hnext : ∀ c : Byte, cftab.getD c.toNat 0 = chainSlot last c i)
    (hdone : ∀ j c, j < i → last[j]? = some c → tt[chainSlot last c j]? = some j) {j : Nat} {c : Byte}
    (hj : last[j]? = some c) : (fillChain rest i cftab tt).1[chainSlot last c j]? = some j := by
  induction rest generalizing i cftab tt with
  | nil =>
    have hlt : j < last.length := (List.getElem?_eq_some_iff.1 hj).1
    have hend : last.length ≤ i := List.drop_eq_nil_iff.1 hrest
    exact hdone j c (by omega) hj
  | cons d ds ih =>
    have hd : last[i]? = some d := by
      rw [← List.head?_drop, hrest, List.head?_cons]
    rw [fillChain, hnext d]
    refine ih ?_ (by rw [List.length_set, htab]) (by rw [Array.size_setIfInBounds, hsize]) (fun e => ?_)
      fun k e hk hke => ?_
    · rw [← List.drop_drop, hrest, List.drop_one, List.tail_cons]
    · have hin : d.toNat < cftab.length := by have := d.isLt; omega
      rw [chainSlot_succ hd, List.getD_eq_getElem?_getD, List.getElem?_set]
      by_cases hde : d = e
      · subst hde
        simp [hin]
      · rw [if_neg fun h => hde (BitVec.eq_of_toNat_eq h), if_neg hde, ← List.getD_eq_getElem?_getD, hnext, Nat.add_zero]
    · rw [Array.getElem?_setIfInBounds]
      rcases Nat.lt_succ_iff_lt_or_eq.1 hk with hlt | rfl
      · rw [if_neg (chainSlot_ne hke hd hlt), hdone k e hlt hke]
      · obtain rfl : d = e := Option.some.inj (hd.symm.trans hke)
        rw [if_pos rfl, if_pos (hsize ▸ chainSlot_lt_length hd)]

/-- Every position of the block stands in the chain at its slot (45 R292). -/
theorem buildChain_getElem? {last : List Byte} {i : Nat} {c : Byte} (h : last[i]? = some c) :
    (buildChain last (countBytes last))[chainSlot last c i]? = some i := by
  rw [buildChain, Array.getElem?_toList]
  refine fillChain_slots List.drop_zero (countBytes_length last) Array.size_replicate (fun c => ?_)
    (fun j c hj => absurd hj j.not_lt_zero) h
  rw [countBytes_getD last c.isLt.le, chainSlot, List.take_zero, List.count_nil, Nat.add_zero]
  rfl

/-- The chain is a permutation of the positions. -/
theorem buildChain_perm (last : List Byte) : (buildChain last (countBytes last)).Perm (List.range last.length) := by
  refine (List.Subperm.perm_of_length_le (List.nodup_range.subperm fun i hi => ?_) ?_).symm
  · exact List.mem_of_getElem? (buildChain_getElem? (List.getElem?_eq_getElem (List.mem_range.1 hi)))
  · rw [buildChain_length, List.length_range]

/-- What stands at a slot of the chain has that slot. -/
theorem chainSlot_of_getElem? {last : List Byte} {k i : Nat} (h : (buildChain last (countBytes last))[k]? = some i) :
    ∃ c, last[i]? = some c ∧ chainSlot last c i = k := by
  have hi : i < last.length := buildChain_lt last _ i (List.mem_of_getElem? h)
  have hc := List.getElem?_eq_getElem hi
  have hnodup := (buildChain_perm last).nodup_iff.2 List.nodup_range
  refine ⟨_, hc, ((List.getElem?_inj (List.getElem?_eq_some_iff.1 h).1 hnodup).1 ?_).symm⟩
  rw [h, buildChain_getElem? hc]

/-- The chain lists the positions by byte, equal bytes by position. -/
theorem buildChain_pairwise (last : List Byte) :
    (buildChain last (countBytes last)).Pairwise fun i j =>
      ∃ c d, last[i]? = some c ∧ last[j]? = some d ∧ (c < d ∨ c = d ∧ i < j) := by
  refine List.pairwise_iff_getElem.2 fun k l hk hl hkl => ?_
  obtain ⟨c, hc, hck⟩ := chainSlot_of_getElem? (List.getElem?_eq_getElem hk)
  obtain ⟨d, hd, hdl⟩ := chainSlot_of_getElem? (List.getElem?_eq_getElem hl)
  exact ⟨c, d, hc, hd, byte_lt_of_chainSlot_lt hd (by rw [hck, hdl]; exact hkl)⟩

/-! ## Turning a sequence -/

theorem rotate_back {l : List Byte} {c : Byte} (h : l.getLast? = some c) : l.rotate (l.length - 1) = c :: l.dropLast := by
  obtain ⟨init, rfl⟩ := List.getLast?_eq_some_iff.1 h
  rw [List.length_append, List.length_singleton, Nat.add_sub_cancel, List.rotate_append_length_eq, List.dropLast_concat]
  rfl

theorem getLast?_rotate {l : List Byte} (h : l ≠ []) (z : Nat) :
    (l.rotate z).getLast? = l[(z + l.length - 1) % l.length]? := by
  have hpos : 0 < l.length := List.length_pos_iff.2 h
  rw [List.getLast?_eq_getElem?, List.length_rotate, List.getElem?_rotate (by omega), Nat.add_comm,
    Nat.add_sub_assoc hpos]

/-- A comparison of sequences of one length is settled before what follows them. -/
theorem append_lt_append {xs ys : List Byte} (hlen : xs.length = ys.length) (h : xs < ys) (us vs : List Byte) :
    xs ++ us < ys ++ vs := by
  induction xs generalizing ys with
  | nil =>
    obtain rfl := List.length_eq_zero_iff.1 hlen.symm
    exact absurd h (List.lt_irrefl _)
  | cons x xs ih =>
    obtain ⟨y, ys, rfl⟩ := List.exists_cons_of_length_eq_add_one hlen.symm
    refine List.cons_lt_cons_iff.2 ((List.cons_lt_cons_iff.1 h).imp_right fun ⟨hxy, hlt⟩ => ⟨hxy, ?_⟩)
    exact ih (by simpa using hlen) hlt

theorem dropLast_le_dropLast {xs ys : List Byte} (hlen : xs.length = ys.length) (h : xs ≤ ys) :
    xs.dropLast ≤ ys.dropLast := by
  rcases List.eq_nil_or_concat' xs with rfl | ⟨xs, x, rfl⟩
  · obtain rfl := List.length_eq_zero_iff.1 hlen.symm
    exact h
  rcases List.eq_nil_or_concat' ys with rfl | ⟨ys, y, rfl⟩
  · simp at hlen
  · rw [List.dropLast_concat, List.dropLast_concat]
    exact List.not_lt.1 fun hlt => List.not_lt.2 h (append_lt_append (by simpa using hlen.symm) hlt _ _)

/-! ## The sorted rotations -/

/-- The rotation at row `i` of the sorted rotations (42 R171). -/
def sortedRotation (block : List Byte) (i : Nat) : List Byte := block.rotate ((sortRotations block).getD i 0)

@[simp] theorem sortedRotation_length (block : List Byte) (i : Nat) : (sortedRotation block i).length = block.length :=
  List.length_rotate _ _

theorem map_sortedRotation (block : List Byte) :
    (List.range block.length).map (sortedRotation block) = (sortRotations block).map block.rotate := by
  have hread := map_range_getD (sortRotations_length block).ge
  rw [← sortRotations_length block, List.take_length, sortRotations_length] at hread
  conv_rhs => rw [← hread, List.map_map]
  rfl

theorem rotation_eq_rotate {block : List Byte} {z : Nat} (h : z ≤ block.length) :
    rotation block z = block.rotate z := (List.rotate_eq_drop_append_take h).symm

/-- The rows ascend (42 R171). -/
theorem sortedRotation_le {block : List Byte} {i j : Nat} (hij : i < j) (hj : j < block.length) :
    sortedRotation block i ≤ sortedRotation block j := by
  have hj' : j < (sortRotations block).length := by rwa [sortRotations_length]
  have hlt : ∀ {k} (hk : k < (sortRotations block).length), (sortRotations block)[k] ≤ block.length := fun hk =>
    (mem_sortRotations.1 (List.getElem_mem hk)).le
  have horder := List.pairwise_iff_getElem.1 (sortRotations_pairwise block) i j (hij.trans hj') hj' hij
  rw [rotation_eq_rotate (hlt _), rotation_eq_rotate (hlt _)] at horder
  rw [sortedRotation, sortedRotation, List.getD_eq_getElem _ _ (hij.trans hj'), List.getD_eq_getElem _ _ hj']
  exact List.le_iff_lt_or_eq.2 (horder.imp_right And.left)

/-- `L` is the last column of the rows (42 R172). -/
theorem lastColumn_getElem? {block : List Byte} {i : Nat} (hi : i < block.length) :
    (lastColumn block (sortRotations block))[i]? = (sortedRotation block i).getLast? := by
  have hpos : 0 < block.length := Nat.zero_lt_of_lt hi
  have hi' : i < (sortRotations block).length := by rwa [sortRotations_length]
  rw [sortedRotation, getLast?_rotate (List.length_pos_iff.1 hpos), lastColumn, List.getElem?_map,
    List.getElem?_eq_getElem hi', Option.map_some, List.getD_eq_getElem _ _ (Nat.mod_lt _ hpos),
    List.getD_eq_getElem _ _ hi', List.getElem?_eq_getElem (Nat.mod_lt _ hpos)]

/-- The rows turned back by one are the rows in some order. -/
theorem map_rotate_back_perm {block : List Byte} (h : block ≠ []) :
    ((sortRotations block).map fun z => (block.rotate z).rotate (block.length - 1)).Perm
      ((sortRotations block).map block.rotate) := by
  have hcyclic : ∀ l : List Byte, l ≠ [] → (List.range l.length).map l.rotate = l.cyclicPermutations := fun l hl =>
    List.ext_getElem (by simp [hl]) fun i _ _ => by
      rw [List.getElem_map, List.getElem_range, List.getElem_cyclicPermutations]
  have hback := hcyclic (block.rotate (block.length - 1)) (by simpa using h)
  rw [List.length_rotate, List.cyclicPermutations_rotate, ← hcyclic block h] at hback
  have hcomm : (fun z => (block.rotate z).rotate (block.length - 1)) = (block.rotate (block.length - 1)).rotate :=
    funext fun z => by rw [List.rotate_rotate, List.rotate_rotate, Nat.add_comm]
  have hrange := sortRotations_perm block
  refine (hrange.map _).trans (List.Perm.trans ?_ (hrange.map _).symm)
  rw [hcomm, hback]
  exact List.rotate_perm _ _

/-- The chain of the block's last column (45 R292). -/
def lastChain (block : List Byte) : List Nat :=
  buildChain (lastColumn block (sortRotations block)) (countBytes (lastColumn block (sortRotations block)))

theorem lastChain_perm (block : List Byte) : (lastChain block).Perm (List.range block.length) := by
  have hperm := buildChain_perm (lastColumn block (sortRotations block))
  rwa [lastColumn_length, sortRotations_length] at hperm

@[simp] theorem lastChain_length (block : List Byte) : (lastChain block).length = block.length := by
  simpa using (lastChain_perm block).length_eq

theorem lastChain_lt {block : List Byte} {q : Nat} (h : q ∈ lastChain block) : q < block.length :=
  List.mem_range.1 ((lastChain_perm block).mem_iff.1 h)

/-- In the order of the chain, the rows turned back by one ascend. -/
theorem chainRows_pairwise (block : List Byte) :
    ((lastChain block).map fun i => (sortedRotation block i).rotate (block.length - 1)).Pairwise (· ≤ ·) := by
  have hback : ∀ {i c}, (lastColumn block (sortRotations block))[i]? = some c →
      i < block.length ∧ (sortedRotation block i).rotate (block.length - 1) = c :: (sortedRotation block i).dropLast :=
    fun {i c} hc => by
      have hi : i < block.length := by simpa using (List.getElem?_eq_some_iff.1 hc).1
      have hturn := rotate_back ((lastColumn_getElem? hi).symm.trans hc)
      rw [sortedRotation_length] at hturn
      exact ⟨hi, hturn⟩
  refine List.pairwise_map.2 ((buildChain_pairwise _).imp ?_)
  rintro i j ⟨c, d, hc, hd, hcd⟩
  obtain ⟨-, hi⟩ := hback hc
  obtain ⟨hj, hj'⟩ := hback hd
  rw [hi, hj']
  rcases hcd with hcd | ⟨rfl, hij⟩
  · exact List.le_of_lt (List.cons_lt_cons_iff.2 (.inl hcd))
  · exact List.cons_le_cons_iff.2 (.inr ⟨rfl, dropLast_le_dropLast (by simp) (sortedRotation_le hij hj)⟩)

/-- In the order of the chain, the rows turned back by one are the rows. -/
theorem chainRows_eq {block : List Byte} (h : block ≠ []) :
    ((lastChain block).map fun i => (sortedRotation block i).rotate (block.length - 1)) =
      (List.range block.length).map (sortedRotation block) := by
  have hsorted : ((List.range block.length).map (sortedRotation block)).Pairwise (· ≤ ·) :=
    List.pairwise_map.2 <| List.pairwise_lt_range.imp_of_mem fun _ hj hij => sortedRotation_le hij (List.mem_range.1 hj)
  refine List.Perm.eq_of_pairwise (fun _ _ _ _ => List.le_antisymm) (chainRows_pairwise block) hsorted ?_
  refine ((lastChain_perm block).map _).trans ?_
  have hmap := congrArg (List.map fun l : List Byte => l.rotate (block.length - 1)) (map_sortedRotation block)
  rw [List.map_map, List.map_map] at hmap
  rw [map_sortedRotation]
  exact (List.Perm.of_eq hmap).trans (map_rotate_back_perm h)

/-- A chain step turns the row on by one (45 R292). -/
theorem sortedRotation_chain {block : List Byte} {p q : Nat} (h : (lastChain block)[p]? = some q) :
    sortedRotation block q = (sortedRotation block p).rotate 1 := by
  have hp : p < block.length := by simpa using (List.getElem?_eq_some_iff.1 h).1
  have hpos : 0 < block.length := Nat.zero_lt_of_lt hp
  have hrow := congrArg (·[p]?) (chainRows_eq (List.length_pos_iff.1 hpos))
  simp only [List.getElem?_map, h, List.getElem?_range hp, Option.map_some, Option.some.injEq] at hrow
  have hfull := List.rotate_length (sortedRotation block q)
  rw [sortedRotation_length] at hfull
  rw [← hrow, List.rotate_rotate, Nat.sub_add_cancel hpos, hfull]

/-! ## The walk -/

/-- The walk over the last column of `block` has delivered `b.i` bytes: it stands at a row that is the block turned on by one
more (45 R292). -/
structure OnChain (block : List Byte) (b : DecBlock) : Prop where
  last : b.last = lastColumn block (sortRotations block)
  tt : b.tt = lastChain block
  p : b.p < block.length
  row : sortedRotation block b.p = block.rotate (b.i + 1)

/-- A chain step on the chain delivers the next byte of the block, and stays on the chain. -/
theorem nextBlockByte_onChain {block : List Byte} {b : DecBlock} (h : OnChain block b) (hi : b.i < block.length) :
    ∃ q, nextBlockByte b = some { byte := some block[b.i], blk := { b with p := q, i := b.i + 1 } } ∧
      OnChain block { b with p := q, i := b.i + 1 } := by
  obtain ⟨hlast, htt, hp, hrow⟩ := h
  have hpos : 0 < block.length := Nat.zero_lt_of_lt hi
  have hbyte : b.last[b.p]? = some block[b.i] := by
    rw [hlast, lastColumn_getElem? hp, hrow, getLast?_rotate (List.length_pos_iff.1 hpos),
      show b.i + 1 + block.length - 1 = b.i + block.length by omega, Nat.add_mod_right, Nat.mod_eq_of_lt hi,
      List.getElem?_eq_getElem hi]
  have hlen : b.last.length = block.length := by simp [hlast]
  obtain ⟨q, hq⟩ : ∃ q, b.tt[b.p]? = some q := ⟨_, List.getElem?_eq_getElem (by simpa [htt] using hp)⟩
  have hchain : (lastChain block)[b.p]? = some q := htt ▸ hq
  refine ⟨q, ?_, hlast, htt, lastChain_lt (List.mem_of_getElem? hchain), ?_⟩
  · rw [nextBlockByte, if_neg (by omega), hbyte, hq]
  · rw [sortedRotation_chain hchain, hrow, List.rotate_rotate]

theorem walk_onChain {block : List Byte} (n : Nat) {b : DecBlock} (h : OnChain block b) (hn : b.i + n = block.length) :
    walk n b = block.drop b.i := by
  induction n generalizing b with
  | zero => exact (List.drop_eq_nil_of_le hn.ge).symm
  | succ n ih =>
    have hi : b.i < block.length := by omega
    obtain ⟨q, hnext, hq⟩ := nextBlockByte_onChain h hi
    rw [walk, hnext, List.drop_eq_getElem_cons hi]
    exact congrArg (block[b.i] :: ·) (ih hq (by dsimp only; omega))

/-- A block is started on the chain: `origPtr`'s row is the block itself (42 R172, 45 R292). -/
theorem startBlock_onChain {block last : List Byte} (h : block ≠ []) (hlast : last = lastColumn block (sortRotations block)) :
    OnChain block (startBlock (findOrigPtr (sortRotations block)) last (countBytes last)) := by
  have hptr : findOrigPtr (sortRotations block) < (lastChain block).length := by
    simpa using findOrigPtr_lt h
  have hp : (startBlock (findOrigPtr (sortRotations block)) last (countBytes last)).p =
      (lastChain block)[findOrigPtr (sortRotations block)] := by
    rw [hlast]
    exact List.getD_eq_getElem _ _ hptr
  have hself : sortedRotation block (findOrigPtr (sortRotations block)) = block := by
    rw [sortedRotation, List.getD_eq_getElem?_getD, getElem?_findOrigPtr h, Option.getD_some, List.rotate_zero]
  refine ⟨hlast, by rw [hlast]; rfl, ?_, ?_⟩
  · rw [hp]
    exact lastChain_lt (List.getElem_mem hptr)
  · rw [hp, sortedRotation_chain (List.getElem?_eq_getElem hptr), hself]
    rfl

/-- Settles O38: the block starts on the chain, and a walk on the chain delivers the block. -/
theorem chainWalkInvertsTheTransform : Obligations.ChainWalkInvertsTheTransform := fun block _ hne hlast =>
  walk_onChain block.length (startBlock_onChain hne hlast) (Nat.zero_add _)

end Sys2Proof.Machine
end

section
/-! SUPPORT. Move-to-front and zero-run coding (42_block_encoder R175..R180) under the decoder's inverse (45_stream_decoder
R287, R288). -/

open Sys2Proof.Claims

namespace Sys2Proof.Machine

/-! ## The digits of a run -/

/-- The weight of the next run digit (45 R287). -/
def digitWeight (sc : DecScratch) : Nat := if sc.run = none then 1 else sc.weight

theorem addRunDigit_eq (v : Nat) (sc : DecScratch) :
    addRunDigit v sc =
      { sc with
        run := some (sc.run.getD 0 + digitWeight sc * (if v = runA then 1 else 2))
        weight := 2 * digitWeight sc } := rfl

theorem runDigits_mem {fuel z d : Nat} (h : d ∈ runDigits fuel z) : d = runA ∨ d = runB := by
  induction fuel generalizing z with
  | zero => cases h
  | succ fuel ih =>
    rw [runDigits] at h
    rcases List.mem_cons.1 h with rfl | h
    · split
      · exact .inr rfl
      · exact .inl rfl
    · split at h
      · cases h
      · exact ih h

theorem emitRun_mem {z d : Nat} (h : d ∈ emitRun z) : d = runA ∨ d = runB := by
  unfold emitRun at h
  split at h
  · cases h
  · exact runDigits_mem h

/-- In bijective base 2 the digits are worth one more than the number the loop starts on (42 R178); nothing but the run and
its weight changes. -/
theorem addRunDigits_runDigits {fuel z : Nat} (h : z < fuel) (sc : DecScratch) :
    ∃ w, (runDigits fuel z).foldl (fun sc d => addRunDigit d sc) sc =
      { sc with run := some (sc.run.getD 0 + digitWeight sc * (z + 1)), weight := w } := by
  induction fuel generalizing z sc with
  | zero => exact absurd h z.not_lt_zero
  | succ fuel ih =>
    have hdigit : (if (if z % 2 = 1 then runB else runA) = runA then 1 else 2) = if z % 2 = 1 then 2 else 1 := by
      split <;> rfl
    rw [runDigits, List.foldl_cons, addRunDigit_eq, hdigit]
    by_cases hz : z < 2
    · have hvalue : (if z % 2 = 1 then 2 else 1) = z + 1 := by split <;> omega
      rw [if_pos hz, List.foldl_nil, hvalue]
      exact ⟨_, rfl⟩
    · have hvalue : z + 1 = (if z % 2 = 1 then 2 else 1) + 2 * ((z - 2) / 2 + 1) := by split <;> omega
      have hsum : ∀ r w, r + w * (z + 1) = r + w * (if z % 2 = 1 then 2 else 1) + 2 * w * ((z - 2) / 2 + 1) :=
        fun r w => by rw [hvalue]; ring
      obtain ⟨w, hw⟩ := ih (z := (z - 2) / 2) (by omega) _
      rw [if_neg hz, hw, hsum]
      exact ⟨w, rfl⟩

/-- The decoder reads the digits of a run as the run (45 R288). -/
theorem addRunDigits_emitRun (z : Nat) {sc : DecScratch} (h : sc.run = none) :
    ∃ r w, (emitRun z).foldl (fun sc d => addRunDigit d sc) sc = { sc with run := r, weight := w } ∧
      r = if z = 0 then none else some z := by
  unfold emitRun
  split
  · exact ⟨none, sc.weight, by rw [← h]; rfl, rfl⟩
  · next hz =>
    obtain ⟨w, hw⟩ := addRunDigits_runDigits (fuel := z) (z := z - 1) (by omega) sc
    refine ⟨some z, w, ?_, rfl⟩
    rw [hw, digitWeight, if_pos h, h, Option.getD_none, Nat.zero_add, Nat.one_mul, Nat.sub_add_cancel (by omega)]

/-- Settles O40: the digits are the loop's, and the accumulation is their value. -/
theorem runDigitsDecodeToTheRun : Obligations.RunDigitsDecodeToTheRun := by
  refine fun z sc hz hrun => ⟨fun d => emitRun_mem, ?_⟩
  obtain ⟨r, w, hfold, hr⟩ := addRunDigits_emitRun z hrun
  rw [hfold, hr, if_neg (by omega)]

/-! ## The symbols -/

@[simp] theorem flushZeroRun_mtfList (sc : DecScratch) : (flushZeroRun sc).mtfList = sc.mtfList := rfl

@[simp] theorem flushZeroRun_run (sc : DecScratch) : (flushZeroRun sc).run = none := rfl

@[simp] theorem takeRank_run (v : Nat) (sc : DecScratch) : (takeRank v sc).run = sc.run := rfl

/-- The encoder's run symbols change the run and its weight only, and the flush writes the run out (45 R287). -/
theorem takeSymbols_emitRun (z : Nat) {sc : DecScratch} (h : sc.run = none) :
    (flushZeroRun (takeSymbols (emitRun z) sc)).out = sc.out ++ List.replicate z (sc.mtfList.headD 0) ∧
      (takeSymbols (emitRun z) sc).mtfList = sc.mtfList := by
  have hfold : takeSymbols (emitRun z) sc = (emitRun z).foldl (fun sc d => addRunDigit d sc) sc :=
    List.foldl_ext _ _ _ fun _ d hd => if_pos (emitRun_mem hd)
  obtain ⟨r, w, hrun, hr⟩ := addRunDigits_emitRun z h
  have hz : r.getD 0 = z := by
    rw [hr]
    split
    · next h0 => exact h0.symm
    · rfl
  rw [hfold, hrun]
  exact ⟨by rw [flushZeroRun, hz], rfl⟩

/-- After a run, an MTF symbol flushes it and is taken (45 R287). -/
theorem takeSymbols_rank (run rest : List Nat) {j : Nat} (hj : j ≠ 0) (sc : DecScratch) :
    takeSymbols (run ++ (j + 1) :: rest) sc =
      takeSymbols rest (takeRank (j + 1) (flushZeroRun (takeSymbols run sc))) := by
  rw [takeSymbols, List.foldl_append, List.foldl_cons, if_neg (by omega)]
  rfl

theorem mem_moveToFront {l : List Byte} {j : Nat} (hj : j < l.length) {c : Byte} : c ∈ moveToFront l j ↔ c ∈ l := by
  rw [moveToFront, List.getD_eq_getElem _ _ hj]
  exact (List.getElem_cons_eraseIdx_perm hj).mem_iff

/-- The decoder's inverse from a list and no pending run, where the encoder has `zrun` pending (42 R176, 45 R287). -/
theorem takeSymbols_mtfSymbols {last list : List Byte} (zrun : Nat) {sc : DecScratch} (hin : ∀ c ∈ last, c ∈ list)
    (hlist : sc.mtfList = list) (hrun : sc.run = none) :
    (flushZeroRun (takeSymbols (mtfSymbols last list zrun).1 sc)).out =
        sc.out ++ List.replicate zrun (list.headD 0) ++ last ∧
      (takeSymbols (mtfSymbols last list zrun).1 sc).mtfList = (mtfSymbols last list zrun).2 := by
  induction last generalizing list zrun sc with
  | nil =>
    obtain ⟨hout, hmtf⟩ := takeSymbols_emitRun zrun hrun
    rw [mtfSymbols, hout, hmtf, hlist, List.append_nil]
    exact ⟨rfl, rfl⟩
  | cons c cs ih =>
    have hc : c ∈ list := hin c List.mem_cons_self
    have hlt : list.idxOf c < list.length := List.idxOf_lt_length_of_mem hc
    have hrest : ∀ d ∈ cs, d ∈ list := fun d hd => hin d (List.mem_cons_of_mem c hd)
    have hget : list.getD (list.idxOf c) 0 = c := by
      rw [List.getD_eq_getElem _ _ hlt, List.getElem_idxOf]
    rw [mtfSymbols]
    by_cases hj : list.idxOf c = 0
    · have hhead : list.headD 0 = c := by rw [← hget, hj]; cases list <;> rfl
      obtain ⟨hout, hmtf⟩ := ih (zrun + 1) hrest hlist hrun
      rw [if_pos hj]
      refine ⟨?_, hmtf⟩
      rw [hout, hhead, List.replicate_succ', ← List.append_assoc, List.append_assoc _ [c]]
      rfl
    · obtain ⟨hflush, hfront⟩ := takeSymbols_emitRun zrun hrun
      rw [hlist] at hflush hfront
      have hmem : ∀ d ∈ cs, d ∈ moveToFront list (list.idxOf c) := fun d hd => (mem_moveToFront hlt).2 (hrest d hd)
      have htaken : (takeRank (list.idxOf c + 1) (flushZeroRun (takeSymbols (emitRun zrun) sc))).out =
          sc.out ++ List.replicate zrun (list.headD 0) ++ [c] := by
        rw [takeRank, Nat.add_sub_cancel, hflush, flushZeroRun_mtfList, hfront, hget]
      obtain ⟨hout, hmtf⟩ := ih 0 hmem
        (sc := takeRank (list.idxOf c + 1) (flushZeroRun (takeSymbols (emitRun zrun) sc)))
        (by rw [takeRank, Nat.add_sub_cancel, flushZeroRun_mtfList, hfront]) rfl
      rw [if_neg hj, takeSymbols_rank _ _ hj]
      refine ⟨?_, hmtf⟩
      rw [hout, htaken, List.replicate_zero, List.append_nil, List.append_assoc _ [c]]
      rfl

/-- Settles O41: the case of no pending zero run. -/
theorem mtfInverseGivesTheSequence : Obligations.MtfInverseGivesTheSequence := by
  intro last list sc _ hin hlist hrun
  simpa using takeSymbols_mtfSymbols 0 hin hlist hrun

end Sys2Proof.Machine
end

section
/-! SUPPORT. The run-length pre-pass (42_block_encoder R161, R162) under the decoder's inverse (45_stream_decoder R294): what
each pull does to the bytes a block has left, and the pulls of one run. -/

open Sys2Proof.Claims

namespace Sys2Proof.Machine

/-! ## The bytes a block has left -/

/-- The un-randomised bytes a block has left (45 R293). -/
def bytesLeft (rand : Bool) (b : DecBlock) : List Byte := walkRaw rand (b.last.length - b.i) b

/-- The un-randomised walk neither reads nor writes the run state (45 R293, R294). -/
theorem nextRaw_withRun (rand : Bool) (b : DecBlock) (prev : Option Byte) (cnt rep : Nat) :
    nextRaw rand { b with prev := prev, cnt := cnt, rep := rep } =
      (nextRaw rand b).map fun x => { x with blk := { x.blk with prev := prev, cnt := cnt, rep := rep } } := by
  unfold nextRaw nextBlockByte
  by_cases hi : b.i = b.last.length
  · simp only [hi, if_true, Option.map_some]
  · cases hc : b.last[b.p]? <;> cases hq : b.tt[b.p]? <;> cases rand <;> simp [hi]

theorem walkRaw_withRun (rand : Bool) (n : Nat) (b : DecBlock) (prev : Option Byte) (cnt rep : Nat) :
    walkRaw rand n { b with prev := prev, cnt := cnt, rep := rep } = walkRaw rand n b := by
  induction n generalizing b with
  | zero => rfl
  | succ n ih =>
    rw [walkRaw, walkRaw, nextRaw_withRun]
    rcases nextRaw rand b with _ | ⟨_ | c, b'⟩
    · rfl
    · rfl
    · exact congrArg (c :: ·) (ih b')

theorem bytesLeft_withRun (rand : Bool) (b : DecBlock) (prev : Option Byte) (cnt rep : Nat) :
    bytesLeft rand { b with prev := prev, cnt := cnt, rep := rep } = bytesLeft rand b :=
  walkRaw_withRun rand _ b prev cnt rep

/-- A block in order, with the bytes it has left and its run state. -/
structure Standing (rand : Bool) (bytes : List Byte) (prev : Option Byte) (cnt rep : Nat) (b : DecBlock) : Prop where
  ok : b.Ok 9
  left : bytesLeft rand b = bytes
  prev : b.prev = prev
  cnt : b.cnt = cnt
  rep : b.rep = rep

section
variable {rand : Bool} {bytes : List Byte} {prev : Option Byte} {cnt rep : Nat} {b : DecBlock} {c : Byte}

theorem Standing.no_repeat (h : Standing rand bytes prev cnt 0 b) : ¬ 0 < b.rep := h.rep ▸ Nat.lt_irrefl 0

/-- The walk ends where no byte is left. -/
theorem Standing.nextRaw_end (h : Standing rand [] prev cnt rep b) :
    nextRaw rand b = some { byte := none, blk := b } := by
  obtain ⟨hok, hleft, -, -, -⟩ := h
  rcases nextRaw_ok rand hok with ⟨-, hend⟩ | ⟨hi, c, q, g, tp, -, -, hnext⟩
  · exact hend
  · obtain ⟨n, hn⟩ := Nat.exists_eq_add_of_lt hi
    rw [bytesLeft, show b.last.length - b.i = n + 1 by omega, walkRaw, hnext] at hleft
    cases hleft

/-- The walk takes the first byte left, and leaves the run state. -/
theorem Standing.nextRaw_cons (h : Standing rand (c :: bytes) prev cnt rep b) :
    ∃ b', nextRaw rand b = some { byte := some c, blk := b' } ∧ Standing rand bytes prev cnt rep b' := by
  obtain ⟨hok, hleft, hprev, hcnt, hrep⟩ := h
  rcases nextRaw_ok rand hok with ⟨hi, -⟩ | ⟨hi, d, q, g, tp, hq, htp, hnext⟩
  · rw [bytesLeft, hi, Nat.sub_self] at hleft
    cases hleft
  · obtain ⟨n, hn⟩ := Nat.exists_eq_add_of_lt hi
    rw [bytesLeft, show b.last.length - b.i = n + 1 by omega, walkRaw, hnext] at hleft
    obtain ⟨rfl, hrest⟩ := List.cons.inj hleft
    refine ⟨_, hnext, moved_ok hok hi hq htp, ?_, hprev, hcnt, hrep⟩
    rwa [bytesLeft, show b.last.length - (b.i + 1) = n by omega]

/-! ## Pulls -/

/-- Pulls deliver `cs` and leave a block of which `P` holds, whatever is pulled after them. -/
def PullsDeliver (rand : Bool) (cs : List Byte) (b : DecBlock) (P : DecBlock → Prop) : Prop :=
  ∃ b', P b' ∧ ∀ n, pulled rand (n + cs.length) b = cs ++ pulled rand n b'

theorem PullsDeliver.trans {cs ds : List Byte} {P Q : DecBlock → Prop} (h : PullsDeliver rand cs b P)
    (hP : ∀ b', P b' → PullsDeliver rand ds b' Q) : PullsDeliver rand (cs ++ ds) b Q := by
  obtain ⟨b1, h1, hcs⟩ := h
  obtain ⟨b2, h2, hds⟩ := hP b1 h1
  refine ⟨b2, h2, fun n => ?_⟩
  rw [List.length_append, Nat.add_comm cs.length, ← Nat.add_assoc, hcs, hds, List.append_assoc]

/-- A pull that answers a byte delivers it. -/
theorem pullsDeliver_of_nextByte {b' : DecBlock} {P : DecBlock → Prop} (h : P b')
    (hnext : nextByte rand b = some { byte := some c, blk := b' }) : PullsDeliver rand [c] b P :=
  ⟨b', h, fun n => by rw [List.length_singleton, pulled, hnext]; rfl⟩

/-- The end of the block (45 R294). -/
theorem Standing.pulled_end (h : Standing rand [] prev cnt 0 b) (n : Nat) : pulled rand n b = [] := by
  cases n with
  | zero => rfl
  | succ n => rw [pulled, nextByte, nextByteLoop, if_neg h.no_repeat, h.nextRaw_end]

/-- A byte that is no count is delivered (45 R294). -/
theorem Standing.pull_literal (h : Standing rand (c :: bytes) prev cnt 0 b) (hcnt : cnt ≠ 4) :
    PullsDeliver rand [c] b (Standing rand bytes (some c) (if prev = some c then cnt + 1 else 1) 0) := by
  obtain ⟨b', hnext, hok, hleft, hprev, hcnt', hrep⟩ := h.nextRaw_cons
  have hnext' : nextByte rand b = some (takeLiteral c b') := by
    rw [nextByte, nextByteLoop, if_neg h.no_repeat, hnext]
    exact if_neg (hcnt' ▸ hcnt)
  refine pullsDeliver_of_nextByte (b' := (takeLiteral c b').blk)
    ⟨takeLiteral_ok c hok hrep (hcnt' ▸ hcnt), ?_, ?_, ?_, ?_⟩ hnext'
  · rw [← hleft, takeLiteral]
    split
    · exact bytesLeft_withRun rand b' b'.prev _ b'.rep
    · exact bytesLeft_withRun rand b' _ _ b'.rep
  · rw [takeLiteral]
    split
    · next hp => exact hp
    · rfl
  · rw [takeLiteral, ← hprev, ← hcnt']
    split <;> rfl
  · rw [takeLiteral, ← hrep]
    split <;> rfl

/-- A repeat that is due is delivered (45 R294). -/
theorem Standing.pull_repeat (h : Standing rand bytes (some c) 0 (rep + 1) b) :
    PullsDeliver rand [c] b (Standing rand bytes (if rep = 0 then none else some c) 0 rep) := by
  obtain ⟨hok, hleft, hprev, hcnt, hrep⟩ := h
  obtain ⟨c', b', htake, hok'⟩ := takeRepeat_ok hok (by omega)
  have hpos : 0 < b.rep := by omega
  have hone := htake
  rw [takeRepeat, hprev] at hone
  obtain ⟨rfl, rfl⟩ : c = c' ∧ _ = b' := by simpa using hone
  have hnext : nextByte rand b = takeRepeat b := by rw [nextByte, nextByteLoop, if_pos hpos]
  refine pullsDeliver_of_nextByte ⟨hok', ?_, ?_, hcnt, ?_⟩ (hnext.trans htake)
  · rw [← hleft]
    exact bytesLeft_withRun rand b _ b.cnt _
  · rw [hrep, Nat.add_sub_cancel]
  · rw [hrep, Nat.add_sub_cancel]

/-- Short of a count, a pull is one turn of its loop (45 R294). -/
theorem Standing.nextByteLoop_eq (h : Standing rand bytes prev cnt rep b) (hcnt : cnt ≠ 4) (fuel : Nat) :
    nextByteLoop rand (fuel + 1) b = nextByteLoop rand 1 b := by
  rw [nextByteLoop, nextByteLoop]
  cases bytes with
  | nil => rw [h.nextRaw_end]
  | cons c bytes =>
    obtain ⟨b', hnext, hb'⟩ := h.nextRaw_cons
    rw [hnext]
    have hone : b'.cnt ≠ 4 := hb'.cnt ▸ hcnt
    dsimp only
    rw [if_neg hone, if_neg hone]

/-- A count is taken with the pull after it (45 R294). -/
theorem Standing.take_count (h : Standing rand (c :: bytes) prev 4 0 b) :
    PullsDeliver rand [] b (Standing rand bytes (if c.toNat = 0 then none else prev) 0 c.toNat) := by
  obtain ⟨b', hnext, hok, hleft, hprev, hcnt, hrep⟩ := h.nextRaw_cons
  have hzero : c = 0 ↔ c.toNat = 0 := BitVec.toNat_inj.symm
  have hafter : Standing rand bytes (if c.toNat = 0 then none else prev) 0 c.toNat (takeCount c b') := by
    refine ⟨(takeCount_ok c hok hrep hcnt).1, ?_, ?_, (takeCount_ok c hok hrep hcnt).2, ?_⟩
    · rw [← hleft, takeCount]
      split
      · exact bytesLeft_withRun rand b' _ _ b'.rep
      · exact bytesLeft_withRun rand b' b'.prev _ _
    · rw [takeCount, ← hprev]
      simp only [hzero]
      split <;> rfl
    · rw [takeCount]
      split
      · next h0 => exact hrep.trans (hzero.1 h0).symm
      · rfl
  have hpull : nextByte rand b = nextByte rand (takeCount c b') := by
    rw [nextByte, nextByte, hafter.nextByteLoop_eq (by decide), nextByteLoop, if_neg h.no_repeat,
      hnext]
    dsimp only
    rw [if_pos hcnt]
  refine ⟨_, hafter, fun n => ?_⟩
  cases n with
  | zero => rfl
  | succ n => rw [List.length_nil, Nat.add_zero, List.nil_append, pulled, pulled, hpull]

/-! ## The pulls of a run -/

/-- Equal bytes after one of them are literals, up to the fourth (45 R294). -/
theorem Standing.pull_equal {m : Nat} (h : Standing rand (List.replicate m c ++ bytes) (some c) cnt 0 b)
    (hm : cnt + m ≤ 4) : PullsDeliver rand (List.replicate m c) b (Standing rand bytes (some c) (cnt + m) 0) := by
  induction m generalizing cnt b with
  | zero => exact ⟨b, h, fun _ => rfl⟩
  | succ m ih =>
    refine (Standing.pull_literal h (by omega)).trans fun b' hb' => ?_
    rw [if_pos rfl] at hb'
    rw [Nat.add_comm m, ← Nat.add_assoc]
    exact ih hb' (by omega)

/-- Up to four equal bytes after another one are literals (45 R294). -/
theorem Standing.pull_fresh {m : Nat} (h : Standing rand (List.replicate m c ++ bytes) prev cnt 0 b) (hcnt : cnt ≠ 4)
    (hprev : prev ≠ some c) (hpos : 1 ≤ m) (hm : m ≤ 4) :
    PullsDeliver rand (List.replicate m c) b (Standing rand bytes (some c) m 0) := by
  obtain ⟨m, rfl⟩ := Nat.exists_eq_add_of_le' hpos
  refine (Standing.pull_literal h hcnt).trans fun b' hb' => ?_
  rw [if_neg hprev] at hb'
  rw [Nat.add_comm m]
  exact hb'.pull_equal (by omega)

/-- A count's repeats are delivered, and leave no byte to repeat (45 R294). -/
theorem Standing.pull_repeats {m : Nat} (h : Standing rand bytes (if m = 0 then none else some c) 0 m b) :
    PullsDeliver rand (List.replicate m c) b (Standing rand bytes none 0 0) := by
  induction m generalizing b with
  | zero => exact ⟨b, h, fun _ => rfl⟩
  | succ m ih => exact (Standing.pull_repeat h).trans fun _ => ih

/-- A run's encoded form delivers its raw bytes; its byte is compared with the next one where the run was short (42 R161,
R162). -/
theorem Standing.pull_run {r : Nat} (h : Standing rand (runBytes c r ++ bytes) prev cnt 0 b) (hcnt : cnt ≠ 4)
    (hprev : prev ≠ some c) (hpos : 1 ≤ r) (hr : r ≤ 255) :
    PullsDeliver rand (List.replicate r c) b fun b' =>
      ∃ prev' cnt', Standing rand bytes prev' cnt' 0 b' ∧ cnt' ≠ 4 ∧ (prev' ≠ none → prev' = some c ∧ r ≠ 255) := by
  rw [runBytes] at h
  by_cases hshort : r ≤ 3
  · rw [if_pos hshort] at h
    obtain ⟨b', hb', hpull⟩ := h.pull_fresh hcnt hprev hpos (by omega)
    exact ⟨b', ⟨some c, r, hb', by omega, fun _ => ⟨rfl, by omega⟩⟩, hpull⟩
  · rw [if_neg hshort, List.append_assoc] at h
    have hcount : (BitVec.ofNat 8 (r - 4)).toNat = r - 4 := by
      rw [BitVec.toNat_ofNat, Nat.mod_eq_of_lt (by omega)]
    obtain ⟨b', hb', hpull⟩ := ((h.pull_fresh hcnt hprev (by decide) le_rfl).trans fun _ h4 => h4.take_count).trans
      fun _ hrep => Standing.pull_repeats (hcount ▸ hrep)
    rw [List.append_nil, List.replicate_append_replicate, Nat.add_sub_cancel' (by omega)] at hpull
    exact ⟨b', ⟨none, 0, hb', by decide, fun hne => absurd rfl hne⟩, hpull⟩

end

/-! ## The pulls of a segmentation -/

theorem segmented_cons {x : Byte × Nat} {rest : List (Byte × Nat)} (h : segmented (x :: rest)) :
    (1 ≤ x.2 ∧ x.2 ≤ 255) ∧ segmented rest ∧ ∀ y ∈ rest.head?, x.1 ≠ y.1 ∨ x.2 = 255 := by
  cases rest with
  | nil => exact ⟨h, trivial, by simp⟩
  | cons y rest => exact ⟨h.1, h.2.2, fun _ hy => Option.some.inj hy ▸ h.2.1⟩

/-- A block that has a segmentation's encoded form left, and no byte to compare with its first run's, delivers the runs' raw
bytes and then ends. -/
theorem pulled_segmented {rand : Bool} {runs : List (Byte × Nat)} {prev : Option Byte} {cnt n : Nat} {b : DecBlock}
    (hruns : segmented runs) (h : Standing rand (runs.flatMap fun x => runBytes x.1 x.2) prev cnt 0 b) (hcnt : cnt ≠ 4)
    (hprev : ∀ x ∈ runs.head?, prev ≠ some x.1) (hn : (runs.map Prod.snd).sum < n) :
    pulled rand n b = runs.flatMap fun x => List.replicate x.2 x.1 := by
  induction runs generalizing prev cnt n b with
  | nil => exact h.pulled_end n
  | cons x rest ih =>
    obtain ⟨⟨hpos, hlong⟩, hrest, hnext⟩ := segmented_cons hruns
    obtain ⟨b', ⟨prev', cnt', hb', hcnt', hprev'⟩, hpull⟩ := Standing.pull_run h hcnt (hprev x rfl) hpos hlong
    rw [List.map_cons, List.sum_cons] at hn
    have hpull := hpull (n - x.2)
    rw [List.length_replicate, Nat.sub_add_cancel (by omega)] at hpull
    rw [hpull, List.flatMap_cons]
    refine congrArg _ (ih hrest hb' hcnt' (fun y hy heq => ?_) (by omega))
    obtain ⟨hc, hfull⟩ := hprev' (by rw [heq]; exact Option.some_ne_none _)
    rcases hnext y hy with hne | h255
    · exact hne (Option.some.inj (hc.symm.trans heq))
    · exact hfull h255

/-- Settles O42: a fresh block has the whole encoded form left and no byte to compare with. -/
theorem runLengthInverseGivesTheRawBytes : Obligations.RunLengthInverseGivesTheRawBytes := by
  intro rand runs b hruns hok hi hcnt hrep hprev hwalk n hn
  have hleft : bytesLeft rand b = runs.flatMap fun x => runBytes x.1 x.2 := by rw [bytesLeft, hi, Nat.sub_zero, hwalk]
  exact pulled_segmented hruns ⟨hok, hleft, hprev, hcnt, hrep⟩ (by decide) (fun _ _ => by simp) hn

end Sys2Proof.Machine
end

section
/-! SUPPORT. The randomisation mask (42_block_encoder R168, R169): where the countdown sets it, that it is its own inverse, and
that the decoder un-randomises with it (45_stream_decoder R293). -/

open Sys2Proof.Claims

namespace Sys2Proof.Machine

/-! ## The countdown -/

theorem rnums_length : rnums.length = 512 := by decide +kernel

theorem two_le_rnums : ∀ x ∈ rnums, 2 ≤ x := by decide +kernel

theorem countdown_succ (k : Nat) : countdown (k + 1) = countdown k + rnums.getD (k % 512) 0 := by
  rw [countdown, List.range_succ, List.map_append, List.sum_append]
  rfl

theorem countdown_add_two_le (k : Nat) : countdown k + 2 ≤ countdown (k + 1) := by
  have hk : k % 512 < rnums.length := by rw [rnums_length]; exact Nat.mod_lt k (Nat.succ_pos 511)
  rw [countdown_succ, List.getD_eq_getElem _ _ hk]
  exact Nat.add_le_add_left (two_le_rnums _ (List.getElem_mem hk)) _

theorem countdown_lt {j k : Nat} (h : j < k) : countdown j + 2 ≤ countdown k := by
  induction k, h using Nat.le_induction with
  | base => exact countdown_add_two_le j
  | succ k _ ih => have := countdown_add_two_le k; omega

/-- The counters before position `i`: `k` entries are loaded, the last of them runs out at `countdown k`, and the others have
run out (42 R168). -/
structure CountsAt (i k toGo tPos : Nat) : Prop where
  runsOut : i + toGo = countdown k
  next : tPos = k % 512
  passed : ∀ j < k, countdown j ≤ i

theorem countsAt_start : CountsAt 0 0 0 0 := ⟨rfl, rfl, fun j hj => absurd hj j.not_lt_zero⟩

/-- A step sets the mask two positions before the entry it counts down runs out (42 R168). -/
theorem CountsAt.step {i k toGo tPos : Nat} (h : CountsAt i k toGo tPos) :
    ∃ k', CountsAt (i + 1) k' (randStep toGo tPos).2.1 (randStep toGo tPos).2.2 ∧
      (randStep toGo tPos).1 = decide (i + 2 = countdown k') := by
  obtain ⟨hout, rfl, hpassed⟩ := h
  unfold randStep
  by_cases h0 : toGo = 0
  · have hnext := countdown_succ k
    have htwo := countdown_add_two_le k
    simp only [h0, if_true]
    refine ⟨k + 1, ⟨by omega, by omega, fun j hj => ?_⟩, decide_eq_decide.2 (by omega)⟩
    rcases Nat.lt_succ_iff_lt_or_eq.1 hj with hlt | rfl
    · exact (hpassed j hlt).trans i.le_succ
    · omega
  · simp only [h0, if_false]
    exact ⟨k, ⟨by omega, rfl, fun j hj => (hpassed j hj).trans i.le_succ⟩, decide_eq_decide.2 (by omega)⟩

/-- The entry being counted down is the only one that can run out two positions on. -/
theorem CountsAt.runsOut_iff {i k toGo tPos : Nat} (h : CountsAt (i + 1) k toGo tPos) :
    i + 2 = countdown k ↔ ∃ j, i + 2 = countdown (j + 1) := by
  obtain ⟨hout, -, hpassed⟩ := h
  constructor
  · intro hk
    obtain ⟨j, rfl⟩ := Nat.exists_eq_succ_of_ne_zero (show k ≠ 0 by rintro rfl; exact absurd hk (by simp [countdown]))
    exact ⟨j, hk⟩
  · rintro ⟨j, hj⟩
    rcases Nat.lt_trichotomy (j + 1) k with hlt | rfl | hgt
    · have := hpassed _ hlt; omega
    · exact hj
    · have := countdown_lt hgt; omega

/-! ## The mask -/

@[simp] theorem maskByte_self (m : Bool) (b : Byte) : maskByte m (maskByte m b) = b := by
  cases m
  · rfl
  · simp [maskByte]

/-- Position `j` of a block masked from position `i` on is flipped where an entry runs out two positions after it. -/
theorem maskFrom_getElem? {i k toGo tPos : Nat} (h : CountsAt i k toGo tPos) (block : List Byte) (j : Nat) {m : Bool}
    (hm : m = true ↔ ∃ l, i + j + 2 = countdown (l + 1)) :
    (maskFrom toGo tPos block)[j]? = block[j]?.map (maskByte m) := by
  induction block generalizing i k toGo tPos j with
  | nil => rfl
  | cons b bs ih =>
    obtain ⟨k', hcounts, hmask⟩ := h.step
    rw [maskFrom]
    cases j with
    | zero =>
      have hbit : (randStep toGo tPos).1 = m := by
        rw [hmask, Bool.eq_iff_iff, decide_eq_true_iff, hcounts.runsOut_iff, hm, Nat.add_zero]
      rw [hbit]
      rfl
    | succ j =>
      rw [List.getElem?_cons_succ, List.getElem?_cons_succ]
      exact ih hcounts j (by rw [hm, Nat.add_right_comm i 1, Nat.add_assoc i j])

theorem maskFrom_maskFrom (toGo tPos : Nat) (block : List Byte) :
    maskFrom toGo tPos (maskFrom toGo tPos block) = block := by
  induction block generalizing toGo tPos with
  | nil => rfl
  | cons b bs ih => rw [maskFrom, maskFrom, ih, maskByte_self]

theorem maskBlock_maskBlock (rand : Bool) (block : List Byte) : maskBlock rand (maskBlock rand block) = block := by
  cases rand
  · rfl
  · exact maskFrom_maskFrom 0 0 block

/-! ## The un-randomised walk -/

/-- The chain steps neither read nor write the counters (45 R292). -/
theorem walk_withCounters (n : Nat) (b : DecBlock) (g t : Nat) : walk n { b with rNToGo := g, rTPos := t } = walk n b := by
  induction n generalizing b with
  | zero => rfl
  | succ n ih =>
    rw [walk, walk, nextBlockByte, nextBlockByte]
    by_cases hi : b.i = b.last.length
    · rw [if_pos hi, if_pos hi]
    · rw [if_neg hi, if_neg hi]
      rcases b.last[b.p]? with _ | c
      · rfl
      rcases b.tt[b.p]? with _ | q
      · rfl
      · exact congrArg (c :: ·) (ih { b with p := q, i := b.i + 1 })

theorem nextBlockByte_counters {b b' : DecBlock} {x : Option Byte} (h : nextBlockByte b = some { byte := x, blk := b' }) :
    b'.rNToGo = b.rNToGo ∧ b'.rTPos = b.rTPos := by
  unfold nextBlockByte at h
  split at h
  · cases h; exact ⟨rfl, rfl⟩
  split at h
  · cases h; exact ⟨rfl, rfl⟩
  · cases h

/-- The walk of a block that is not randomised is the chain's (45 R293). -/
theorem walkRaw_false (n : Nat) (b : DecBlock) : walkRaw false n b = walk n b := by
  induction n generalizing b with
  | zero => rfl
  | succ n ih =>
    rw [walkRaw, walk, nextRaw]
    rcases nextBlockByte b with _ | ⟨_ | c, b'⟩
    · rfl
    · rfl
    · exact congrArg (c :: ·) (ih b')

/-- The walk of a randomised block is the chain's, masked from the block's counters on (45 R293). -/
theorem walkRaw_true (n : Nat) (b : DecBlock) : walkRaw true n b = maskFrom b.rNToGo b.rTPos (walk n b) := by
  induction n generalizing b with
  | zero => rfl
  | succ n ih =>
    rw [walkRaw, walk, nextRaw]
    rcases hnext : nextBlockByte b with _ | ⟨_ | c, b'⟩
    · rfl
    · rfl
    · obtain ⟨hgo, hpos⟩ := nextBlockByte_counters hnext
      dsimp only
      rw [if_pos rfl, maskFrom, hgo, hpos]
      dsimp only
      rw [ih, walk_withCounters]

theorem walkRaw_eq_maskBlock (rand : Bool) (n : Nat) {b : DecBlock} (hgo : b.rNToGo = 0) (hpos : b.rTPos = 0) :
    walkRaw rand n b = maskBlock rand (walk n b) := by
  cases rand
  · exact walkRaw_false n b
  · rw [walkRaw_true, hgo, hpos, maskBlock, if_pos rfl]

/-- Settles O39: the mask by its countdown from the start of a block, and the walk by the same counters. -/
theorem walkIsUnmasked : Obligations.WalkIsUnmasked := by
  refine ⟨fun block i => ⟨fun h => ?_, fun h => ?_⟩, by decide, rnums_length, fun _ => rfl, maskBlock_maskBlock,
    fun rand n b => walkRaw_eq_maskBlock rand n⟩
  · exact maskFrom_getElem? (m := true) countsAt_start block i (by simpa using h)
  · exact (maskFrom_getElem? (m := false) countsAt_start block i (by simpa using h)).trans (congrFun Option.map_id _)

end Sys2Proof.Machine
end

section
/-! SUPPORT. The bits of a block, element by element, are the fields the statements list (43_huffman R212..R214,
44_stream_encoder R254). -/

open Sys2Proof.Claims

namespace Sys2Proof.Machine

/-! ## Fields -/

/-- A field of `n` bits takes a value's low `n` bits, which is what a word of that width holds of it. -/
theorem bitsOf_ofNat (n v : Nat) : bitsOf n (BitVec.ofNat n v).toNat = bitsOf n v := by
  conv_rhs => rw [← Nat.div_add_mod v (2 ^ n), bitsOf_add_mul n n _ _ le_rfl]
  rw [BitVec.toNat_ofNat]

/-- A field whose value is given by its bits has these bits. -/
theorem bitsOf_ofNat_valueOf {n : Nat} {bs : List Bool} (h : bs.length = n) :
    bitsOf n (BitVec.ofNat n (valueOf bs)).toNat = bs := by
  rw [bitsOf_ofNat, ← h, bitsOf_valueOf]

theorem bitsOf_blockMagic : bitsOf 24 0x314159 ++ bitsOf 24 0x265359 = bitsOf 48 0x314159265359 := by decide

/-! ## The mapping -/

@[simp] theorem groupBits_length (used : List Byte) (i : Nat) : (groupBits used i).length = 16 := by
  simp [groupBits]

/-- A group of 16 byte values is in use where one of its values is (30_encoding R83). -/
theorem groupBits_any {used : List Byte} {i : Nat} (hi : i < 16) :
    (groupBits used i).any id = used.any fun c => c.toNat / 16 = i := by
  rw [Bool.eq_iff_iff, groupBits, List.any_map, List.any_eq_true, List.any_eq_true]
  constructor
  · rintro ⟨j, hj, hin⟩
    have hj : j < 16 := List.mem_range.1 hj
    refine ⟨BitVec.ofNat 8 (16 * i + j), by simpa using hin, ?_⟩
    rw [BitVec.toNat_ofNat, Nat.mod_eq_of_lt (by omega), decide_eq_true_iff]
    omega
  · rintro ⟨c, hc, hgroup⟩
    have hgroup : c.toNat / 16 = i := of_decide_eq_true hgroup
    refine ⟨c.toNat % 16, List.mem_range.2 (Nat.mod_lt _ (by decide)), ?_⟩
    rw [← hgroup, Function.comp_apply, id, Nat.div_add_mod, BitVec.ofNat_toNat, BitVec.setWidth_eq]
    simpa using hc

theorem mappingElements_bits (used : List Byte) :
    (mappingElements used).flatMap (encode noCodes) = mappingBits used := by
  have hgroups : usedGroups used = (List.range 16).map fun i => used.any fun c => c.toNat / 16 = i :=
    List.map_congr_left fun i hi => groupBits_any (List.mem_range.1 hi)
  have hfilter : ((List.range 16).filter fun i => (groupBits used i).any id) =
      (List.range 16).filter fun i => used.any fun c => c.toNat / 16 = i :=
    List.filter_congr fun i hi => groupBits_any (List.mem_range.1 hi)
  have hword : ∀ i, encode noCodes (.inUseWord (BitVec.ofNat 16 (valueOf (groupBits used i)))) = groupBits used i :=
    fun i => bitsOf_ofNat_valueOf (groupBits_length used i)
  have hfirst : encode noCodes (.inUse16 (BitVec.ofNat 16 (valueOf (usedGroups used)))) = usedGroups used :=
    bitsOf_ofNat_valueOf (by simp [usedGroups])
  rw [mappingElements, List.flatMap_cons, List.flatMap_map, hfirst, hfilter, hgroups, mappingBits]
  simp only [hword]
  rfl

/-! ## The code lengths -/

theorem flatMap_replicate (n : Nat) (i : Instr) :
    (List.replicate n i).flatMap (encode noCodes) = (List.replicate n (encode noCodes i)).flatten := by
  rw [List.flatMap_def, List.map_replicate]

theorem adjustElements_bits (curr len : Nat) :
    (adjustElements curr len).flatMap (encode noCodes) =
      (List.replicate (len - curr) [true, false]).flatten ++ (List.replicate (curr - len) [true, true]).flatten ++
        [false] := by
  rw [adjustElements, List.flatMap_append, List.flatMap_append, flatMap_replicate, flatMap_replicate]
  rfl

theorem lengthElementsFrom_bits (curr : Nat) (lens : List Nat) :
    (lengthElementsFrom curr lens).flatMap (encode noCodes) = lengthBits curr lens := by
  induction lens generalizing curr with
  | nil => rfl
  | cons l ls ih => rw [lengthElementsFrom, List.flatMap_append, adjustElements_bits, ih, lengthBits]

theorem lengthElements_bits (lens : List Nat) :
    (lengthElements lens).flatMap (encode noCodes) = bitsOf 5 (lens.headD 0) ++ lengthBits (lens.headD 0) lens := by
  rw [lengthElements, List.flatMap_cons, lengthElementsFrom_bits]
  exact congrArg (· ++ _) (bitsOf_ofNat 5 _)

/-! ## The symbols -/

theorem refine_selector_length (alphaSize nGroups : Nat) (groups : List (List Nat)) (n : Nat)
    (r : List (List Nat) × List Nat) : (refine alphaSize nGroups groups (n + 1) r).2.length = groups.length := by
  induction n generalizing r with
  | zero => exact List.length_map _
  | succ n ih => exact ih _

/-- There is a selector for every group (43 R204, R209). -/
theorem selectTables_selector_length (mtfv mtfFreq : List Nat) (alphaSize : Nat) :
    (selectTables mtfv mtfFreq alphaSize).2.length = (groupsOf mtfv).length :=
  refine_selector_length alphaSize _ _ 3 _

theorem flatMap_take {β : Type} (f : Nat → List β) {l : List Nat} {k : Nat} (hk : k ≤ l.length) :
    (l.take k).flatMap f = (List.range k).flatMap fun i => f (l.getD i 0) := by
  rw [← map_range_getD hk, List.flatMap_map]

/-- Group by group, or symbol by symbol with the group that a position is in. -/
theorem flatMap_chunks {β : Type} (f : Nat → Nat → List β) {size : Nat} (hsize : 0 < size) (fuel : Nat) (l sel : List Nat)
    (hfuel : l.length ≤ fuel) (hsel : sel.length = (chunksFuel size fuel l).length) :
    (((chunksFuel size fuel l).zip sel).flatMap fun g => g.1.flatMap (f g.2)) =
      (List.range l.length).flatMap fun i => f (sel.getD (i / size) 0) (l.getD i 0) := by
  induction fuel generalizing l sel with
  | zero => rw [List.length_eq_zero_iff.1 (Nat.le_zero.1 hfuel)]; rfl
  | succ fuel ih =>
    rcases l with _ | ⟨x, xs⟩
    · rfl
    have hchunks : chunksFuel size (fuel + 1) (x :: xs) =
        (x :: xs).take size :: chunksFuel size fuel ((x :: xs).drop size) := rfl
    have hpos : 0 < (x :: xs).length := Nat.succ_pos _
    rw [hchunks] at hsel ⊢
    generalize x :: xs = l at *
    obtain ⟨t, sel, rfl⟩ := List.exists_cons_of_length_eq_add_one hsel
    have hlen : l.length = min size l.length + (l.drop size).length := by rw [List.length_drop]; omega
    rw [List.zip_cons_cons, List.flatMap_cons, ih _ _ (by omega) (Nat.succ.inj hsel), List.take_eq_take_min,
      flatMap_take _ (min_le_right _ _)]
    conv_rhs => rw [hlen, List.range_add, List.flatMap_append, List.flatMap_map]
    congr 1
    · refine List.flatMap_congr fun i hi => ?_
      rw [Nat.div_eq_of_lt (lt_min_iff.1 (List.mem_range.1 hi)).1, List.getD_cons_zero]
    · refine List.flatMap_congr fun i hi => ?_
      have hfull : min size l.length = size := by have := List.mem_range.1 hi; omega
      have hget : (l.drop size).getD i 0 = l.getD (size + i) 0 := by
        rw [List.getD_eq_getElem?_getD, List.getElem?_drop, ← List.getD_eq_getElem?_getD]
      rw [hfull, Nat.add_div_left _ hsize, List.getD_cons_succ, hget]

theorem symbolBits_eq (sc : EncScratch) (hcodes : sc.codes = sc.lens.map canonicalCodes)
    (hsel : sc.selector.length = (groupsOf sc.mtfv).length) :
    symbolBits sc = (List.range sc.mtfv.length).flatMap fun i =>
      bitsOf ((sc.lens.getD (sc.selector.getD (i / 50) 0) []).getD (sc.mtfv.getD i 0) 0)
        ((canonicalCodes (sc.lens.getD (sc.selector.getD (i / 50) 0) [])).getD (sc.mtfv.getD i 0) 0) := by
  have hcode : ∀ t, sc.codes.getD t [] = canonicalCodes (sc.lens.getD t []) := fun t => by
    rw [hcodes]
    exact List.getD_map _ [] canonicalCodes
  rw [symbolBits, groupsOf, flatMap_chunks
    (fun t v => encode (bookOf (sc.lens.getD t []) (sc.codes.getD t [])) (.huffSymbol v)) (by decide) _ _ _ le_rfl hsel]
  simp only [hcode]
  rfl

/-! ## The block -/

theorem buildScratch_codes (rand : Bool) (block : List Byte) :
    (buildScratch rand block).codes = (buildScratch rand block).lens.map canonicalCodes := by
  simp only [buildScratch]

theorem buildScratch_selector_length (rand : Bool) (block : List Byte) :
    (buildScratch rand block).selector.length = (groupsOf (buildScratch rand block).mtfv).length :=
  selectTables_selector_length _ _ _

/-- A block's bits, field by field (44 R254). -/
theorem blockBits_eq_emitted (crc : Word) (block : List Byte) :
    blockBits (crcValue crc) (buildScratch (randomise block) block) = emitted crc block := by
  rw [blockBits, symbolBits_eq _ (buildScratch_codes _ _) (buildScratch_selector_length _ _), blockElements]
  simp only [List.flatMap_append, mappingElements_bits, List.flatMap_map, List.flatMap_assoc, lengthElements_bits,
    List.flatMap_cons, List.flatMap_nil, List.append_nil, encode, bitsOf_ofNat, bitsOf_blockMagic]
  simp only [emitted, buildScratch, inUseSet, eobOf, alphaSizeOf, findOrigPtr, symbolCounts, crcValue, List.append_assoc]

end Sys2Proof.Machine
end

section
/-! SUPPORT. Closing a block in an Open encoder (44_stream_encoder R252..R258): what CloseBlock and FlushRun answer where the
sort overflows its stack and where it does not, and the commands that close blocks. -/

open Sys2Proof.Claims

namespace Sys2Proof.Machine

/-! ## CloseBlock and FlushRun -/

/-- The state after the current block is emitted (44 R254). -/
def blockEmitted (s : State) : State :=
  { s with
    bw := writeBitList (emitted s.enc.crc s.enc.block) s.bw
    enc :=
      { s.enc with
        comb := s.enc.comb.rotateLeft 1 ^^^ (s.enc.crc ^^^ 0xFFFFFFFF)
        blocks := s.enc.blocks + 1
        rand := randomise s.enc.block
        block := []
        crc := 0xFFFFFFFF
        scratch := none } }

theorem blockEmitted_bits (s : State) :
    (blockEmitted s).bw.bits = s.bw.bits ++ emitted s.enc.crc s.enc.block := by
  rw [blockEmitted, writeBitList_bits]

@[simp] theorem blockEmitted_sortFaults (s : State) : (blockEmitted s).sortFaults = s.sortFaults := by
  rw [blockEmitted]

theorem runMoved_blockEmitted_block (c : Byte) (s : State) :
    (runMoved c (blockEmitted s).enc).block = runBytes c s.enc.run := by
  simp only [runMoved, blockEmitted, List.nil_append]

theorem closeBlock_emits {s : State} (h : s.enc.block ∉ s.sortFaults) : closeBlock s = .done () (blockEmitted s) := by
  rw [closeBlock_eq, if_neg h, blockBits_eq_emitted, crcCombine_eq]
  rfl

theorem closeBlock_raises {s : State} (h : s.enc.block ∈ s.sortFaults) : closeBlock s = .raised .sortStackOverflow s := by
  rw [closeBlock_eq, if_pos h]

theorem appendRun_eq (c : Byte) (s : State) : appendRun c s = { s with enc := runMoved c s.enc } := by
  rw [appendRun, crcRepeat_eq]
  rfl

theorem flushRun_fits {c : Byte} {s : State}
    (h : s.enc.block.length + (runBytes c s.enc.run).length ≤ 100000 * s.enc.k - 20) :
    flushRun c s = .done () { s with enc := runMoved c s.enc } := by
  have hcap : ¬ capEnc s.enc.k < s.enc.block.length + (runBytes c s.enc.run).length := Nat.not_lt.2 h
  rw [flushRun, if_neg hcap, appendRun_eq]

/-- A run that does not fit closes the block first (42 R164, 44 R253). -/
theorem flushRun_closes {c : Byte} {s : State}
    (h : 100000 * s.enc.k - 20 < s.enc.block.length + (runBytes c s.enc.run).length) :
    flushRun c s = (closeBlock s).andThen fun _ t => .done () { t with enc := runMoved c t.enc } := by
  have hcap : capEnc s.enc.k < s.enc.block.length + (runBytes c s.enc.run).length := h
  rw [flushRun, if_pos hcap]
  simp only [appendRun_eq]

theorem flushRun_raises {c : Byte} {s : State}
    (h : 100000 * s.enc.k - 20 < s.enc.block.length + (runBytes c s.enc.run).length) (hf : s.enc.block ∈ s.sortFaults) :
    flushRun c s = .raised .sortStackOverflow s := by
  rw [flushRun_closes h, closeBlock_raises hf, andThen_raised]

theorem flushRun_emits {c : Byte} {s : State}
    (h : 100000 * s.enc.k - 20 < s.enc.block.length + (runBytes c s.enc.run).length) (hf : s.enc.block ∉ s.sortFaults) :
    flushRun c s = .done () { blockEmitted s with enc := runMoved c (blockEmitted s).enc } := by
  rw [flushRun_closes h, closeBlock_emits hf, andThen_done]

theorem flushPending_some {c : Byte} {s : State} (h : s.enc.cur = some c) : flushPending s = flushRun c s := by
  rw [flushPending, h]

theorem flushPending_none {s : State} (h : s.enc.cur = none) : flushPending s = .done () s := by
  rw [flushPending, h]

theorem runBytes_ne_nil (c : Byte) {r : Nat} (h : r ≠ 0) : runBytes c r ≠ [] := by
  unfold runBytes
  split
  · exact fun hnil => h (by simpa using hnil)
  · simp

/-! ## The commands -/

theorem finishEnc_raised (c : Cause) (s : State) : finishEnc (.raised c s) = .next (encFaulted c s) := rfl

theorem exec_encWrite_opened {s : State} (b : Byte) (h : s.enc.state = .opened) :
    exec (.encWrite b) s = finishEnc (writeRaw b s) := by
  change execEncWrite b s = _
  rw [execEncWrite, h]

theorem exec_encClose_opened {s : State} (h : s.enc.state = .opened) : exec .encClose s = finishEnc (closeStream s) := by
  change execEncClose s = _
  rw [execEncClose, h]

/-- ENC_WRITE of another byte flushes the pending run first (44 R252). -/
theorem exec_encWrite_raises {s : State} {b c : Byte} (ho : s.enc.state = .opened) (hc : s.enc.cur = some c) (hcb : c ≠ b)
    (h : flushRun c s = .raised .sortStackOverflow s) :
    exec (.encWrite b) s = .next (encFaulted .sortStackOverflow s) := by
  have hcur : ¬ s.enc.cur = some b := fun heq => hcb (Option.some.inj (hc.symm.trans heq))
  rw [exec_encWrite_opened b ho, writeRaw, takeByte, if_neg hcur, flushPending_some hc, h, andThen_raised, andThen_raised,
    finishEnc_raised]

/-- ENC_WRITE of the 255th equal byte flushes the run at once (44 R252, 42 R161). -/
theorem exec_encWrite_full {s : State} {b : Byte} (ho : s.enc.state = .opened) (hc : s.enc.cur = some b)
    (hr : s.enc.run = 254) :
    exec (.encWrite b) s = finishEnc (flushRun b { s with enc := { s.enc with run := 255 } }) := by
  rw [exec_encWrite_opened b ho, writeRaw, takeByte, if_pos hc, andThen_done, hr]
  rfl

/-- ENC_CLOSE whose pending run raises (44 R256). -/
theorem exec_encClose_raises_flush {s t : State} (ho : s.enc.state = .opened)
    (h : flushPending s = .raised .sortStackOverflow t) : exec .encClose s = .next (encFaulted .sortStackOverflow t) := by
  rw [exec_encClose_opened ho, closeStream, h, andThen_raised, finishEnc_raised]

/-- ENC_CLOSE whose last block raises (44 R256). -/
theorem exec_encClose_raises_last {s t : State} (ho : s.enc.state = .opened) (h : flushPending s = .done () t)
    (hne : t.enc.block ≠ []) (hf : t.enc.block ∈ t.sortFaults) :
    exec .encClose s = .next (encFaulted .sortStackOverflow t) := by
  rw [exec_encClose_opened ho, closeStream, h, andThen_done, closeNonEmpty, if_neg hne, closeBlock_raises hf, andThen_raised,
    finishEnc_raised]

/-- Settles O47: each case comes to a CloseBlock, which raises; only where ENC_CLOSE's first block is emitted does anything
change before. -/
theorem sortFaultFaultsTheEncoder : Obligations.SortFaultFaultsTheEncoder := by
  refine fun s ho => ⟨fun b c hc hcb hlen hf => ?_, fun b hc hr hlen hf => ?_,
    fun c hc hlen => ⟨fun hf => ?_, fun hf hf' hr => ?_⟩, fun c hc hlen hf hr => ?_, fun hc hne hf => ?_⟩
  · exact exec_encWrite_raises ho hc hcb (flushRun_raises hlen hf)
  · have hraise := flushRun_raises (c := b) (s := { s with enc := { s.enc with run := 255 } }) hlen hf
    rw [exec_encWrite_full ho hc hr, hraise, finishEnc_raised]
  · exact exec_encClose_raises_flush ho ((flushPending_some hc).trans (flushRun_raises hlen hf))
  · refine ⟨(blockEmitted s).bw, ?_, blockEmitted_bits s⟩
    have hflush := (flushPending_some hc).trans (flushRun_emits hlen hf)
    have hblock := runMoved_blockEmitted_block c s
    refine (exec_encClose_raises_last ho hflush ?_ ?_).trans ?_
    · rw [hblock]
      exact runBytes_ne_nil c hr
    · rw [hblock, blockEmitted_sortFaults]
      exact hf'
    · simp only [encFaulted, runMoved, blockEmitted, List.nil_append]
  · have hne : s.enc.block ++ runBytes c s.enc.run ≠ [] := List.append_ne_nil_of_right_ne_nil _ (runBytes_ne_nil c hr)
    exact exec_encClose_raises_last ho ((flushPending_some hc).trans (flushRun_fits hlen)) hne hf
  · exact exec_encClose_raises_last ho (flushPending_none hc) hne hf

end Sys2Proof.Machine
end

section
/-! SUPPORT. The codes of a block: the code lengths the encoder builds (43_huffman R207, R208), the codes that decode back
(R226, R227), and the selector MTF (R210) under its inverse (R224). -/

open Sys2Proof.Claims

namespace Sys2Proof.Machine

/-! ## Code lengths and codes -/

/-- The encoder's lengths are those of one tree, none over the limit (43 R207, R208). -/
theorem makeCodeLengths_legal {freq : List Nat} (h2 : 2 ≤ freq.length) (h258 : freq.length ≤ 258) :
    (makeCodeLengths freq 20).length = freq.length ∧ (∀ l ∈ makeCodeLengths freq 20, 1 ≤ l ∧ l ≤ 20) ∧
      ((makeCodeLengths freq 20).map fun l => 2 ^ (20 - l)).sum = 2 ^ 20 := by
  obtain ⟨ws, hlen, htree, hle⟩ := makeCodeLengths_spec (by omega) h258
  have hcount : (treeLengths ws).length = freq.length := (treeLengths_length ws).trans hlen
  have hroom := treeLengths_room (ws := ws) (by omega)
  rw [htree]
  exact ⟨hcount, fun l hl => ⟨room_pos hroom (by omega) l hl, hle l hl⟩, room_nat hroom hle⟩

/-- Settles O8: a symbol's code is read length by length, and the encoder's lengths are those of a whole tree. -/
theorem canonicalCodesDecodeBack : Obligations.CanonicalCodesDecodeBack := by
  refine ⟨fun lens v r rest hlens hroom hv hb => ?_, fun freq => makeCodeLengths_legal⟩
  obtain ⟨q, hq, hrest, -⟩ := decodeSymbol_answers hlens hv hroom hb
  exact ⟨q, hq, hrest⟩

/-! ## The selector MTF -/

theorem moveToFront_perm {α : Type} [Inhabited α] {l : List α} {j : Nat} (hj : j < l.length) : (moveToFront l j).Perm l := by
  rw [moveToFront, List.getD_eq_getElem _ _ hj]
  exact List.getElem_cons_eraseIdx_perm hj

/-- From any list that holds the selectors, the inverse takes each back from its rank, and both move it to the front. -/
theorem selectorsOf_selectorMtfFrom {pos selector : List Nat} (hin : ∀ t ∈ selector, t ∈ pos) :
    selectorsOf pos (selectorMtfFrom pos selector) = selector ∧
      ∀ j ∈ selectorMtfFrom pos selector, j < pos.length := by
  induction selector generalizing pos with
  | nil => exact ⟨rfl, fun j hj => nomatch hj⟩
  | cons t ts ih =>
    have hlt : pos.idxOf t < pos.length := List.idxOf_lt_length_of_mem (hin t List.mem_cons_self)
    have hget : pos.getD (pos.idxOf t) 0 = t := by rw [List.getD_eq_getElem _ _ hlt, List.getElem_idxOf]
    have hperm := moveToFront_perm hlt
    obtain ⟨hback, hranks⟩ := ih fun u hu => hperm.mem_iff.2 (hin u (List.mem_cons_of_mem t hu))
    rw [hperm.length_eq] at hranks
    rw [selectorMtfFrom, selectorsOf, hget, hback]
    exact ⟨rfl, List.forall_mem_cons.2 ⟨hlt, hranks⟩⟩

/-- Settles O43: both sides start from the list of all tables. -/
theorem selectorMtfInverts : Obligations.SelectorMtfInverts := by
  intro nGroups selector hsel
  have hspec := selectorsOf_selectorMtfFrom fun t ht => List.mem_range.2 (hsel t ht)
  rwa [List.length_range] at hspec

end Sys2Proof.Machine
end

section
/-! SUPPORT. The elements of a block from its mapping to its symbols, each where the decoder stands at it (43_huffman
R220..R228, 45_stream_decoder R287..R293). -/

open Sys2Proof.Claims

namespace Sys2Proof.Machine

theorem wireFault_eq_decFaulted (c : Cause) (s : State) : wireFault c s = .next (decFaulted c s) := rfl

theorem atBlock_standsAt {p : BlockPos} {sc : DecScratch} {s : State} (h : standsAt p sc s)
    (k : DecScratch → Host.Outcome State Fault Refusal) : atBlock p s k = k sc := by
  obtain ⟨hread, hdec, hsc, hpos⟩ := h
  exact atBlock_here hread hdec hsc hpos

/-! ## The mapping (43 R220) -/

theorem setBits_eq_nil_iff {w : BitVec 16} : setBits w = [] ↔ w = 0 := by
  refine ⟨fun h => BitVec.eq_of_getLsbD_eq fun i hi => ?_, fun h => by rw [h]; rfl⟩
  have hclear := List.filter_eq_nil_iff.1 h (15 - i) (List.mem_range.2 (by omega))
  rw [show 15 - (15 - i) = i by omega] at hclear
  simpa using hclear

theorem endMapping_empty {sc : DecScratch} (s : State) (h : sc.seqToUnseq = []) :
    endMapping sc s = .next (decFaulted .noSymbolsInUse s) := if_pos h

theorem endMapping_nonempty {sc : DecScratch} (s : State) (h : sc.seqToUnseq ≠ []) :
    endMapping sc s = .next (withTables { sc with pos := .nGroups } s) := if_neg h

/-- Settles O56: each word's set bits are taken in wire order, and the last word ends the mapping. -/
theorem mappingElementsFollowTheirRule : Obligations.MappingElementsFollowTheirRule := by
  refine fun s sc => ⟨fun hat g => ⟨fun hg => ?_, fun hg => ?_⟩, fun hat u i left seq hmap hseq => ?_⟩
  · exact (atBlock_standsAt hat _).trans ((if_pos (setBits_eq_nil_iff.2 hg)).trans (endMapping_empty s rfl))
  · exact (atBlock_standsAt hat _).trans (if_neg (mt setBits_eq_nil_iff.1 hg))
  · have hexec : exec (.inUseWord u) s =
        if left = [] then endMapping { sc with mapLeft := [], seqToUnseq := seq } s
        else .next (withTables { sc with mapLeft := left, seqToUnseq := seq } s) := by
      refine (atBlock_standsAt hat _).trans ?_
      rw [hmap, hseq]
      rfl
    refine ⟨fun hleft => ?_, fun hleft hne => ?_, fun hleft hnil => ?_⟩
    · rw [hexec, if_neg hleft]
    · rw [hexec, if_pos hleft, endMapping_nonempty s hne]
    · rw [hexec, if_pos hleft, endMapping_empty s hnil]

/-! ## The counts and the selectors (43 R221..R224) -/

/-- Settles O57: each element checks its range once and then stores its value. -/
theorem countAndSelectorElementsFollowTheirRules : Obligations.CountAndSelectorElementsFollowTheirRules := by
  refine fun s sc => ⟨fun hat n => ⟨fun hn => ?_, fun hn => ?_⟩, fun hat n => ⟨fun hn => ?_, fun hn => ?_⟩,
    fun hat j => ⟨fun hj => ?_, fun hj => ?_⟩⟩
  · exact (atBlock_standsAt hat _).trans (if_pos hn)
  · exact (atBlock_standsAt hat _).trans (if_neg (by omega))
  · exact (atBlock_standsAt hat _).trans (if_pos hn)
  · exact (atBlock_standsAt hat _).trans (if_neg (by rw [maxSelectors]; omega))
  · exact (atBlock_standsAt hat _).trans (if_pos hj)
  · exact (atBlock_standsAt hat _).trans (if_neg (by omega))

/-! ## The code lengths (43 R225, R226) -/

theorem legalLength_iff {l : Nat} : legalLength l = true ↔ 1 ≤ l ∧ l ≤ 20 := by
  rw [legalLength, maxCodeLen, Bool.and_eq_true, decide_eq_true_iff, decide_eq_true_iff]

theorem setLength_legal {l : Nat} (sc : DecScratch) (s : State) (h : 1 ≤ l ∧ l ≤ 20) :
    setLength l sc s = .next (withTables { sc with curr := l, pos := .lenAdjust } s) := if_pos (legalLength_iff.2 h)

theorem setLength_illegal {l : Nat} (sc : DecScratch) (s : State) (h : ¬ (1 ≤ l ∧ l ≤ 20)) :
    setLength l sc s = .next (decFaulted .badCodeLength s) := if_neg (mt legalLength_iff.1 h)

theorem endLength_of_lt {sc : DecScratch} (h : sc.row.length + 1 < sc.seqToUnseq.length + 2) :
    endLength sc = { sc with row := sc.row ++ [sc.curr] } := by
  have hlt : (sc.row ++ [sc.curr]).length < alphaSizeOf sc.seqToUnseq.length := by rw [List.length_append]; exact h
  exact if_pos hlt

theorem endLength_of_eq {sc : DecScratch} (h : sc.row.length + 1 = sc.seqToUnseq.length + 2) :
    endLength sc =
      { sc with
        lens := sc.lens ++ [sc.row ++ [sc.curr]]
        tables := sc.tables ++ [buildDecTable (sc.row ++ [sc.curr])]
        row := []
        mtfList := sc.seqToUnseq
        pos := if sc.tables.length + 1 < sc.nGroups then .lenStart else .symbol } := by
  have hge : ¬ (sc.row ++ [sc.curr]).length < alphaSizeOf sc.seqToUnseq.length := by
    rw [List.length_append]
    exact h.ge.not_gt
  refine (if_neg hge).trans ?_
  rw [endTable, List.length_append]
  rfl

/-- Settles O58: the running length is checked as it changes, and the alphabet's last length ends the table. -/
theorem lengthElementsFollowTheirRules : Obligations.LengthElementsFollowTheirRules := by
  refine fun s sc => ⟨fun hat l => ⟨fun hl => ?_, fun hl => ?_⟩, fun hat h1 h20 => ?_⟩
  · exact (atBlock_standsAt hat _).trans (setLength_legal _ s hl)
  · exact (atBlock_standsAt hat _).trans (setLength_illegal _ s (by omega))
  · have hstay : ∀ curr, ({ sc with curr := curr, pos := .lenAdjust } : DecScratch) = { sc with curr := curr } := by
      obtain ⟨-, -, -, hpos⟩ := hat
      intro curr
      rw [← hpos]
    refine ⟨fun h => ?_, fun h => ?_, fun h => ?_, fun h => ?_, fun h => ?_, fun h => ?_⟩
    · rw [← hstay]
      exact (atBlock_standsAt hat _).trans (setLength_legal sc s (by omega))
    · exact (atBlock_standsAt hat _).trans (setLength_illegal sc s (by omega))
    · rw [← hstay]
      exact (atBlock_standsAt hat _).trans (setLength_legal sc s (by omega))
    · exact (atBlock_standsAt hat _).trans (setLength_illegal sc s (by omega))
    · rw [← endLength_of_lt h]
      exact atBlock_standsAt hat _
    · rw [← endLength_of_eq h]
      exact atBlock_standsAt hat _

/-! ## One symbol (45 R287..R293) -/

theorem flushed_length (sc : DecScratch) : (flushed sc).length = sc.out.length + sc.run.getD 0 := by
  rw [flushed, List.length_append, List.length_replicate]

section
variable {v : Nat} {sc : DecScratch} {s : State}

/-- A run symbol adds its digit, within the block's capacity (45 R287, R289). -/
theorem takeSymbol_run (hv : v ≤ 1) :
    takeSymbol v sc s =
      if capDec s.dec.k < (addRunDigit v sc).run.getD 0 then .next (decFaulted .blockOverflow s)
      else .next (withTables (addRunDigit v sc) s) :=
  if_pos (Nat.le_one_iff_eq_zero_or_eq_one.1 hv)

/-- No other symbol is taken where the pending run does not fit (45 R289). -/
theorem takeSymbol_overflow (hv : 2 ≤ v) (hcap : capDec s.dec.k < (flushed sc).length) :
    takeSymbol v sc s = .next (decFaulted .blockOverflow s) := by
  rw [flushed_length] at hcap
  rw [takeSymbol, if_neg (by rw [runA, runB]; omega), if_pos hcap, wireFault_eq_decFaulted]

/-- Past the flush a symbol is EOB or a rank (45 R287). -/
theorem takeSymbol_flushed (hv : 2 ≤ v) (hcap : (flushed sc).length ≤ capDec s.dec.k) :
    takeSymbol v sc s =
      if v = eobOf sc.seqToUnseq.length then endSymbols (flushZeroRun sc) s
      else if capDec s.dec.k < (flushed sc).length + 1 then .next (decFaulted .blockOverflow s)
      else .next (withTables (takeRank v (flushZeroRun sc)) s) := by
  rw [flushed_length] at hcap
  rw [takeSymbol, if_neg (by rw [runA, runB]; omega), if_neg (by omega)]
  rfl

end

/-! ## HUFF_SYMBOL (43 R228) -/

theorem nextGroup_advances (sc : DecScratch) :
    ({ sc with groupsUsed := (nextGroup sc).1, left := (nextGroup sc).2 - 1 } : DecScratch) = advanced sc := by
  rw [nextGroup, advanced]
  split <;> rfl

theorem nextGroup_le {sc : DecScratch} (h0 : sc.left = 0 → sc.groupsUsed < sc.nSelectors)
    (h1 : sc.left ≠ 0 → sc.groupsUsed ≤ sc.nSelectors) : (nextGroup sc).1 ≤ sc.nSelectors := by
  rw [nextGroup]
  split
  · next h => exact h0 h
  · next h => exact h1 h

theorem fetchSymbol_exhausted {sc : DecScratch} (r : Reader) (hleft : sc.left = 0) (hused : sc.nSelectors ≤ sc.groupsUsed) :
    fetchSymbol sc r = (.error .selectorsExhausted, r) := by
  have hnext : sc.nSelectors < (nextGroup sc).1 := by rw [nextGroup, if_pos hleft]; exact Nat.lt_succ_of_le hused
  exact if_pos hnext

section
variable {s : State} {sc : DecScratch} {v : Nat} (hat : standsAt .symbol sc s)
include hat

theorem fetchElement_symbol : fetchElement s.dec s.br = some (fetchSymbol sc s.br) := by
  obtain ⟨-, hdec, hsc, hpos⟩ := hat
  rw [fetchElement_inBlock _ hdec hsc, fetchBlock, hpos]

variable (hnext : (nextGroup sc).1 ≤ sc.nSelectors)
include hnext

theorem exec_huffSymbol_above (hv : sc.seqToUnseq.length + 1 < v) :
    exec (.huffSymbol v) s = .next (decFaulted .symbolOutOfRange s) :=
  (atBlock_standsAt hat _).trans ((if_neg hnext.not_gt).trans (if_pos hv))

/-- A symbol of the alphabet takes one place of its group and is taken under the tables then (43 R228). -/
theorem exec_huffSymbol_takes (hv : v ≤ sc.seqToUnseq.length + 1) :
    exec (.huffSymbol v) s = takeSymbol v (advanced sc) s := by
  rw [← nextGroup_advances]
  exact (atBlock_standsAt hat _).trans ((if_neg hnext.not_gt).trans (if_neg (Nat.lt_succ_of_le hv).not_ge))

end

/-- Settles O59: the fetch by the symbol's group; the element by the kind of its symbol: two cases of a run symbol, two of a
rank, three of EOB, and a symbol above it. -/
theorem symbolElementsFollowTheirRules : Obligations.SymbolElementsFollowTheirRules := by
  intro s sc v w run hat hne hw hrun
  have hpos : 0 < sc.seqToUnseq.length := List.length_pos_of_ne_nil hne
  have hdigit : addRunDigit v (advanced sc) = { advanced sc with run := some run, weight := 2 * w } := by
    rw [hrun, hw]; rfl
  refine ⟨fun hleft hused => ?_, fun g t table hg hsel ht => ?_, fun h0 h1 => ?_⟩
  · rw [fetchElement_symbol hat, fetchSymbol_exhausted s.br hleft hused]
  · rw [fetchElement_symbol hat, fetchSymbol_inGroup s.br hg hsel ht]
  have hnext := nextGroup_le h0 h1
  refine ⟨fun hv hcap => ?_, fun hv hcap => ?_, fun h2 hv hcap => ?_, fun h2 hv hcap => ?_, fun hv hcap => ?_,
    fun hv hcap hptr => ?_, fun hv hcap hptr => ?_, fun hv => exec_huffSymbol_above hat hnext hv⟩
  · rw [exec_huffSymbol_takes hat hnext (by omega), takeSymbol_run hv, hdigit]
    exact if_neg hcap.not_gt
  · rw [exec_huffSymbol_takes hat hnext (by omega), takeSymbol_run hv, hdigit]
    exact if_pos hcap
  · rw [exec_huffSymbol_takes hat hnext (by omega), takeSymbol_flushed (sc := advanced sc) h2 (Nat.le_of_succ_le hcap)]
    exact (if_neg (Nat.lt_succ_of_le hv).ne).trans (if_neg hcap.not_gt)
  · rw [exec_huffSymbol_takes hat hnext (by omega)]
    rcases Nat.lt_or_ge (100000 * s.dec.k) (flushed sc).length with hflush | hflush
    · exact takeSymbol_overflow h2 hflush
    · rw [takeSymbol_flushed (sc := advanced sc) h2 hflush]
      exact (if_neg (Nat.lt_succ_of_le hv).ne).trans (if_pos hcap)
  · rw [exec_huffSymbol_takes hat hnext hv.le]
    exact takeSymbol_overflow (by omega) hcap
  · rw [exec_huffSymbol_takes hat hnext hv.le, takeSymbol_flushed (v := v) (sc := advanced sc) (by omega) hcap]
    exact (if_pos hv).trans (if_neg hptr.not_gt)
  · rw [exec_huffSymbol_takes hat hnext hv.le, takeSymbol_flushed (v := v) (sc := advanced sc) (by omega) hcap]
    exact (if_pos hv).trans (if_pos hptr)

end Sys2Proof.Machine
end

section
/-! SUPPORT. The commands of the stream encoder where nothing fails (44_stream_encoder R251..R258): a fault reported again, a
stream that opens, bytes that are buffered, a full block that is emitted, and a stream that closes. -/

open Sys2Proof.Claims

namespace Sys2Proof.Machine

/-! ## Faulted streams -/

section
variable {s : State} {c : Cause}

theorem execEncWrite_faulted (b : Byte) (hf : s.enc.state = .faulted) (hc : s.enc.cause = some c) :
    execEncWrite b s = .next (recorded c s) := by
  rw [execEncWrite, hf, hc]
  rfl

theorem execEncClose_faulted (hf : s.enc.state = .faulted) (hc : s.enc.cause = some c) :
    execEncClose s = .next (recorded c s) := by
  rw [execEncClose, hf, hc]
  rfl

theorem execDecRead_faulted (hf : s.dec.state = .faulted) (hc : s.dec.cause = some c) :
    execDecRead s = .next (recorded c s) := by
  rw [execDecRead, hf, hc]
  rfl

end

/-- Settles O31: each of the three records the sticky cause. -/
theorem faultedStreamsReportAgain : Obligations.FaultedStreamsReportAgain := fun _ _ =>
  ⟨fun hf hc => ⟨fun b => execEncWrite_faulted b hf hc, execEncClose_faulted hf hc⟩, execDecRead_faulted⟩

/-! ## Whole bytes at a byte boundary -/

theorem writeBitList_octet (b7 b6 b5 b4 b3 b2 b1 b0 : Bool) (sink : List Byte) (count : Nat) :
    writeBitList [b7, b6, b5, b4, b3, b2, b1, b0] { acc := [], sink := sink, count := count } =
      { acc := []
        sink := sink ++ [BitVec.ofNat 8 (valueOf [b7, b6, b5, b4, b3, b2, b1, b0])]
        count := count + 1 } := by
  simp [writeBit]

/-- The bits of bytes, where no bit waits, push these bytes (40_bitio R121). -/
theorem writeBitList_bytes (bytes sink : List Byte) (count : Nat) :
    writeBitList (bytes.flatMap fun b => bitsOf 8 b.toNat) { acc := [], sink := sink, count := count } =
      { acc := [], sink := sink ++ bytes, count := count + bytes.length } := by
  induction bytes generalizing sink count with
  | nil => rw [List.append_nil]; rfl
  | cons b bytes ih =>
    have hpush : writeBitList (bitsOf 8 b.toNat) { acc := [], sink := sink, count := count } =
        { acc := [], sink := sink ++ [BitVec.ofNat 8 (valueOf (bitsOf 8 b.toNat))], count := count + 1 } :=
      writeBitList_octet _ _ _ _ _ _ _ _ _ _
    rw [List.flatMap_cons, writeBitList_append, hpush, valueOf_bitsOf_of_lt b.isLt, BitVec.ofNat_toNat, BitVec.setWidth_eq,
      ih, List.append_assoc, List.length_cons, Nat.add_assoc, Nat.add_comm 1, List.singleton_append]

/-- The stream header is four bytes; a legal block size fits its digit (30_encoding R81). -/
theorem streamHeader_bytes {k : BitVec 8} (h : k.toNat ≤ 9) :
    encode noCodes (.streamHeader (k.setWidth 4)) =
      [0x42, 0x5A, 0x68, 0x30 + k].flatMap fun b => bitsOf 8 b.toNat := by
  have hdigit : 0x30 + (k.setWidth 4).toNat = (0x30 + k).toNat := by
    have hlow : (0x30 : BitVec 8).toNat = 0x30 := rfl
    rw [BitVec.toNat_setWidth, BitVec.toNat_add, hlow]
    omega
  simp only [encode, hdigit, List.flatMap_cons, List.flatMap_nil, List.append_nil, List.append_assoc]
  rfl

/-- The trailer of a stream without a block: EOS_MAGIC and a combined CRC of 0 (44 R257). -/
theorem emptyTrailer_bytes :
    encode noCodes .eosMagic ++ encode noCodes (.combinedCrc 0) =
      ([0x17, 0x72, 0x45, 0x38, 0x50, 0x90, 0x00, 0x00, 0x00, 0x00] : List Byte).flatMap fun b => bitsOf 8 b.toNat := by
  decide

theorem writeTrailer_empty (sink : List Byte) (count : Nat) :
    writeTrailer 0 { acc := [], sink := sink, count := count } =
      { acc := []
        sink := sink ++ [0x17, 0x72, 0x45, 0x38, 0x50, 0x90, 0x00, 0x00, 0x00, 0x00]
        count := count + 10 } := by
  rw [writeTrailer, writeElement, writeElement, ← writeBitList_append, emptyTrailer_bytes, writeBitList_bytes]
  rfl

/-! ## ENC_INIT -/

/-- The state after ENC_INIT of a legal block size (44 R251). -/
def streamOpened (k : BitVec 8) (s : State) : State :=
  { s with
    lastCause := none
    bw := { acc := [], sink := s.bw.sink ++ [0x42, 0x5A, 0x68, 0x30 + k], count := s.bw.count + 4 }
    enc := Encoder.fresh k.toNat }

theorem exec_encInit_opens {k : BitVec 8} (s : State) (h1 : 1 ≤ k.toNat) (h9 : k.toNat ≤ 9) :
    exec (.encInit k) s = .next (streamOpened k s) := by
  have hlegal : ¬ (k.toNat < 1 ∨ 9 < k.toNat) := by omega
  change execEncInit k s = _
  rw [execEncInit, if_neg hlegal, writeElement, streamHeader_bytes h9, writeBitList_bytes]
  rfl

/-- Settles O44: the word is the instruction's own, the check refuses, and past it the header is four bytes. -/
theorem encInitOpensAStream : Obligations.EncInitOpensAStream :=
  ⟨fun _ => (commandWordsDecodeAndEncodeAgree _ _).1 rfl,
    fun s _ h => (execEncInit_refused s h).trans (reject_eq_recorded _ s),
    fun s _ h1 h9 => exec_encInit_opens s h1 h9⟩

/-! ## ENC_WRITE -/

/-- A byte of the pending run that does not fill it (44 R252). -/
theorem exec_encWrite_extends {s : State} {b : Byte} (ho : s.enc.state = .opened) (hc : s.enc.cur = some b)
    (hr : s.enc.run < 254) :
    exec (.encWrite b) s = .next { s with lastCause := none, enc := { s.enc with run := s.enc.run + 1 } } := by
  have hrun : ¬ s.enc.run + 1 = 255 := by omega
  rw [exec_encWrite_opened b ho, writeRaw, takeByte, if_pos hc, andThen_done, if_neg hrun]
  rfl

/-- Another byte than the pending run's flushes the run and starts one of its own (44 R252). -/
theorem exec_encWrite_starts {s t : State} {b : Byte} (ho : s.enc.state = .opened) (hc : s.enc.cur ≠ some b)
    (hflush : flushPending s = .done () t) :
    exec (.encWrite b) s = .next { t with lastCause := none, enc := { t.enc with cur := some b, run := 1 } } := by
  rw [exec_encWrite_opened b ho, writeRaw, takeByte, if_neg hc, hflush, andThen_done, andThen_done]
  rfl

theorem cur_ne_some {s : State} {b c : Byte} (hc : s.enc.cur = some c) (hcb : c ≠ b) : s.enc.cur ≠ some b :=
  fun h => hcb (Option.some.inj (hc.symm.trans h))

/-- Settles O45: the run grows, or a run starts after a flush of none or of one that fits, or the full run fits. -/
theorem encWriteBuffersTheByte : Obligations.EncWriteBuffersTheByte := by
  refine fun s b ho => ⟨exec_encWrite_extends ho, fun hc => ?_, fun c hc hcb hlen => ?_, fun hc hr hlen => ?_⟩
  · exact exec_encWrite_starts ho (by rw [hc]; exact nofun) (flushPending_none hc)
  · exact exec_encWrite_starts ho (cur_ne_some hc hcb) ((flushPending_some hc).trans (flushRun_fits hlen))
  · rw [exec_encWrite_full ho hc hr, flushRun_fits (s := { s with enc := { s.enc with run := 255 } }) hlen]
    rfl

/-- Settles O46: the run's flush emits the block; the run is the old one of another byte, or the full one. -/
theorem encWriteClosesAFullBlock : Obligations.EncWriteClosesAFullBlock := by
  rintro s b c run ho hc (⟨hcb, rfl⟩ | ⟨rfl, hr, rfl⟩) hlen hf
  · have hflush := (flushPending_some hc).trans (flushRun_emits hlen hf)
    refine ⟨(blockEmitted s).bw, ?_, blockEmitted_bits s⟩
    rw [exec_encWrite_starts ho (cur_ne_some hc hcb) hflush, if_neg hcb, if_neg hcb]
    simp only [runMoved, blockEmitted, List.nil_append]
  · have hflush := flushRun_emits (c := c) (s := { s with enc := { s.enc with run := 255 } }) hlen hf
    refine ⟨(blockEmitted s).bw, ?_, blockEmitted_bits s⟩
    rw [exec_encWrite_full ho hc hr, hflush, if_pos rfl, if_pos rfl, finishEnc]
    simp only [runMoved, blockEmitted, List.nil_append, succeed]

/-! ## ENC_CLOSE -/

theorem execEncClose_closed {s : State} (h : s.enc.state = .closed) : execEncClose s = .next (succeed s) := by
  rw [execEncClose, h]

/-- The trailer and fewer than 8 bits of padding, up to a byte boundary (44 R256). -/
theorem writeTrailer_bits (comb : Word) {w : Writer} (h : w.Ok) :
    ∃ pad, (writeTrailer comb w).bits =
        w.bits ++ bitsOf 48 0x177245385090 ++ bitsOf 32 comb.toNat ++ List.replicate pad false ∧
      pad < 8 ∧ (writeTrailer comb w).acc = [] := by
  have hmagic : encode noCodes .eosMagic = bitsOf 48 0x177245385090 := by decide
  obtain ⟨hbits, hacc, -⟩ := writeFinish_spec (writeBitList_acc_le (encode noCodes (.combinedCrc comb)) _
    (writeBitList_acc_le (encode noCodes .eosMagic) w h))
  rw [writeBitList_bits, writeBitList_bits, hmagic] at hbits
  exact ⟨_, hbits, Nat.mod_lt _ (by decide), hacc⟩

/-- The state once the blocks `bs` are emitted and nothing is pending (44 R254, R256). -/
def blocksEmitted (bs : List (Word × List Byte)) (s : State) : State :=
  { s with
    bw := writeBitList (bs.flatMap fun x => emitted x.1 x.2) s.bw
    enc :=
      { s.enc with
        cur := none
        run := 0
        block := []
        crc := if bs = [] then s.enc.crc else 0xFFFFFFFF
        comb := combined s.enc.comb bs
        blocks := s.enc.blocks + bs.length
        rand := (bs.getLast?.map fun x => randomise x.2).getD s.enc.rand } }

/-- ENC_CLOSE before its trailer: it flushes the pending run and closes the block unless it is empty (44 R256). -/
def closeBlocks (s : State) : Run Unit := (flushPending s).andThen fun _ t => closeNonEmpty t

theorem closeNonEmpty_empty {s : State} (h : s.enc.block = []) : closeNonEmpty s = .done () s := if_pos h

theorem closeNonEmpty_emits {s : State} (hne : s.enc.block ≠ []) (hf : s.enc.block ∉ s.sortFaults) :
    closeNonEmpty s = .done () (blockEmitted s) :=
  (if_neg hne).trans (closeBlock_emits hf)

/-! The blocks that close, case by case (44 R253, R256). -/

section
variable {e : Encoder}

theorem closing_empty (hc : e.cur = none) (hb : e.block = []) : closing e = [] := by
  rw [closing, hc]
  exact if_pos hb

theorem closing_block (hc : e.cur = none) (hb : e.block ≠ []) : closing e = [(e.crc, e.block)] := by
  rw [closing, hc]
  exact if_neg hb

theorem closing_fits {c : Byte} (hc : e.cur = some c)
    (hlen : e.block.length + (runBytes c e.run).length ≤ 100000 * e.k - 20) :
    closing e = [((runMoved c e).crc, (runMoved c e).block)] := by
  rw [closing, hc]
  exact if_neg hlen.not_gt

theorem closing_splits {c : Byte} (hc : e.cur = some c)
    (hlen : 100000 * e.k - 20 < e.block.length + (runBytes c e.run).length) :
    closing e = [(e.crc, e.block), ((List.replicate e.run c).foldl crcUpdate 0xFFFFFFFF, runBytes c e.run)] := by
  rw [closing, hc]
  exact if_pos hlen

end

/-- The blocks that close are emitted: none, the block, the block with the run, or the block and the run (44 R253, R256). -/
theorem closeBlocks_emits {s : State} (h : EncMid s.enc) (hf : ∀ x ∈ closing s.enc, x.2 ∉ s.sortFaults) :
    closeBlocks s = .done () (blocksEmitted (closing s.enc) s) := by
  rw [closeBlocks]
  rcases hc : s.enc.cur with _ | c
  · have hr : s.enc.run = 0 := h.cur.2 hc
    rw [flushPending_none hc, andThen_done]
    by_cases hb : s.enc.block = []
    · rw [closeNonEmpty_empty hb, closing_empty hc hb, blocksEmitted, ← hc, ← hr, ← hb]
      rfl
    · rw [closing_block hc hb] at hf ⊢
      rw [closeNonEmpty_emits hb (hf _ List.mem_cons_self)]
      simp only [blockEmitted, blocksEmitted, hc, hr, h.scratch, List.flatMap_singleton]
      rfl
  · have hne : runBytes c s.enc.run ≠ [] := runBytes_ne_nil c fun h0 => by rw [h.cur.1 h0] at hc; cases hc
    rw [flushPending_some hc]
    rcases Nat.lt_or_ge (100000 * s.enc.k - 20) (s.enc.block.length + (runBytes c s.enc.run).length) with hlen | hlen
    · rw [closing_splits hc hlen] at hf ⊢
      obtain ⟨hf, hf'⟩ := List.forall_mem_cons.1 hf
      have hblock := runMoved_blockEmitted_block c s
      rw [flushRun_emits hlen hf, andThen_done,
        closeNonEmpty_emits (hblock.symm ▸ hne) (hblock.symm ▸ hf' _ List.mem_cons_self)]
      simp only [blockEmitted, blocksEmitted, runMoved, h.scratch, List.flatMap_cons, List.flatMap_nil, List.append_nil,
        List.nil_append, writeBitList_append]
      rfl
    · rw [closing_fits hc hlen] at hf ⊢
      rw [flushRun_fits hlen, andThen_done,
        closeNonEmpty_emits (List.append_ne_nil_of_right_ne_nil _ hne) (hf _ List.mem_cons_self)]
      simp only [blockEmitted, blocksEmitted, runMoved, h.scratch, List.flatMap_singleton]
      rfl

/-- ENC_CLOSE is its blocks, then its trailer (44 R256). -/
theorem closeStream_eq (s : State) : closeStream s = (closeBlocks s).andThen fun _ t =>
    .done () { t with bw := writeTrailer t.enc.comb t.bw, enc := { t.enc with state := .closed } } := by
  rw [closeStream, closeBlocks]
  cases flushPending s <;> rfl

theorem exec_encClose_closes {s t : State} (ho : s.enc.state = .opened) (h : closeBlocks s = .done () t) :
    exec .encClose s = .next
      { t with lastCause := none, bw := writeTrailer t.enc.comb t.bw, enc := { t.enc with state := .closed } } := by
  rw [exec_encClose_opened ho, closeStream_eq, h, andThen_done, finishEnc, succeed]

/-- Settles O48: in Open the blocks that close are emitted, then the trailer is written. -/
theorem encCloseFinishesTheStream : Obligations.EncCloseFinishesTheStream := by
  refine fun s => ⟨fun hc => (execEncClose_closed hc).trans rfl, fun ho hok hw hf => ?_⟩
  have hclose := exec_encClose_closes ho (closeBlocks_emits (hok.mid ho).1 hf)
  obtain ⟨pad, hbits, hpad, hacc⟩ := writeTrailer_bits (combined s.enc.comb (closing s.enc))
    (writeBitList_acc_le ((closing s.enc).flatMap fun x => emitted x.1 x.2) s.bw hw)
  rw [writeBitList_bits] at hbits
  exact ⟨_, pad, hclose, hbits, hpad, hacc⟩

/-- Settles O49: the stream that opens has no block to close, and its trailer is ten bytes. -/
theorem emptyStreamIsFourteenBytes : Obligations.EmptyStreamIsFourteenBytes := by
  intro s k h1 h9
  have hclose : closeBlocks (streamOpened k s) = .done () (streamOpened k s) := by
    rw [closeBlocks, flushPending_none rfl, andThen_done, closeNonEmpty_empty rfl]
  refine ⟨streamOpened k s, _, exec_encInit_opens s h1 h9, exec_encClose_closes rfl hclose, ?_, rfl, rfl⟩
  have hcomb : (streamOpened k s).enc.comb = 0 := rfl
  have hbw : (streamOpened k s).bw =
    { acc := [], sink := s.bw.sink ++ [0x42, 0x5A, 0x68, 0x30 + k], count := s.bw.count + 4 } := rfl
  simp only [hcomb, hbw, writeTrailer_empty, List.append_assoc, List.cons_append, List.nil_append]

end Sys2Proof.Machine
end

section
/-! SUPPORT. A DEC_READ as its turns (45_stream_decoder R282): the step that fetches an element runs it, the loop is the
turns up to the one that ends the command, and from every state between commands that meets the invariant it ends. -/

open Sys2Proof.Claims

namespace Sys2Proof.Machine

/-! ## A turn that fetches -/

/-- The element of a place of a block is a wire element. -/
theorem isCommand_of_elementOf {p : BlockPos} {i : Instr} (h : elementOf p i) : i.isCommand = false := by
  cases p with
  | lenAdjust => rcases h with rfl | rfl | rfl <;> rfl
  | _ => obtain ⟨_, rfl⟩ := h; rfl

/-- What a decoder fetches, in any state, is a wire element. -/
theorem isCommand_of_fetchElement {d : Decoder} {r q : Reader} {i : Instr}
    (h : fetchElement d r = some (.ok i, q)) : i.isCommand = false := by
  unfold fetchElement at h
  split at h
  · exact (fetchHeader_fetches r).elem i (congrArg Prod.fst (Option.some.inj h))
  · split at h
    · exact (fetchMagic_fetches r).elem i (congrArg Prod.fst (Option.some.inj h))
    · exact isCommand_of_elementOf (fetchBlock_elem _ r i (congrArg Prod.fst (Option.some.inj h)))
  · exact (fetchTrailer_fetches r).elem i (congrArg Prod.fst (Option.some.inj h))
  all_goals cases h

theorem step_reading {s : State} (hr : s.reading = true) : step s = readStep s := if_pos hr

/-- Settles O2: the turn is the element's, and on wire elements DEC_READ's dispatch is `exec`. -/
theorem stepRunsTheElementFetched : Obligations.StepRunsTheElementFetched := by
  refine fun s hr hd => ⟨fun i r h => ?_, fun c r h => ?_⟩
  · rw [step_reading hr, readStep, if_neg hd, h]
    exact execElement_eq_exec (isCommand_of_fetchElement h) _
  · rw [step_reading hr, readStep, if_neg hd, h]
    rfl

/-! ## The loop -/

theorem turns_succ {n : Nat} {s t : State} (hr : s.reading = true) (h : step s = .next t) :
    turns (n + 1) s = turns n t := by
  rw [turns, if_pos hr, h]

theorem turns_succ_eq_some {n : Nat} {s u : State} (h : turns (n + 1) s = some u) :
    s.reading = true ∧ ∃ t, step s = .next t ∧ turns n t = some u := by
  unfold turns at h
  split at h
  · next hr =>
    split at h
    · next t ht => exact ⟨hr, t, ht, h⟩
    · cases h
  · cases h

/-- A loop that ends is its turns. -/
theorem turns_of_readLoop {fuel : Nat} {s t : State} (hr : s.reading = true) (h : readLoop fuel s = .next t) :
    ∃ n, turns n s = some t ∧ t.reading = false := by
  induction fuel generalizing s with
  | zero => cases h
  | succ fuel ih =>
    unfold readLoop at h
    split at h
    · next u hu =>
      rw [← step_reading hr] at hu
      split at h
      · next hgo =>
        obtain ⟨n, hn, hend⟩ := ih hgo h
        exact ⟨n + 1, (turns_succ hr hu).trans hn, hend⟩
      · next hend =>
        cases h
        exact ⟨1, turns_succ hr hu, Bool.eq_false_iff.2 hend⟩
    · cases h
    · cases h

/-- Turns that end are the loop's, where its bound allows for them. -/
theorem readLoop_of_turns {n fuel : Nat} {s t : State} (hr : s.reading = true) (hend : t.reading = false)
    (hn : n ≤ fuel) (h : turns n s = some t) : readLoop fuel s = .next t := by
  induction n generalizing fuel s with
  | zero =>
    cases h
    rw [hr] at hend
    cases hend
  | succ n ih =>
    obtain ⟨fuel, rfl⟩ : ∃ m, fuel = m + 1 := ⟨fuel - 1, by omega⟩
    obtain ⟨-, u, hu, hrest⟩ := turns_succ_eq_some h
    rw [readLoop, ← step_reading hr, hu]
    dsimp only
    split
    · next hgo => exact ih hgo (by omega) hrest
    · next hstop =>
      cases n with
      | zero => exact congrArg _ (Option.some.inj hrest)
      | succ n => exact absurd (turns_succ_eq_some hrest).1 hstop

/-! ## The command -/

section
variable {s t : State}

/-- A DEC_READ of a stream in progress is its loop. -/
theorem exec_decRead_stream (h : s.dec.state = .expectStreamHeader ∨ s.dec.state = .decodingBlock) :
    exec .decRead s = readLoop (readBound s.br) { s with reading := true } := by
  rw [exec, execDecRead]
  rcases h with h | h <;> rw [h]

theorem exec_decRead_done (h : s.dec.state = .done) :
    exec .decRead s = .next { s with lastCause := none, result := 0xFFFFFFFF } := by
  rw [exec, execDecRead, h]
  rfl

/-- A DEC_READ inside a block whose first few turns end it ends with them. -/
theorem exec_decRead_of_turns {n : Nat} (hd : s.dec.state = .decodingBlock) (hn : n ≤ 4) (hend : t.reading = false)
    (h : turns n { s with reading := true } = some t) : exec .decRead s = .next t := by
  rw [exec_decRead_stream (.inr hd)]
  exact readLoop_of_turns rfl hend (hn.trans (Nat.le_add_left 4 _)) h

/-- A DEC_READ of a stream in progress ends (45 R282, R297, R299). -/
theorem exec_decRead_ends (h : s.Inv)
    (hd : s.dec.state = .expectStreamHeader ∨ s.dec.state = .decodingBlock) :
    ∃ t, exec .decRead s = .next t ∧ t.br.src = s.br.src ∧ ReadEnd t := by
  obtain ⟨t, ht, -, hframe, hend⟩ := readStream_spec h hd
  exact ⟨t, (exec_decRead_stream hd).trans ht, hframe.past.src, hend⟩

/-- Where a DEC_READ of a stream in progress ends, it is its turns. -/
theorem exec_decRead_eq_turns (h : s.Inv)
    (hd : s.dec.state = .expectStreamHeader ∨ s.dec.state = .decodingBlock) :
    ∃ n t, turns n { s with reading := true } = some t ∧ t.reading = false ∧ exec .decRead s = .next t := by
  obtain ⟨t, ht, -⟩ := exec_decRead_ends h hd
  obtain ⟨n, hn, hend⟩ := turns_of_readLoop rfl ((exec_decRead_stream hd).symm.trans ht)
  exact ⟨n, t, hn, hend, ht⟩

end

/-- Settles O52: of the states held between commands, three answer at once, and from the other two the loop ends. -/
theorem decReadAlwaysEnds : Obligations.DecReadAlwaysEnds := by
  intro s h hr
  obtain ⟨⟨hheld, -⟩, -, -, -, hcause, -⟩ := h.dec
  cases hst : s.dec.state with
  | idle => exact ⟨_, execDecRead_refused hst, hr, rfl, .inr (.inr (.inl ⟨rfl, rfl⟩))⟩
  | faulted =>
    obtain ⟨c, hc⟩ := Option.isSome_iff_exists.1 (hcause.1 hst)
    exact ⟨_, execDecRead_faulted hst hc, hr, rfl, .inr (.inr (.inr ⟨c, rfl, rfl, hst, hc⟩))⟩
  | done => exact ⟨_, exec_decRead_done hst, hr, rfl, .inr (.inl ⟨rfl, hst, rfl⟩)⟩
  | expectStreamHeader | decodingBlock =>
    obtain ⟨t, ht, hsrc, hend, hout⟩ := exec_decRead_ends h (by rw [hst]; decide)
    exact ⟨t, ht, hend, hsrc, hout.imp_right (Or.imp_right fun ⟨c, _, hout⟩ => .inr ⟨c, hout⟩)⟩
  | expectBlockHeader | expectStreamTrailer =>
    have := hheld hr
    rw [hst] at this
    cases this

end Sys2Proof.Machine
end

section
/-! SUPPORT. DEC_INIT, and the elements around a block's tables: the stream's header, magics and trailer, and the fields of a
block header (45_stream_decoder R281..R285, R297). -/

open Sys2Proof.Claims

namespace Sys2Proof.Machine

/-- Settles O50: the word is the instruction's own, and the opened decoder is the reset one in ExpectStreamHeader. -/
theorem decInitOpensAStream : Obligations.DecInitOpensAStream :=
  ⟨(commandWordsDecodeAndEncodeAgree _ _).1 rfl, fun _ => rfl⟩

/-- Settles O54: each element stands between blocks, and two of them check their value there. -/
theorem streamElementsFollowTheirRules : Obligations.StreamElementsFollowTheirRules := by
  refine fun s => ⟨fun hr hsc => ⟨fun k hd => ⟨fun hk => ?_, fun hk => ?_⟩, fun hd => ⟨?_, ?_⟩,
    fun c hd => ⟨fun hc => ?_, fun hc => ?_⟩⟩, fun _ => rfl⟩
  · exact (atStream_here hr hd hsc).trans (if_pos hk)
  · exact (atStream_here hr hd hsc).trans (if_neg (by omega))
  · exact atStream_here hr hd hsc
  · exact atStream_here hr hd hsc
  · exact (atStream_here hr hd hsc).trans (if_pos hc)
  · exact (atStream_here hr hd hsc).trans (if_neg hc)

/-- Settles O55: none of the three checks its field. -/
theorem blockHeaderElementsStoreTheirFields : Obligations.BlockHeaderElementsStoreTheirFields := fun _ _ =>
  ⟨fun hat _ => atBlock_standsAt hat _, fun hat _ => atBlock_standsAt hat _, fun hat _ => atBlock_standsAt hat _⟩

/-- Settles O37: the counts are the first loop's and the running sums', the slots the chain loop's. -/
theorem chainSlotsFollowTheCounts : Obligations.ChainSlotsFollowTheCounts := by
  refine fun last => ⟨countBytes_length last, fun k hk => ?_, buildChain_length last _,
    fun _ _ h => buildChain_getElem? h⟩
  have hlt : k < (countBytes last).length := by rw [countBytes_length]; omega
  rw [List.getElem?_eq_getElem hlt, ← List.getD_eq_getElem _ 0 hlt, countBytes_getD last hk]

end Sys2Proof.Machine
end

section
/-! SUPPORT. Reads of a header, a magic and a trailer, whatever their bits (45_stream_decoder R283, R285, R297): what each
answers, and the bits it leaves. -/

namespace Sys2Proof.Machine

/-! ## Reads that find their bits, and reads that do not -/

/-- `q` is `r` read on up to the bits `rest`: the same source, not past its end. -/
structure Reader.ReadTo (r q : Reader) (rest : List Bool) : Prop where
  bits : q.bits = rest
  src : q.src = r.src
  pos : r.pos ≤ r.src.length → q.pos ≤ q.src.length

theorem Reader.ReadTo.trans {a b c : Reader} {l m : List Bool} (h : a.ReadTo b l) (k : b.ReadTo c m) : a.ReadTo c m :=
  ⟨k.bits, k.src.trans h.src, k.pos ∘ h.pos⟩

/-- A read of a field that is there goes on with its value. -/
theorem readBits_field {r : Reader} {n v : Nat} {rest : List Bool} (hb : r.bits = bitsOf n v ++ rest) :
    ∃ q, r.ReadTo q rest ∧ readBits n r = (.ok (v % 2 ^ n), q) := by
  obtain ⟨q, hq, hrest⟩ := readBits_append hb (bitsOf_length n v)
  obtain ⟨-, -, -, hsrc, -, hpos, -⟩ := readBits_ok hq
  exact ⟨q, ⟨hrest, hsrc, fun h => hsrc ▸ hpos h⟩, by rw [hq, valueOf_bitsOf]⟩

/-- A read past the end consumes no bit and leaves the source at its end (40_bitio R124). -/
theorem readBits_short {r : Reader} {n : Nat} (hp : r.pos ≤ r.src.length) (hl : r.bits.length < n) :
    ∃ q, r.ReadTo q r.bits ∧ q.pos = r.src.length ∧ readBits n r = (.error .unexpectedEndOfInput, q) := by
  rcases h : readBits n r with ⟨c | v, q⟩
  · obtain ⟨rfl, -, hbits, hsrc, -, -, hpos⟩ := readBits_error h
    exact ⟨q, ⟨hbits, hsrc, fun _ => hsrc ▸ (hpos hp).le⟩, hpos hp, rfl⟩
  · exact absurd (readBits_ok h).1 hl.not_ge

/-- A field over a shorter one. -/
theorem bitsOf_mul_add (m n c : Nat) {v : Nat} (hv : v < 2 ^ n) :
    bitsOf (m + n) (2 ^ n * c + v) = bitsOf m c ++ bitsOf n v := by
  rw [bitsOf_add, bitsOf_add_mul n n c v le_rfl, Nat.mul_add_div (Nat.two_pow_pos n), Nat.div_eq_of_lt hv, Nat.add_zero]

/-! ## The header (45 R283) -/

/-! A header byte that is there is checked as it is read. -/

section
variable {r : Reader} {rest : List Bool} {want : Nat}

theorem expectByte_right (hw : want < 2 ^ 8) (hb : r.bits = bitsOf 8 want ++ rest) :
    ∃ q, r.ReadTo q rest ∧ ∀ c, expectByte want c r = (.ok (), q) := by
  obtain ⟨q, hto, hq⟩ := readBits_field hb
  exact ⟨q, hto, fun c => by rw [expectByte, hq, fetched_ok, if_pos (Nat.mod_eq_of_lt hw)]⟩

theorem expectByte_wrong {a : Byte} (ha : a.toNat ≠ want) (hb : r.bits = bitsOf 8 a.toNat ++ rest) :
    ∃ q, r.ReadTo q rest ∧ ∀ c, expectByte want c r = (.error c, q) := by
  obtain ⟨q, hto, hq⟩ := readBits_field hb
  exact ⟨q, hto, fun c => by rw [expectByte, hq, fetched_ok, Nat.mod_eq_of_lt a.isLt, if_neg ha]⟩

end

/-! ## The magics and the trailer (45 R285, R297) -/

/-- A magic is decided on all its 48 bits. -/
theorem fetchMagic_field {r : Reader} {m : Nat} (hm : m < 2 ^ 48) {rest : List Bool} (hb : r.bits = bitsOf 48 m ++ rest) :
    ∃ q, r.ReadTo q rest ∧ fetchMagic r =
      if m = 0x314159265359 then (.ok .blockMagic, q)
      else if m = 0x177245385090 then (.ok .eosMagic, q)
      else (.error .badBlockMagic, q) := by
  rw [bitsOf_add 24 24, List.append_assoc] at hb
  obtain ⟨p, hp, hhi⟩ := readBits_field hb
  obtain ⟨q, hq, hlo⟩ := readBits_field hp.bits
  have hval : m / 2 ^ 24 % 2 ^ 24 * 2 ^ 24 + m % 2 ^ 24 = m := by omega
  refine ⟨q, hp.trans hq, ?_⟩
  rw [fetchMagic, hhi, fetched_ok, hlo, fetched_ok, hval]

theorem fetchMagic_wrong {r : Reader} {m : BitVec 48} (hblock : m ≠ 0x314159265359) (heos : m ≠ 0x177245385090)
    {rest : List Bool} (hb : r.bits = bitsOf 48 m.toNat ++ rest) :
    ∃ q, r.ReadTo q rest ∧ fetchMagic r = (.error .badBlockMagic, q) := by
  obtain ⟨q, hto, hq⟩ := fetchMagic_field m.isLt hb
  exact ⟨q, hto, hq.trans ((if_neg (BitVec.toNat_ne.1 hblock)).trans (if_neg (BitVec.toNat_ne.1 heos)))⟩

/-- A source that ends in the magic: of its two reads the first, or the second, finds too few bits. -/
theorem fetchMagic_short {r : Reader} (hp : r.pos ≤ r.src.length) (hl : r.bits.length < 48) :
    ∃ q, r.ReadTo q (if r.bits.length < 24 then r.bits else r.bits.drop 24) ∧ q.pos = r.src.length ∧
      fetchMagic r = (.error .unexpectedEndOfInput, q) := by
  split
  · next hshort =>
    obtain ⟨q, hto, hend, hq⟩ := readBits_short hp hshort
    exact ⟨q, hto, hend, by rw [fetchMagic, hq, fetched_error]⟩
  · next henough =>
    have htake : bitsOf 24 (valueOf (r.bits.take 24)) = r.bits.take 24 := by
      have := bitsOf_valueOf (r.bits.take 24)
      rwa [List.length_take_of_le (Nat.not_lt.1 henough)] at this
    obtain ⟨p, hto, hq⟩ := readBits_field (htake.symm ▸ (List.take_append_drop 24 r.bits).symm)
    have hleft : p.bits.length < 24 := by rw [hto.bits, List.length_drop]; omega
    obtain ⟨q, hto', hend, hq'⟩ := readBits_short (hto.pos hp) hleft
    exact ⟨q, hto.trans (hto.bits ▸ hto'), hend.trans (congrArg _ hto.src),
      by rw [fetchMagic, hq, fetched_ok, hq', fetched_error]⟩

theorem fetchTrailer_field {r : Reader} {c : Word} {rest : List Bool} (hb : r.bits = bitsOf 32 c.toNat ++ rest) :
    ∃ q, r.ReadTo q rest ∧ fetchTrailer r = (.ok (.combinedCrc c), q) := by
  obtain ⟨q, hto, hq⟩ := readBits_field hb
  refine ⟨q, hto, ?_⟩
  rw [fetchTrailer, hq, fetched_ok, Nat.mod_eq_of_lt c.isLt, combinedCrcField, BitVec.ofNat_toNat, BitVec.setWidth_eq]

theorem fetchTrailer_short {r : Reader} (hp : r.pos ≤ r.src.length) (hl : r.bits.length < 32) :
    ∃ q, r.ReadTo q r.bits ∧ q.pos = r.src.length ∧ fetchTrailer r = (.error .unexpectedEndOfInput, q) := by
  obtain ⟨q, hto, hend, hq⟩ := readBits_short hp hl
  exact ⟨q, hto, hend, by rw [fetchTrailer, hq, fetched_error]⟩

/-- Settles O53: each header byte is checked by its own read, after the ones before it were right; a magic by both of its. -/
theorem headersAreCheckedAsTheyAreRead : Obligations.HeadersAreCheckedAsTheyAreRead := by
  refine fun r rest => ⟨fun a ha hb => ?_, fun a ha hb => ?_, fun a ha hb => ?_, fun a ha hb => ?_,
    fun m hblock heos hb => ?_⟩
  · obtain ⟨q, hq, eq⟩ := expectByte_wrong (want := 0x42) (BitVec.toNat_ne.1 ha) hb
    exact ⟨q, by rw [fetchHeader, eq, fetched_error], hq.bits⟩
  · rw [show bitsOf 16 (0x4200 + a.toNat) = _ from bitsOf_mul_add 8 8 0x42 a.isLt, List.append_assoc] at hb
    obtain ⟨b, hb, eb⟩ := expectByte_right (by decide) hb
    obtain ⟨q, hq, eq⟩ := expectByte_wrong (want := 0x5A) (BitVec.toNat_ne.1 ha) hb.bits
    exact ⟨q, by rw [fetchHeader, eb, fetched_ok, eq, fetched_error], hq.bits⟩
  · rw [show bitsOf 24 (0x425A00 + a.toNat) = _ from bitsOf_mul_add 16 8 0x425A a.isLt,
      show bitsOf 16 0x425A = bitsOf 8 0x42 ++ bitsOf 8 0x5A from rfl, List.append_assoc, List.append_assoc] at hb
    obtain ⟨b, hb, eb⟩ := expectByte_right (by decide) hb
    obtain ⟨z, hz, ez⟩ := expectByte_right (by decide) hb.bits
    obtain ⟨q, hq, eq⟩ := expectByte_wrong (want := 0x68) (BitVec.toNat_ne.1 ha) hz.bits
    exact ⟨q, by rw [fetchHeader, eb, fetched_ok, ez, fetched_ok, eq, fetched_error], hq.bits⟩
  · rw [show bitsOf 32 (0x425A6800 + a.toNat) = _ from bitsOf_mul_add 24 8 0x425A68 a.isLt,
      show bitsOf 24 0x425A68 = bitsOf 8 0x42 ++ (bitsOf 8 0x5A ++ bitsOf 8 0x68) from rfl, List.append_assoc,
      List.append_assoc, List.append_assoc] at hb
    obtain ⟨b, hb, eb⟩ := expectByte_right (by decide) hb
    obtain ⟨z, hz, ez⟩ := expectByte_right (by decide) hb.bits
    obtain ⟨h, hh, eh⟩ := expectByte_right (by decide) hz.bits
    obtain ⟨q, hq, eq⟩ := readBits_field hh.bits
    refine ⟨q, ?_, hq.bits⟩
    rw [fetchHeader, eb, fetched_ok, ez, fetched_ok, eh, fetched_ok, eq, fetched_ok, Nat.mod_eq_of_lt a.isLt,
      if_neg (by omega)]
  · obtain ⟨q, hq, eq⟩ := fetchMagic_wrong hblock heos hb
    exact ⟨q, eq, hq.bits⟩

end Sys2Proof.Machine
end

section
/-! SUPPORT. DEC_READ inside a block (45_stream_decoder R282, R294..R299): the turn that serves the block, and, where the
block is over and its CRC right, the turns of the magic and of the trailer after it. -/

open Sys2Proof.Claims

namespace Sys2Proof.Machine

/-! ## The turn of a block -/

section
variable {s : State} {b b' : DecBlock} (hr : s.reading = true) (hd : s.dec.state = .decodingBlock)
  (hb : s.dec.blk = some b)
include hr hd hb

theorem step_block_byte {c : Byte} (hnext : nextByte s.dec.rand b = some { byte := some c, blk := b' }) :
    step s = .next (deliver c b' s) := by
  rw [step_reading hr, readStep, if_pos hd, blockStep, hb]
  dsimp only
  rw [hnext]

section
variable (hnext : nextByte s.dec.rand b = some { byte := none, blk := b' })
include hnext

theorem step_block_end : step s = .next (endBlock s) := by
  rw [step_reading hr, readStep, if_pos hd, blockStep, hb]
  dsimp only
  rw [hnext]

/-- A wrong CRC is fatal (45 R295). -/
theorem step_block_wrong (hcrc : s.dec.crc ^^^ 0xFFFFFFFF ≠ s.dec.stored) :
    step s = .next (decFaulted .blockCrcMismatch s) :=
  (step_block_end hr hd hb hnext).trans (congrArg _ (if_neg hcrc))

/-- A right one closes the block (45 R295, R296). -/
theorem step_block_right (hcrc : s.dec.crc ^^^ 0xFFFFFFFF = s.dec.stored) :
    step s = .next { s with dec := closedBlock s.dec } := by
  rw [step_block_end hr hd hb hnext, closedBlock, ← crcCombine_eq]
  exact congrArg _ (if_pos hcrc)

end
end

/-! ## The turns between blocks -/

theorem fetchElement_trailer {d : Decoder} (r : Reader) (hd : d.state = .expectStreamTrailer) :
    fetchElement d r = some (fetchTrailer r) := by
  simp only [fetchElement, hd]

section
variable {s : State} {i : Instr} {c : Cause} {q : Reader} (hr : s.reading = true)
include hr

theorem step_fetches (hd : s.dec.state ≠ .decodingBlock) (h : fetchElement s.dec s.br = some (.ok i, q)) :
    step s = exec i { s with br := q } :=
  (stepRunsTheElementFetched s hr hd).1 i q h

theorem step_raises (hd : s.dec.state ≠ .decodingBlock) (h : fetchElement s.dec s.br = some (.error c, q)) :
    step s = .next (decFaulted c { s with br := q }) :=
  (stepRunsTheElementFetched s hr hd).2 c q h

section
variable (hd : s.dec.state = .expectBlockHeader) (hsc : s.dec.scratch = none)
include hd hsc

theorem step_magic (h : fetchMagic s.br = (.ok i, q)) : step s = exec i { s with br := q } :=
  step_fetches hr (by rw [hd]; decide) ((fetchElement_betweenBlocks _ hd hsc).trans (congrArg some h))

theorem step_magic_raises (h : fetchMagic s.br = (.error c, q)) : step s = .next (decFaulted c { s with br := q }) :=
  step_raises hr (by rw [hd]; decide) ((fetchElement_betweenBlocks _ hd hsc).trans (congrArg some h))

end

section
variable (hd : s.dec.state = .expectStreamTrailer)
include hd

theorem step_trailer (h : fetchTrailer s.br = (.ok i, q)) : step s = exec i { s with br := q } :=
  step_fetches hr (by rw [hd]; decide) ((fetchElement_trailer _ hd).trans (congrArg some h))

theorem step_trailer_raises (h : fetchTrailer s.br = (.error c, q)) :
    step s = .next (decFaulted c { s with br := q }) :=
  step_raises hr (by rw [hd]; decide) ((fetchElement_trailer _ hd).trans (congrArg some h))

end
end

/-! ## The turns after a block -/

/-- Inside a DEC_READ, right after a block whose CRC was right: the next magic is to come (45 R282, R296). -/
def afterBlock (s : State) : State := { s with reading := true, dec := closedBlock s.dec }

/-- Then EOS_MAGIC is read, and the trailer is to come (45 R282, R297). -/
def atTrailer (p : Reader) (s : State) : State :=
  { afterBlock s with br := p, dec := { closedBlock s.dec with state := .expectStreamTrailer } }

section
variable {s t : State} (hsc : s.dec.scratch = none) (hclose : step { s with reading := true } = .next (afterBlock s))
include hsc hclose

theorem turns_blockMagic {q : Reader} (hq : fetchMagic s.br = (.ok .blockMagic, q)) :
    turns 2 { s with reading := true } =
      some (withTables DecScratch.start { s with reading := true, br := q, dec := closedBlock s.dec }) := by
  have hmagic := (step_magic (s := afterBlock s) rfl rfl hsc hq).trans (atStream_here rfl rfl hsc)
  exact (turns_succ rfl hclose).trans (turns_succ rfl hmagic)

variable (hd : s.dec.state = .decodingBlock)
include hd

theorem decRead_magic_raises {c : Cause} {q : Reader} (hq : fetchMagic s.br = (.error c, q)) :
    exec .decRead s = .next (decFaulted c { s with br := q, dec := closedBlock s.dec }) := by
  have hmagic := step_magic_raises (s := afterBlock s) rfl rfl hsc hq
  exact exec_decRead_of_turns (n := 2) hd (by decide) rfl ((turns_succ rfl hclose).trans (turns_succ rfl hmagic))

/-- After EOS_MAGIC the trailer's turn is the last. -/
theorem decRead_trailer {p : Reader} (hp : fetchMagic s.br = (.ok .eosMagic, p)) (hend : t.reading = false)
    (ht : step (atTrailer p s) = .next t) : exec .decRead s = .next t := by
  have hmagic : step (afterBlock s) = .next (atTrailer p s) :=
    (step_magic (s := afterBlock s) rfl rfl hsc hp).trans (atStream_here rfl rfl hsc)
  exact exec_decRead_of_turns (n := 3) hd (by decide) hend
    ((turns_succ rfl hclose).trans ((turns_succ rfl hmagic).trans (turns_succ rfl ht)))

end

/-- COMBINED_CRC in the trailer after a block (45 R297). -/
theorem step_atTrailer {s : State} {p q : Reader} {c : Word} (hsc : s.dec.scratch = none)
    (hq : fetchTrailer p = (.ok (.combinedCrc c), q)) :
    step (atTrailer p s) =
      if c = (closedBlock s.dec).comb then
        .next { s with
          lastCause := none
          result := 0xFFFFFFFF
          reading := false
          br := q
          dec := { closedBlock s.dec with state := .done } }
      else .next (decFaulted .streamCrcMismatch { s with br := q, dec := closedBlock s.dec }) :=
  (step_trailer (s := atTrailer p s) rfl rfl hq).trans (atStream_here rfl rfl hsc)

/-- Settles O51: the first turn serves the block or closes it; after a block that closes the second turn is the magic's, and
after EOS_MAGIC the third is the trailer's. -/
theorem decReadServesTheBlock : Obligations.DecReadServesTheBlock := by
  refine fun s => ⟨fun h _ hd => exec_decRead_eq_turns h hd, exec_decRead_done, fun b b' hd hb hsc => ?_⟩
  have hclose (hnext : nextByte s.dec.rand b = some { byte := none, blk := b' })
      (hcrc : s.dec.crc ^^^ 0xFFFFFFFF = s.dec.stored) : step { s with reading := true } = .next (afterBlock s) :=
    step_block_right rfl hd hb hnext hcrc
  refine ⟨fun c hnext => ?_, fun hnext hcrc => ?_, fun hnext hcrc c rest hbits => ?_, fun hnext hcrc =>
    ⟨fun rest hbits => ?_, fun m rest hblock heos hbits => ?_, fun hpos hlen => ?_, fun rest hpos hbits hlen => ?_⟩⟩
  · have hturn := step_block_byte (s := { s with reading := true }) rfl hd hb hnext
    exact exec_decRead_of_turns (n := 1) hd (by decide) rfl (turns_succ rfl hturn)
  · have hturn := step_block_wrong (s := { s with reading := true }) rfl hd hb hnext hcrc
    exact exec_decRead_of_turns (n := 1) hd (by decide) rfl (turns_succ rfl hturn)
  · rw [List.append_assoc] at hbits
    obtain ⟨p, hto, hp⟩ := fetchMagic_field (by decide) hbits
    obtain ⟨q, hto', hq⟩ := fetchTrailer_field hto.bits
    have htrailer := step_atTrailer hsc hq
    exact ⟨q, hto'.bits, (hto.trans hto').src,
      fun hc => decRead_trailer hsc (hclose hnext hcrc) hd hp rfl (htrailer.trans (if_pos hc)),
      fun hc => decRead_trailer hsc (hclose hnext hcrc) hd hp rfl (htrailer.trans (if_neg hc))⟩
  · obtain ⟨q, hto, hq⟩ := fetchMagic_field (by decide) hbits
    exact ⟨q, hto.bits, hto.src, turns_blockMagic hsc (hclose hnext hcrc) hq⟩
  · obtain ⟨q, hto, hq⟩ := fetchMagic_wrong hblock heos hbits
    exact ⟨q, hto.bits, hto.src, decRead_magic_raises hsc (hclose hnext hcrc) hd hq⟩
  · obtain ⟨q, hto, hend, hq⟩ := fetchMagic_short hpos hlen
    exact ⟨q, hto.bits, hto.src, hend, decRead_magic_raises hsc (hclose hnext hcrc) hd hq⟩
  · obtain ⟨p, hto, hp⟩ := fetchMagic_field (by decide) hbits
    obtain ⟨q, hto', hend, hq⟩ := fetchTrailer_short (hto.pos hpos) (hto.bits ▸ hlen)
    exact ⟨q, hto'.bits.trans hto.bits, (hto.trans hto').src, hend.trans (congrArg _ hto.src),
      decRead_trailer hsc (hclose hnext hcrc) hd hp rfl (step_trailer_raises (s := atTrailer p s) rfl rfl hq)⟩

end Sys2Proof.Machine
end

section
/-! SUPPORT. Which causes each command can end with (60_exceptions R341): the outcomes shared by the commands, then the
commands that raise a cause. -/

open Sys2Proof.Claims

namespace Sys2Proof.Machine

/-- A next state, if there is one, records no cause outside `causes`. -/
def RaisesOnly (causes : List Cause) (o : Host.Outcome State Fault Refusal) : Prop :=
  ∀ t c, o = .next t → t.lastCause = some c → c ∈ causes

/-! ## The outcomes shared by the commands -/

theorem succeed_raisesOnly (causes : List Cause) (s : State) : RaisesOnly causes (.next (succeed s)) := by
  rintro _ c ⟨⟩ hc
  cases hc

theorem recordCause_raisesOnly {causes : List Cause} {c : Cause} (h : c ∈ causes) (s : State) :
    RaisesOnly causes (.next (recordCause (some c) s)) := by
  rintro _ d ⟨⟩ hd
  cases hd
  exact h

theorem reject_raisesOnly {causes : List Cause} {c : Cause} (h : c ∈ causes) (s : State) :
    RaisesOnly causes (reject c s) := recordCause_raisesOnly h s

/-- The end of ENC_WRITE or ENC_CLOSE raises what the procedure raised (44 R258). -/
theorem finishEnc_raisesOnly {causes : List Cause} {x : Run Unit} (h : ∀ c t, x = .raised c t → c ∈ causes) :
    RaisesOnly causes (finishEnc x) := by
  cases x with
  | done _ t => exact succeed_raisesOnly causes t
  | raised c t => exact recordCause_raisesOnly (h c t rfl) _
  | broke f => exact fun _ _ ht => nomatch ht

/-! ## The commands that raise a cause -/

theorem execBwWriteBits_raisesOnly (n : BitVec 8) (s : State) :
    RaisesOnly (commandCauses (.bwWriteBits n)) (execBwWriteBits n s) := by
  unfold execBwWriteBits
  split
  · exact reject_raisesOnly (by simp [commandCauses]) s
  split
  · exact reject_raisesOnly (by simp [commandCauses]) s
  · exact succeed_raisesOnly _ _

theorem execBwFinish_raisesOnly (s : State) : RaisesOnly (commandCauses .bwFinish) (execBwFinish s) := by
  unfold execBwFinish
  split
  · exact reject_raisesOnly (by simp [commandCauses]) s
  · exact succeed_raisesOnly _ _

/-- The only cause of a read of bits is the end of the source (40_bitio R124). -/
theorem execBrReadBits_raisesOnly (n : BitVec 8) (s : State) :
    RaisesOnly (commandCauses (.brReadBits n)) (execBrReadBits n s) := by
  unfold execBrReadBits
  split
  · exact reject_raisesOnly (by simp [commandCauses]) s
  split
  · exact reject_raisesOnly (by simp [commandCauses]) s
  rcases hread : readBits n.toNat s.br with ⟨c | v, r⟩
  · obtain ⟨rfl, -⟩ := readBits_error hread
    exact recordCause_raisesOnly (by simp [commandCauses]) _
  · exact succeed_raisesOnly _ _

theorem execEncInit_raisesOnly (k : BitVec 8) (s : State) :
    RaisesOnly (commandCauses (.encInit k)) (execEncInit k s) := by
  unfold execEncInit
  split
  · exact reject_raisesOnly (by simp [commandCauses]) s
  · exact succeed_raisesOnly _ _

/-- A Faulted encoder has one sticky cause, SortStackOverflow (44 R258). -/
theorem Encoder.Ok.cause_faulted {e : Encoder} (h : e.Ok) (hst : e.state = .faulted) :
    e.cause = some .sortStackOverflow := by
  obtain ⟨-, -, -, -, -, -, -, hcause, -⟩ := h
  rw [hcause, if_pos hst]

theorem writeRaw_cause {s t : State} {b : Byte} {c : Cause} (h : s.enc.Ok) (hst : s.enc.state = .opened)
    (hw : writeRaw b s = .raised c t) : c = .sortStackOverflow := by
  obtain ⟨hmid, hle⟩ := h.mid hst
  obtain ⟨hrun, -⟩ := writeRaw_run b hmid hle
  rw [hw] at hrun
  exact hrun.1

theorem closeStream_cause {s t : State} {c : Cause} (h : s.enc.Ok) (hst : s.enc.state = .opened)
    (hcs : closeStream s = .raised c t) : c = .sortStackOverflow := by
  have hrun := closeStream_run (h.mid hst).1
  rw [hcs] at hrun
  exact hrun.1

theorem execEncWrite_raisesOnly {s : State} (b : Byte) (h : s.enc.Ok) :
    RaisesOnly (commandCauses (.encWrite b)) (execEncWrite b s) := by
  cases hst : s.enc.state with
  | faulted =>
    rw [execEncWrite_faulted b hst (h.cause_faulted hst)]
    exact recordCause_raisesOnly (by simp [commandCauses]) s
  | idle | closed =>
    rw [execEncWrite, hst]
    exact reject_raisesOnly (by simp [commandCauses]) s
  | opened =>
    rw [execEncWrite, hst]
    exact finishEnc_raisesOnly fun c t hw => by simp [writeRaw_cause h hst hw, commandCauses]

theorem execEncClose_raisesOnly {s : State} (h : s.enc.Ok) :
    RaisesOnly (commandCauses .encClose) (execEncClose s) := by
  cases hst : s.enc.state with
  | faulted =>
    rw [execEncClose_faulted hst (h.cause_faulted hst)]
    exact recordCause_raisesOnly (by simp [commandCauses]) s
  | idle =>
    rw [execEncClose, hst]
    exact reject_raisesOnly (by simp [commandCauses]) s
  | closed =>
    rw [execEncClose_closed hst]
    exact succeed_raisesOnly _ s
  | opened =>
    rw [execEncClose, hst]
    exact finishEnc_raisesOnly fun c t hw => by simp [closeStream_cause h hst hw, commandCauses]

/-- Every cause the decoder can fault with is one of DEC_READ's (60_exceptions R341). -/
theorem mem_commandCauses_decRead {c : Cause} (h : isDecodeFault c = true) : c ∈ commandCauses .decRead := by
  revert h
  cases c <;> decide

/-- A Faulted decoder has a sticky cause, one of the decode faults (45 R299). -/
theorem Decoder.Ok.cause_faulted {d : Decoder} {reading : Bool} (h : d.Ok reading) (hst : d.state = .faulted) :
    ∃ c, d.cause = some c ∧ isDecodeFault c = true := by
  obtain ⟨-, -, -, -, hcause, hfault⟩ := h
  obtain ⟨c, hc⟩ := Option.isSome_iff_exists.1 (hcause.1 hst)
  exact ⟨c, hc, hfault c hc⟩

/-- A DEC_READ that runs its loop ends with no cause or with a decode fault (45 R299). -/
theorem readStream_raisesOnly {s : State} (h : s.Inv)
    (hst : s.dec.state = .expectStreamHeader ∨ s.dec.state = .decodingBlock) :
    RaisesOnly (commandCauses .decRead) (readLoop (readBound s.br) { s with reading := true }) := by
  obtain ⟨t, ht, -, -, -, hend⟩ := readStream_spec h hst
  rw [ht]
  rintro _ c ⟨⟩ hc
  rcases hend with ⟨hnone, -⟩ | ⟨hnone, -⟩ | ⟨d, hd, hsome, -⟩
  · rw [hnone] at hc; cases hc
  · rw [hnone] at hc; cases hc
  · rw [hsome] at hc; cases hc
    exact mem_commandCauses_decRead hd

theorem execDecRead_raisesOnly {s : State} (h : s.Inv) (hr : s.reading = false) :
    RaisesOnly (commandCauses .decRead) (execDecRead s) := by
  cases hst : s.dec.state with
  | faulted =>
    obtain ⟨c, hc, hfault⟩ := h.dec.cause_faulted hst
    rw [execDecRead_faulted hst hc]
    exact recordCause_raisesOnly (mem_commandCauses_decRead hfault) s
  | idle =>
    rw [execDecRead, hst]
    exact reject_raisesOnly (by simp [commandCauses]) s
  | done =>
    rw [execDecRead, hst]
    exact succeed_raisesOnly _ _
  | expectStreamHeader =>
    rw [execDecRead, hst]
    exact readStream_raisesOnly h (.inl hst)
  | decodingBlock =>
    rw [execDecRead, hst]
    exact readStream_raisesOnly h (.inr hst)
  | expectBlockHeader | expectStreamTrailer =>
    obtain ⟨⟨hheld, -⟩, -⟩ := h.dec
    have := hheld hr
    rw [hst] at this
    cases this

/-- From a state between commands that meets the invariant, every command raises only its own causes. -/
theorem exec_raisesOnly {i : Instr} {s : State} (hi : i.isCommand = true) (h : s.Inv) (hr : s.reading = false) :
    RaisesOnly (commandCauses i) (exec i s) := by
  cases i with
  | nop | crcReset | crcUpdate | crcValue | crcCombReset | crcCombine | decInit => exact succeed_raisesOnly _ _
  | reset => exact succeed_raisesOnly _ (resetCore s)
  | bwWriteBits n => exact execBwWriteBits_raisesOnly n s
  | bwFinish => exact execBwFinish_raisesOnly s
  | brReadBits n => exact execBrReadBits_raisesOnly n s
  | encInit k => exact execEncInit_raisesOnly k s
  | encWrite b => exact execEncWrite_raisesOnly b h.enc
  | encClose => exact execEncClose_raisesOnly h.enc
  | decRead => exact execDecRead_raisesOnly h hr
  | _ => cases hi

/-- Settles O29: by cases over the commands; the invariant bounds the causes a Faulted encoder or decoder reports
again. -/
theorem commandsRaiseOnlyTheirCauses : Obligations.CommandsRaiseOnlyTheirCauses :=
  fun _ _ t c h hr hi => exec_raisesOnly hi h hr t c

end Sys2Proof.Machine
end

section
/-! SUPPORT. NOP and RESET, and the power-on state (70_reset R370..R372, R379). -/

namespace Sys2Proof.Machine

/-! ## NOP -/

/-- NOP's mask keeps every field of STATUS but ERR and LAST_CAUSE, which it clears (10_state R24, 70 R379). -/
theorem status_fields_and_mask (err drand erand : BitVec 1) (est : BitVec 2) (dst : BitVec 3)
    (dcause ecause last : BitVec 8) :
    (err ++ drand ++ erand ++ est ++ dst ++ dcause ++ ecause ++ last) &&& 0x7FFFFF00#_ =
      0#1 ++ drand ++ erand ++ est ++ dst ++ dcause ++ ecause ++ 0#8 := by
  have hmask : 0x7FFFFF00#(1 + 1 + 1 + 2 + 3 + 8 + 8 + 8) =
      0#1 ++ BitVec.allOnes 1 ++ BitVec.allOnes 1 ++ BitVec.allOnes 2 ++ BitVec.allOnes 3 ++ BitVec.allOnes 8 ++
        BitVec.allOnes 8 ++ 0#8 := rfl
  rw [hmask]
  simp only [BitVec.and_append, BitVec.and_allOnes, BitVec.and_zero]

theorem statusWord_succeed (s : State) : statusWord (succeed s) = statusWord s &&& 0x7FFFFF00 :=
  (status_fields_and_mask ..).symm

/-- Only STATUS shows LAST_CAUSE (10_state R22..R29). -/
theorem readReg_succeed (s : State) {r : HostReg} (hr : r ≠ .status) : readReg (succeed s) r = readReg s r := by
  cases r with
  | status => exact absurd rfl hr
  | _ => rfl

/-- NOP's opcode takes no operand, so checks 2 and 3 leave it one word (30_encoding R102). -/
theorem decodeCmd_nop_opcode_error {w : Word} (hop : opField w = 0x00) (h : fField w ≠ 0 ∨ zField w ≠ 0) :
    decodeCmd w = .error .illegalCommand := by
  rw [decodeCmd, hop]
  exact plainCommand_error_iff.2 ⟨h.symm, rfl⟩

/-- Settles O24: NOP is `succeed`, which clears LAST_CAUSE, and of the registers only STATUS shows that. -/
theorem nopOnlyClearsLastCause : Obligations.NopOnlyClearsLastCause :=
  ⟨(commandWordsDecodeAndEncodeAgree _ _).1 rfl, fun _ => decodeCmd_nop_opcode_error,
    fun s => ⟨succeed s, rfl, statusWord_succeed s, fun _ => readReg_succeed s, rfl⟩⟩

/-! ## The power-on state -/

/-- Every register reads 0, the CRC registers because they show the complement of their seed (70 R372). -/
theorem readReg_reset (r : HostReg) : readReg State.reset r = 0 := by
  cases r <;> decide

/-- Settles O26: RESET keeps the position, and at power-on every register and every field is as the reset table has it. -/
theorem powerOnValues : Obligations.PowerOnValues := by
  refine ⟨?_, readReg_reset, by decide⟩
  rintro s _ ⟨⟩
  rfl

theorem encoderReset_ok : Encoder.reset.Ok := by decide

theorem decoderReset_ok : Decoder.reset.Ok false := by decide

/-- Settles O9: both accumulators and the source are empty, and both units are Idle and in order. -/
theorem powerOnMeetsTheInvariant : Obligations.PowerOnMeetsTheInvariant :=
  ⟨Nat.zero_le _, ⟨Nat.zero_le _, le_rfl⟩, encoderReset_ok, decoderReset_ok⟩

/-! ## RESET -/

/-- What RESET keeps, the sink's bytes, the source and its position, no register shows (70 R370). -/
theorem readReg_resetCore (s : State) (r : HostReg) : readReg (resetCore s) r = readReg State.reset r := by
  cases r <;> rfl

/-- Settles O25: RESET is `resetCore`, whose registers are those of the power-on state. -/
theorem resetFollowsItsRule : Obligations.ResetFollowsItsRule :=
  ⟨(commandWordsDecodeAndEncodeAgree _ _).1 rfl, fun s =>
    ⟨resetCore s, rfl, fun r => (readReg_resetCore s r).trans (readReg_reset r),
      rfl, rfl, rfl, rfl, rfl, rfl, rfl, rfl, rfl, rfl, rfl⟩⟩

end Sys2Proof.Machine
end
